-- ==== Sys2Proof/Word.lean ====
section
/-! DEFINITION. The word types of the engine: octets, 32-bit register words, block registers, the key register. -/

namespace Sys2Proof

/-- One octet. -/
abbrev Byte := BitVec 8

/-- One 32-bit word of the MMIO window (R8). -/
abbrev Word := BitVec 32

/-- The content of a sixteen-octet block register, read as one big-endian integer (R21). -/
abbrev Block := BitVec 128

/-- The content of a 32-octet register (KEY, KD), read as one big-endian integer (R21, R31, R39). -/
abbrev Key := BitVec 256

/-- An octet string (R9): octet 0 is the head of the list and the most significant one. -/
abbrev Octets := List Byte

end Sys2Proof
end

