-- ==== Sys2Proof/Syntax.lean ====
section
/-! DEFINITION. The commands of the engine, the fields of a command word, the words of the MMIO window and the
events of the outside world. -/

namespace Sys2Proof

/-- The sixteen commands, one constructor per row of the opcode map (R84).
A command has no operand fields: all operands are in registers (R82). -/
inductive Instr where
  | nop
  | gfmul64
  | gfmac64
  | gfmul128
  | gfmac128
  | incrL
  | incrR
  | noncePrep
  | encblk
  | tagcmp
  | mgmSeal
  | mgmOpen
  | acpkmDerive
  | acpkmDeriveLoad
  | ctrAcpkm
  | acpkmMaster
deriving DecidableEq, Repr

/-- The three fields of a command word (R80, R81). -/
structure CommandWord where
  opc : BitVec 8
  flag : Bool
  rsv : BitVec 23
deriving DecidableEq, Repr

/-- Why a command word is illegal (R86). -/
inductive IllegalWord where
  /-- RSV is not 0. -/
  | reservedBits
  /-- OPC is not in the opcode map. -/
  | unassignedOpcode
  /-- F is 1 and OPC is not one of 0x01, 0x02, 0x20. -/
  | flagNotAllowed
deriving DecidableEq, Repr

/-- The 32-bit words of the MMIO window by name (R22, R88).
A word of a multi-word register carries its index; `dbuf a` is the word at DBUF offset `a`. -/
inductive Loc where
  | id
  | ctrl
  | cmd
  | status
  | irqStatus
  | irqEnable
  | cap
  | reserved
  | arg (i : Fin 8)
  | key (i : Fin 8)
  | nonce (k : Fin 4)
  | tag (k : Fin 4)
  | tagin (k : Fin 4)
  | gfa (k : Fin 4)
  | gfb (k : Fin 4)
  | gfz (k : Fin 4)
  | cnt (k : Fin 4)
  | blk (k : Fin 4)
  | kd (i : Fin 8)
  | dbuf (a : Nat)
deriving DecidableEq, Repr

/-- One access of the host to the window: its width in bits and its octet offset from the window base (R60, R61).
The value of a write that is not 32 bits wide is of no effect, so a 32-bit value is enough. -/
inductive Access where
  | read (width offset : Nat)
  | write (width offset : Nat) (value : Word)
deriving DecidableEq, Repr

/-- What the outside world and the schedule let happen in one step (R68, R100, R101, R227, R250; log entry 6). -/
inductive Event where
  /-- The engine serves one host access. -/
  | access (a : Access)
  /-- The engine takes its completion step, where one is enabled. -/
  | completion
  /-- A host access and a completion fall in the same step: the access is applied first (R27, R227). -/
  | accessWithCompletion (a : Access)
  /-- The hardware reset input (R250, R251). -/
  | reset
deriving DecidableEq, Repr

end Sys2Proof
end

