-- ==== Sys2Proof/WellFormed.lean ====
section
/-! DEFINITION. When the fields of a command word are those of a legal command (R80, R84, R86).
A command itself has no operand fields (R82), so nothing about it can be ill formed beyond its word. -/

namespace Sys2Proof

/-- RSV must be 0 (R80). -/
def CommandWord.rsvClear (c : CommandWord) : Bool := c.rsv == 0#23

/-- OPC must be in the opcode map (R84, R86). -/
def CommandWord.opcAssigned (c : CommandWord) : Bool :=
  c.opc.toNat ≤ 0x07 || c.opc.toNat == 0x10 || c.opc.toNat == 0x11 ||
    c.opc.toNat == 0x20 || c.opc.toNat == 0x21 || c.opc.toNat == 0x22

/-- F may be 1 only for OPC 0x01, 0x02 and 0x20 (R80, R86). -/
def CommandWord.flagAllowed (c : CommandWord) : Bool :=
  !c.flag || c.opc.toNat == 0x01 || c.opc.toNat == 0x02 || c.opc.toNat == 0x20

/-- A command word is legal when none of the three reasons of R86 holds. -/
def CommandWord.wellFormed (c : CommandWord) : Bool :=
  c.rsvClear && c.opcAssigned && c.flagAllowed

end Sys2Proof
end

