-- ==== Sys2Proof/Decode.lean ====
section
/-! DEFINITION. Decoding a command word, and the encoder written from the same map (R80–R87). -/

namespace Sys2Proof

/-- Field extraction: OPC = w[7:0], F = w[8], RSV = w[31:9] (R81). -/
def fieldsOf (w : Word) : CommandWord where
  opc := w.extractLsb' 0 8
  flag := w.getLsbD 8
  rsv := w.extractLsb' 9 23

/-- The word with the given fields (R80). -/
def packFields (c : CommandWord) : Word := c.rsv ++ (BitVec.ofBool c.flag ++ c.opc : BitVec 9)

/-- The opcode map of R84: OPC, F and the command they select. -/
def opcodeMap : List (Nat × Bool × Instr) :=
  [ (0x00, false, .nop),
    (0x01, false, .gfmul64),
    (0x01, true, .gfmac64),
    (0x02, false, .gfmul128),
    (0x02, true, .gfmac128),
    (0x03, false, .incrL),
    (0x04, false, .incrR),
    (0x05, false, .noncePrep),
    (0x06, false, .encblk),
    (0x07, false, .tagcmp),
    (0x10, false, .mgmSeal),
    (0x11, false, .mgmOpen),
    (0x20, false, .acpkmDerive),
    (0x20, true, .acpkmDeriveLoad),
    (0x21, false, .ctrAcpkm),
    (0x22, false, .acpkmMaster) ]

/-- The command in the row whose OPC and F are given (R84). -/
def commandOf (opc : BitVec 8) (flag : Bool) : Option Instr :=
  (opcodeMap.find? fun row => row.1 == opc.toNat && row.2.1 == flag).map fun row => row.2.2

/-- Decoding is total: a word is one of the sixteen commands or illegal, and an illegal word says why (R84, R86, R87). -/
def decode (w : Word) : Except IllegalWord Instr :=
  if (fieldsOf w).rsv ≠ 0#23 then .error .reservedBits
  else
    match commandOf (fieldsOf w).opc (fieldsOf w).flag with
    | some i => .ok i
    | none =>
      if (commandOf (fieldsOf w).opc false).isSome then .error .flagNotAllowed
      else .error .unassignedOpcode

/-- OPC of a command (R84). -/
def opcOf : Instr → BitVec 8
  | .nop => 0x00#8
  | .gfmul64 => 0x01#8
  | .gfmac64 => 0x01#8
  | .gfmul128 => 0x02#8
  | .gfmac128 => 0x02#8
  | .incrL => 0x03#8
  | .incrR => 0x04#8
  | .noncePrep => 0x05#8
  | .encblk => 0x06#8
  | .tagcmp => 0x07#8
  | .mgmSeal => 0x10#8
  | .mgmOpen => 0x11#8
  | .acpkmDerive => 0x20#8
  | .acpkmDeriveLoad => 0x20#8
  | .ctrAcpkm => 0x21#8
  | .acpkmMaster => 0x22#8

/-- F of a command: accumulate for the multipliers, load-key for the derivation (R80, R84). -/
def flagOf : Instr → Bool
  | .gfmac64 => true
  | .gfmac128 => true
  | .acpkmDeriveLoad => true
  | .nop => false
  | .gfmul64 => false
  | .gfmul128 => false
  | .incrL => false
  | .incrR => false
  | .noncePrep => false
  | .encblk => false
  | .tagcmp => false
  | .mgmSeal => false
  | .mgmOpen => false
  | .acpkmDerive => false
  | .ctrAcpkm => false
  | .acpkmMaster => false

/-- The fields of a command's word (R80, R84). -/
def Instr.fields (i : Instr) : CommandWord where
  opc := opcOf i
  flag := flagOf i
  rsv := 0#23

/-- The command word of a command (R80, R84). -/
def encode (i : Instr) : Word := packFields i.fields

/-- A command is well formed when its fields are. -/
def Instr.wellFormed (i : Instr) : Bool := i.fields.wellFormed

/-- The host's view of the decoder: a command is one 32-bit word (R80), so the word is its own layout. -/
def decodeTableWord (nbits w : Nat) : Option Instr :=
  if w % 2 ^ nbits < 2 ^ 32 then (decode (BitVec.ofNat 32 (w % 2 ^ nbits))).toOption else none

end Sys2Proof
end

