-- ==== Sys2Proof/Config.lean ====
section
/-! DEFINITION. What the spec fixes for this hardware and what it leaves open as a parameter (R6, R7, R8). -/

namespace Sys2Proof

/-- The two block sizes of the engine (R2, R104); no other size is supported. -/
inductive BlockSize where
  | b8
  | b16
deriving DecidableEq, Repr

/-- The parameters of R7 and the free values of the spec, which the model takes as an argument.
`bc8` and `bc16` are the external ciphers behind the BC port (R118).
`dbufUnits` gives DBUF_SIZE, see `Params.dbufSize`.
`dbufInit e a` is the DBUF_INIT content of octet `a` after the reset numbered `e` (R252).
`raceWord k` is the k-th unspecified read value (R258). -/
structure Params where
  bc8 : Key → BitVec 64 → BitVec 64
  bc16 : Key → BitVec 128 → BitVec 128
  dbufUnits : BitVec 24
  dbufInit : Nat → Nat → Byte
  raceWord : Nat → Word

/-- DBUF_SIZE in octets: the multiples of 16 from 16 to 2^28, each for exactly one value of `dbufUnits` (R7). -/
def Params.dbufSize (P : Params) : Nat := 16 * (P.dbufUnits.toNat + 1)

/-- BC8, the external 64-bit-block cipher: any total, deterministic function (R7, R118; log entry 1). -/
opaque Config.bc8 : Key → BitVec 64 → BitVec 64

/-- BC16, the external 128-bit-block cipher: any total, deterministic function (R7, R118; log entry 1). -/
opaque Config.bc16 : Key → BitVec 128 → BitVec 128

/-- The build choice behind DBUF_SIZE (R7; log entry 2). -/
opaque Config.dbufUnits : BitVec 24

/-- DBUF_INIT, the unspecified content of DBUF after each reset (R7, R252; log entry 3). -/
opaque Config.dbufInit : Nat → Nat → Byte

/-- The unspecified values of reads that race with a running command (R258; log entry 5). -/
opaque Config.raceWord : Nat → Word

/-- The parameters of the machine `Sys2Proof.core`: every one of them open. -/
def Config.engine : Params where
  bc8 := Config.bc8
  bc16 := Config.bc16
  dbufUnits := Config.dbufUnits
  dbufInit := Config.dbufInit
  raceWord := Config.raceWord

/-- The constant content of the ID register (R2, R23). -/
def Config.idValue : Word := 0x34130001#32

/-- KEYSIZE in octets (R6). -/
def Config.keySize : Nat := 32

/-- The first octet of the ACPKM constant schedule (R6, R150). -/
def Config.acpkmStart : Nat := 0x80

end Sys2Proof
end

