-- ==== Sys2Proof/Machine/State.lean ====
section
/-! DEFINITION. The state of the engine (R20, R22, R41, R42), the results of a command (R101), the reasons a step
can stop, and the state after reset (R250). -/

namespace Sys2Proof.Machine

/-- CTRL (R24). Bits [31:16] are reserved and read 0, so they are not held. -/
structure Ctrl where
  bs : BitVec 8
  tagsize : BitVec 8
deriving DecidableEq, Repr

/-- STATUS (R26). Bits [7:5] and [31:12] are always 0, so they are not held. -/
structure Status where
  busy : Bool
  done : Bool
  err : Bool
  authOk : Bool
  wign : Bool
  errcode : BitVec 4
deriving DecidableEq, Repr

/-- IRQ_STATUS (R27). -/
structure IrqStatus where
  cmpl : Bool
  erri : Bool
deriving DecidableEq, Repr

/-- IRQ_ENABLE (R28). -/
structure IrqEnable where
  cmple : Bool
  erre : Bool
deriving DecidableEq, Repr

/-- The error kinds of R220. -/
inductive ErrCode where
  | illegalCmd
  | invalidBlockSize
  | invalidTagSize
  | size
  | range
  | overlap
  | authFail
deriving DecidableEq, Repr

/-- One write of a command's write set W (R101): a register and its new content, or DBUF octets from an offset on. -/
inductive Write where
  | nonce (v : Block)
  | tag (v : Block)
  | gfz (v : Block)
  | cnt (v : Block)
  | blk (v : Block)
  | kd (v : Key)
  | key (v : Key)
  | dbuf (a : Nat) (v : Octets)
deriving DecidableEq, Repr

/-- What `Exec` returns (R101, R103): the command's writes and the AUTH_OK value, or an error code. -/
inductive Result where
  | ok (writes : List Write) (authOk : Bool)
  | err (c : ErrCode)
deriving DecidableEq, Repr

/-- What the bus answers to the host access that the latest step served (R61, R63; log entry 7). -/
inductive BusReply where
  /-- The latest step served no access. -/
  | none
  /-- The latest step served a write, which takes effect or is ignored without an error. -/
  | ack
  /-- The latest step served a read, which returned this word. -/
  | data (w : Word)
deriving DecidableEq, Repr

/-- DBUF as the octets written since reset: pairs of an offset and its octet, in the canonical form `Memory.wf`
(Machine/Ops.lean). An octet that is not listed has not been written since reset. -/
abbrev Memory := List Host.Cell

/-- The architectural state (R20): the registers of R22 that hold a value, DBUF, PCMD.
ID and CAP are constants (R23, R29), the IRQ line is a function of state (R44, `State.irqLine`), CMD holds nothing
(R25) and no transient datapath value outlives a step (R43).
The last four fields are the model's own: the events still to come, the bus's latest answer, and two counters. -/
structure State where
  ctrl : Ctrl
  status : Status
  irqStatus : IrqStatus
  irqEnable : IrqEnable
  args : Vector Word 8
  key : Key
  nonce : Block
  tag : Block
  tagin : Block
  gfa : Block
  gfb : Block
  gfz : Block
  cnt : Block
  blk : Block
  kd : Key
  dbuf : Memory
  pcmd : Word
  events : List Event
  reply : BusReply
  tick : Nat
  epoch : Nat
deriving DecidableEq, Repr

/-- Why a step stops with a fault. -/
inductive Fault where
  /-- Raised by `serve` on a host access inside the window that is not 32 bits wide or not 4-aligned (R61, R223).
  `rdata` is the read data that goes with the error response.
  Safe: the spec asks a model to treat a bus error as a fault of the host program (R223, R224). -/
  | busError (offset : Nat) (rdata : Word)
  /-- Raised by `serve` on a host access at or beyond the end of the window, where the engine does not respond (R64).
  Safe: the spec asks a model to fault and to give such an access no value (93_implementation_defined.md U11). -/
  | outsideWindow (offset : Nat)
deriving DecidableEq, Repr

/-- Why a step refuses. -/
inductive Refusal where
  /-- Raised by an arm of `exec` for an instruction that has no meaning yet; no arm raises it now. Safe. -/
  | notModelled (mnemonic : String)
deriving DecidableEq, Repr

/-- The state after reset (R22, R250): CTRL = 0x10, every other register 0, no command latched, DBUF unspecified. -/
def State.reset : State where
  ctrl := { bs := 0x10#8, tagsize := 0x00#8 }
  status := { busy := false, done := false, err := false, authOk := false, wign := false, errcode := 0#4 }
  irqStatus := { cmpl := false, erri := false }
  irqEnable := { cmple := false, erre := false }
  args := #v[0#32, 0#32, 0#32, 0#32, 0#32, 0#32, 0#32, 0#32]
  key := 0#256
  nonce := 0#128
  tag := 0#128
  tagin := 0#128
  gfa := 0#128
  gfb := 0#128
  gfz := 0#128
  cnt := 0#128
  blk := 0#128
  kd := 0#256
  dbuf := []
  pcmd := 0#32
  events := []
  reply := .none
  tick := 0
  epoch := 0

end Sys2Proof.Machine
end

