-- ==== Sys2Proof/Machine/Flags.lean ====
section
/-! DEFINITION. The control and flag registers as words, the flag updates of acceptance and completion, and the IRQ
line (R24, R26–R28, R44, R100, R101, R220). -/

namespace Sys2Proof.Machine

/-- The code of an error kind in STATUS.ERRCODE (R220). -/
def ErrCode.code : ErrCode → BitVec 4
  | .illegalCmd => 1#4
  | .invalidBlockSize => 2#4
  | .invalidTagSize => 3#4
  | .size => 4#4
  | .range => 5#4
  | .overlap => 6#4
  | .authFail => 7#4

/-- CTRL as the host reads it (R24). -/
def Ctrl.toWord (c : Ctrl) : Word := (0#16 ++ c.tagsize ++ c.bs : BitVec (16 + 8 + 8))

/-- CTRL after a host write: any value of the two fields is stored, reserved bits are ignored (R24). -/
def Ctrl.ofWord (w : Word) : Ctrl where
  bs := w.extractLsb' 0 8
  tagsize := w.extractLsb' 8 8

/-- STATUS as the host reads it (R26). -/
def Status.toWord (t : Status) : Word :=
  (0#20 ++ t.errcode ++ 0#3 ++ BitVec.ofBool t.wign ++ BitVec.ofBool t.authOk ++ BitVec.ofBool t.err ++
    BitVec.ofBool t.done ++ BitVec.ofBool t.busy : BitVec (20 + 4 + 3 + 1 + 1 + 1 + 1 + 1))

/-- IRQ_STATUS as the host reads it (R27). -/
def IrqStatus.toWord (q : IrqStatus) : Word :=
  (0#30 ++ BitVec.ofBool q.erri ++ BitVec.ofBool q.cmpl : BitVec (30 + 1 + 1))

/-- IRQ_STATUS after a host write: a 1 clears its bit, a 0 leaves it (R27). -/
def IrqStatus.clear (q : IrqStatus) (w : Word) : IrqStatus where
  cmpl := q.cmpl && !w.getLsbD 0
  erri := q.erri && !w.getLsbD 1

/-- IRQ_ENABLE as the host reads it (R28). -/
def IrqEnable.toWord (e : IrqEnable) : Word :=
  (0#30 ++ BitVec.ofBool e.erre ++ BitVec.ofBool e.cmple : BitVec (30 + 1 + 1))

/-- IRQ_ENABLE after a host write (R28). -/
def IrqEnable.ofWord (w : Word) : IrqEnable where
  cmple := w.getLsbD 0
  erre := w.getLsbD 1

/-- STATUS after an acceptance: BUSY alone is set (R100). -/
def Status.accepted : Status where
  busy := true
  done := false
  err := false
  authOk := false
  wign := false
  errcode := 0#4

/-- STATUS after a successful completion with AUTH_OK value `a` (R101). -/
def Status.completedOk (t : Status) (a : Bool) : Status :=
  { t with authOk := a, busy := false, done := true }

/-- STATUS after a completion with an error (R101, R221). -/
def Status.completedErr (t : Status) (c : ErrCode) : Status :=
  { t with err := true, errcode := c.code, busy := false, done := true, authOk := false }

/-- IRQ_STATUS after a successful completion: ERRI stays as it is (R101). -/
def IrqStatus.completedOk (q : IrqStatus) : IrqStatus := { q with cmpl := true }

/-- IRQ_STATUS after a completion with an error (R101). -/
def IrqStatus.completedErr (_q : IrqStatus) : IrqStatus where
  cmpl := true
  erri := true

/-- The level-sensitive interrupt line, a function of state (R44). -/
def State.irqLine (s : State) : Bool :=
  (s.irqStatus.cmpl && s.irqEnable.cmple) || (s.irqStatus.erri && s.irqEnable.erre)

end Sys2Proof.Machine
end

