-- ==== Sys2Proof/Machine/Octets.lean ====
section
/-! DEFINITION. Octet strings: integers, slices, exclusive or, padding, counters, comparison, chunks (R9, R10, R108–R117). -/

namespace Sys2Proof.Machine

/-- bs in octets (R104). -/
def blockOctets : BlockSize → Nat
  | .b8 => 8
  | .b16 => 16

/-- The half-block size h = bs/2 in octets (R104). -/
def halfOctets (b : BlockSize) : Nat := blockOctets b / 2

/-- `from_be(s)`, the sum of s[i]·256^(|s|−1−i) (R10). -/
def fromBe : Octets → Nat
  | [] => 0
  | o :: s => o.toNat * 256 ^ s.length + fromBe s

/-- `to_be(v, L)`: exactly L octets, the most significant excess of `v` truncated (R10). -/
def toBe (v : Nat) : Nat → Octets
  | 0 => []
  | L + 1 => BitVec.ofNat 8 (v / 256 ^ L) :: toBe v L

/-- The slice s[a..b) (R9). -/
def slice (s : Octets) (a b : Nat) : Octets := (s.drop a).take (b - a)

/-- The string of k zero octets (R9). -/
def zeros (k : Nat) : Octets := List.replicate k 0#8

/-- The octets of a register of n bits, octet 0 in the most significant place (R21). -/
def octetsOf {n : Nat} (r : BitVec n) : Octets := toBe r.toNat (n / 8)

/-- The register of n bits that holds the octet string (R21). -/
def ofOctets (n : Nat) (s : Octets) : BitVec n := BitVec.ofNat n (fromBe s)

/-- `xor(a, b)`, octet by octet over the shorter of the two (R111). -/
def xorOctets (a b : Octets) : Octets := List.zipWith (fun x y => x ^^^ y) a b

/-- `pad1(s)`: zeros up to a multiple of the block size (R112). -/
def pad1 (b : BlockSize) (s : Octets) : Octets :=
  s ++ zeros ((blockOctets b - s.length % blockOctets b) % blockOctets b)

/-- `msb_clear`: the top bit of octet 0 becomes 0 (R113). -/
def msbClear : Octets → Octets
  | [] => []
  | o :: s => (o &&& 0x7F#8) :: s

/-- `msb_set`: the top bit of octet 0 becomes 1 (R113). -/
def msbSet : Octets → Octets
  | [] => []
  | o :: s => (o ||| 0x80#8) :: s

/-- `incr_l`: the left half as a big-endian integer steps modulo 2^(4·bs), the right half stays (R114). -/
def incrLeft (b : BlockSize) (c : Octets) : Octets :=
  toBe (fromBe (slice c 0 (halfOctets b)) + 1) (halfOctets b) ++ slice c (halfOctets b) (blockOctets b)

/-- `incr_r`: the right half steps modulo 2^(4·bs), the left half stays (R115). -/
def incrRight (b : BlockSize) (c : Octets) : Octets :=
  slice c 0 (halfOctets b) ++ toBe (fromBe (slice c (halfOctets b) (blockOctets b)) + 1) (halfOctets b)

/-- The difference accumulator of `ct_equal`: every one of the first T octet pairs is visited (R116). -/
def ctDifference (x y : Octets) (T : Nat) : Byte :=
  (List.range T).foldl (fun d i => d ||| (x.getD i 0#8 ^^^ y.getD i 0#8)) 0#8

/-- `ct_equal(a, b, T)`: one decision after all T octet pairs (R116). -/
def ctEqual (x y : Octets) (T : Nat) : Bool := ctDifference x y T == 0#8

/-- `chunks(s)`: ⌈|s|/bs⌉ pieces of bs octets, the last one possibly shorter (R117). -/
def chunks (b : BlockSize) (s : Octets) : List Octets :=
  (List.range ((s.length + blockOctets b - 1) / blockOctets b)).map fun j =>
    slice s (j * blockOctets b) (min ((j + 1) * blockOctets b) s.length)

/-- Word k of a register: octets 4k..4k+3, octet 4k in bits [31:24] (R21). -/
def wordOf {n : Nat} (r : BitVec n) (k : Nat) : Word := r.extractLsb' (n - 32 * (k + 1)) 32

/-- The register with word k replaced (R21, R67). -/
def setWordOf {n : Nat} (r : BitVec n) (k : Nat) (w : Word) : BitVec n :=
  (r &&& ~~~((BitVec.allOnes 32).setWidth n <<< (n - 32 * (k + 1)))) |||
    (w.setWidth n <<< (n - 32 * (k + 1)))

end Sys2Proof.Machine
end

