-- ==== Sys2Proof/Machine/Ops.lean ====
section
/-! DEFINITION. DBUF, and the two ends of a command: applying its result in one atomic step (R71, R101, R102, R252).
The engine has no trap entry and no return from one (R228, R229): an error completion is its whole counterpart. -/

namespace Sys2Proof.Machine

/-- The octet written at an address since reset, where there is one. -/
def Memory.lookup : Memory → Nat → Option Byte
  | [], _ => none
  | (c, o) :: m, a => if c = a then some o else Memory.lookup m a

/-- The memory after one octet is written; the list stays sorted by address. -/
def Memory.write : Memory → Nat → Byte → Memory
  | [], a, v => [(a, v)]
  | (c, o) :: m, a, v =>
    if a < c then (a, v) :: (c, o) :: m
    else if a = c then (a, v) :: m
    else (c, o) :: Memory.write m a v

/-- The memory after the octets are written from an address on (R71). -/
def Memory.writeOctets : Memory → Nat → Octets → Memory
  | m, _, [] => m
  | m, a, o :: s => Memory.writeOctets (Memory.write m a o) (a + 1) s

/-- What an unlisted address holds: no octet written since reset (R252; log entry 3). -/
def Memory.unlisted : Option Byte := none

/-- The canonical form: addresses strictly rising, and no entry equal to what an unlisted address holds. -/
abbrev Memory.wf (m : Memory) : Prop :=
  (m.map Prod.fst).Pairwise (· < ·) ∧ ∀ c ∈ m, some c.2 ≠ Memory.unlisted

/-- DBUF[a]: the octet written since reset, else the DBUF_INIT octet of the latest reset (R252). -/
def State.octet (P : Params) (s : State) (a : Nat) : Byte :=
  (Memory.lookup s.dbuf a).getD (P.dbufInit s.epoch a)

/-- `MemRead(a, n)` (R71). -/
def memRead (P : Params) (s : State) (a n : Nat) : Octets :=
  (List.range n).map fun i => s.octet P (a + i)

/-- `MemWrite(a, |v|, v)` (R71). -/
def memWrite (s : State) (a : Nat) (v : Octets) : State :=
  { s with dbuf := Memory.writeOctets s.dbuf a v }

/-- One write of a command (R101). -/
def applyWrite (s : State) : Write → State
  | .nonce v => { s with nonce := v }
  | .tag v => { s with tag := v }
  | .gfz v => { s with gfz := v }
  | .cnt v => { s with cnt := v }
  | .blk v => { s with blk := v }
  | .kd v => { s with kd := v }
  | .key v => { s with key := v }
  | .dbuf a v => memWrite s a v

/-- Every write of W (R101). -/
def applyWrites (s : State) (ws : List Write) : State := ws.foldl applyWrite s

/-- The completion step applied to what `Exec` returned: every write of the command and its flags at once (R69, R101),
or the error record alone (R102, R221). -/
def finish (s : State) : Result → State
  | .ok ws a =>
    { applyWrites s ws with
      status := s.status.completedOk a
      irqStatus := s.irqStatus.completedOk }
  | .err c =>
    { s with
      status := s.status.completedErr c
      irqStatus := s.irqStatus.completedErr }

/-- Acceptance of a command word while BUSY = 0 (R100). -/
def acceptCommand (s : State) (w : Word) : State :=
  { s with pcmd := w, status := Status.accepted }

/-- The state after the reset input (R250, R251): every register at its reset value, DBUF unspecified anew.
The world's later events and the model's counters go on (log entries 3 and 6). -/
def resetEngine (s : State) : State :=
  { State.reset with events := s.events, tick := s.tick, epoch := s.epoch + 1 }

end Sys2Proof.Machine
end

