-- ==== Sys2Proof/Machine/Operands.lean ====
section
/-! DEFINITION. The operand forms of the commands: argument words, blocks in registers, the shared checks and the DBUF
regions (R82–R85, R104–R110, R119, R121). -/

namespace Sys2Proof.Machine

/-- An argument word as an unsigned integer (R82, R85). -/
def State.arg (s : State) (i : Fin 8) : Nat := (s.args.get i).toNat

/-- `blk(R) = R[0..bs)` (R108). -/
def blockOf (b : BlockSize) (r : Block) : Octets := slice (octetsOf r) 0 (blockOctets b)

/-- `setblk(R, v)`: octets 0..bs−1 hold v, octets bs..15 become 0 (R109). -/
def setBlock (b : BlockSize) (v : Octets) : Block := ofOctets 128 (v ++ zeros (16 - blockOctets b))

/-- TAG[0..T) ← tag, TAG[T..16) ← 0 (R196). -/
def setTag (v : Octets) (T : Nat) : Block := ofOctets 128 (v ++ zeros (16 - T))

/-- The block size in CTRL.BS, where it is a legal one (R104). -/
def Ctrl.blockSize (c : Ctrl) : Option BlockSize :=
  if c.bs = 0x08#8 then some .b8 else if c.bs = 0x10#8 then some .b16 else none

/-- T before its check: bs where TAGSIZE is 0, else TAGSIZE (R105). -/
def Ctrl.tagOctets (c : Ctrl) (bs : Nat) : Nat := if c.tagsize = 0x00#8 then bs else c.tagsize.toNat

/-- A check line `NAME: condition else Err(code)` (R12); what follows it is only reached when the check passes. -/
def require (cond : Bool) (c : ErrCode) (rest : Unit → Result) : Result := if cond then rest () else .err c

/-- BSCHECK (R104). -/
def withBlockSize (c : Ctrl) (rest : BlockSize → Result) : Result :=
  match c.blockSize with
  | none => .err .invalidBlockSize
  | some b => rest b

/-- TAGCHECK: 4 ≤ T ≤ bs (R105). -/
def withTagSize (c : Ctrl) (b : BlockSize) (rest : Nat → Result) : Result :=
  require (4 ≤ c.tagOctets (blockOctets b) && c.tagOctets (blockOctets b) ≤ blockOctets b) .invalidTagSize
    fun _ => rest (c.tagOctets (blockOctets b))

/-- `inrange(o, l)`, on unbounded integers (R83, R106). -/
def inRange (P : Params) (o l : Nat) : Bool := l == 0 || o + l ≤ P.dbufSize

/-- `overlap((o1, l1), (o2, l2))` (R107). -/
def overlap (o1 l1 o2 l2 : Nat) : Bool := 0 < l1 && 0 < l2 && o1 < o2 + l2 && o2 < o1 + l1

/-- An output region over a data input region at another offset, the overlap that is not an exact alias (R107). -/
def shiftedOverlap (o1 l1 o2 l2 : Nat) : Bool := overlap o1 l1 o2 l2 && o1 != o2

/-- `max_size(bs) = 2^(4·bs) − 1` octets (R110). -/
def maxSize (b : BlockSize) : Nat := 2 ^ (4 * blockOctets b) - 1

/-- `ctr_max(bs) = bs · 2^(4·bs)` octets (R119). -/
def ctrMax (b : BlockSize) : Nat := blockOctets b * 2 ^ (4 * blockOctets b)

end Sys2Proof.Machine
end

