-- ==== Sys2Proof/Machine/Bus.lean ====
section
/-! DEFINITION. The MMIO window: the register map, host reads and writes, the write set of a pending command, bus
errors (R22–R41, R46, R60–R67, R223, R256–R258). -/

namespace Sys2Proof.Machine

/-- The first offset of the DBUF window (R60). -/
def dbufBase : Nat := 0x1000

/-- The word at a 4-aligned register offset below 0x1000 (R22, R40). -/
def registerAt (offset : Nat) : Loc :=
  if offset < 0x020 then
    match offset / 4 with
    | 0 => .id
    | 1 => .ctrl
    | 2 => .cmd
    | 3 => .status
    | 4 => .irqStatus
    | 5 => .irqEnable
    | 6 => .cap
    | _ => .reserved
  else if offset < 0x040 then .arg (Fin.ofNat 8 ((offset - 0x020) / 4))
  else if offset < 0x060 then .key (Fin.ofNat 8 ((offset - 0x040) / 4))
  else if offset < 0x070 then .nonce (Fin.ofNat 4 ((offset - 0x060) / 4))
  else if offset < 0x080 then .tag (Fin.ofNat 4 ((offset - 0x070) / 4))
  else if offset < 0x090 then .tagin (Fin.ofNat 4 ((offset - 0x080) / 4))
  else if offset < 0x0A0 then .gfa (Fin.ofNat 4 ((offset - 0x090) / 4))
  else if offset < 0x0B0 then .gfb (Fin.ofNat 4 ((offset - 0x0A0) / 4))
  else if offset < 0x0C0 then .gfz (Fin.ofNat 4 ((offset - 0x0B0) / 4))
  else if offset < 0x0D0 then .cnt (Fin.ofNat 4 ((offset - 0x0C0) / 4))
  else if offset < 0x0E0 then .blk (Fin.ofNat 4 ((offset - 0x0D0) / 4))
  else if offset < 0x100 then .kd (Fin.ofNat 8 ((offset - 0x0E0) / 4))
  else .reserved

/-- The word of the window at a 4-aligned offset inside it (R22, R63). -/
def locate (offset : Nat) : Loc :=
  if offset < dbufBase then registerAt offset else .dbuf (offset - dbufBase)

/-- The offset is inside the window (R60, R64). -/
def insideWindow (P : Params) (offset : Nat) : Bool := offset < dbufBase + P.dbufSize

/-- The only accesses the window accepts: 32 bits wide at a multiple of 4 (R61). -/
def wordAccess (width offset : Nat) : Bool := width == 32 && offset % 4 == 0

/-- The DBUF word at offset `a`, octet a in bits [31:24] (R63). -/
def dbufWord (P : Params) (s : State) (a : Nat) : Word := ofOctets 32 (memRead P s a 4)

/-- The current value of a word as the host sees it: write-only and reserved words read 0 (R22–R41). -/
def currentWord (P : Params) (s : State) : Loc → Word
  | .id => Config.idValue
  | .ctrl => s.ctrl.toWord
  | .cmd => 0#32
  | .status => s.status.toWord
  | .irqStatus => s.irqStatus.toWord
  | .irqEnable => s.irqEnable.toWord
  | .cap => BitVec.ofNat 32 P.dbufSize
  | .reserved => 0#32
  | .arg i => s.args.get i
  | .key _ => 0#32
  | .nonce k => wordOf s.nonce k
  | .tag k => wordOf s.tag k
  | .tagin k => wordOf s.tagin k
  | .gfa k => wordOf s.gfa k
  | .gfb k => wordOf s.gfb k
  | .gfz k => wordOf s.gfz k
  | .cnt k => wordOf s.cnt k
  | .blk k => wordOf s.blk k
  | .kd i => wordOf s.kd i
  | .dbuf a => dbufWord P s a

/-- The words whose host writes are ignored, with WIGN set, while BUSY = 1 (R256, R257). -/
def lockedWhileBusy : Loc → Bool
  | .ctrl => true
  | .cmd => true
  | .arg _ => true
  | .key _ => true
  | .nonce _ => true
  | .tag _ => true
  | .tagin _ => true
  | .gfa _ => true
  | .gfb _ => true
  | .gfz _ => true
  | .cnt _ => true
  | .blk _ => true
  | .dbuf _ => true
  | .id => false
  | .status => false
  | .irqStatus => false
  | .irqEnable => false
  | .cap => false
  | .reserved => false
  | .kd _ => false

/-- A host write that is not ignored for BUSY; writes to RO words and reserved offsets are ignored (R22–R41, R66). -/
def storeWord (s : State) (loc : Loc) (w : Word) : State :=
  match loc with
  | .ctrl => { s with ctrl := Ctrl.ofWord w }
  | .cmd => acceptCommand s w
  | .irqStatus => { s with irqStatus := s.irqStatus.clear w }
  | .irqEnable => { s with irqEnable := IrqEnable.ofWord w }
  | .arg i => { s with args := s.args.set i.val w i.isLt }
  | .key i => { s with key := setWordOf s.key i w }
  | .nonce k => { s with nonce := setWordOf s.nonce k w }
  | .tag k => { s with tag := setWordOf s.tag k w }
  | .tagin k => { s with tagin := setWordOf s.tagin k w }
  | .gfa k => { s with gfa := setWordOf s.gfa k w }
  | .gfb k => { s with gfb := setWordOf s.gfb k w }
  | .gfz k => { s with gfz := setWordOf s.gfz k w }
  | .cnt k => { s with cnt := setWordOf s.cnt k w }
  | .blk k => { s with blk := setWordOf s.blk k w }
  | .dbuf a => memWrite s a (octetsOf w)
  | .id => s
  | .status => s
  | .cap => s
  | .reserved => s
  | .kd _ => s

/-- A host write of a word (R63, R66, R100, R256, R257). -/
def hostWrite (s : State) (loc : Loc) (w : Word) : State :=
  if s.status.busy && lockedWhileBusy loc then { s with status := { s.status with wign := true } }
  else storeWord s loc w

/-- The DBUF word at `a` shares an octet with the region (o, l). -/
def wordInRegion (a o l : Nat) : Bool := overlap a 4 o l

/-- The words of the write set of a command, with the ARG and CTRL values of the state (R46, R258).
STATUS.AUTH_OK is left to STATUS, whose reads while BUSY R258 defines.
T is taken before its check, since R258 applies to commands whose checks will fail (log entry 5). -/
def writeSet (i : Instr) (s : State) (loc : Loc) : Bool :=
  match i with
  | .nop => false
  | .tagcmp => false
  | .noncePrep => match loc with | .nonce _ => true | _ => false
  | .incrL => match loc with | .cnt _ => true | _ => false
  | .incrR => match loc with | .cnt _ => true | _ => false
  | .encblk => match loc with | .blk _ => true | _ => false
  | .gfmul64 => match loc with | .gfz _ => true | _ => false
  | .gfmac64 => match loc with | .gfz _ => true | _ => false
  | .gfmul128 => match loc with | .gfz _ => true | _ => false
  | .gfmac128 => match loc with | .gfz _ => true | _ => false
  | .mgmSeal =>
    match loc with
    | .tag _ => true
    | .dbuf a => wordInRegion a (s.arg 4) (s.arg 3 + s.ctrl.tagOctets s.ctrl.bs.toNat)
    | _ => false
  | .mgmOpen =>
    match loc with
    | .dbuf a => wordInRegion a (s.arg 4) (s.arg 3 - s.ctrl.tagOctets s.ctrl.bs.toNat)
    | _ => false
  | .acpkmDerive => match loc with | .kd _ => true | _ => false
  | .acpkmDeriveLoad => match loc with | .kd _ => true | .key _ => true | _ => false
  | .ctrAcpkm => match loc with | .dbuf a => wordInRegion a (s.arg 2) (s.arg 1) | _ => false
  | .acpkmMaster => match loc with | .dbuf a => wordInRegion a (s.arg 2) (s.arg 1) | _ => false

/-- The write-only words, which read 0 whatever they hold (R25, R31). -/
def writeOnly : Loc → Bool
  | .cmd => true
  | .key _ => true
  | .id => false
  | .ctrl => false
  | .status => false
  | .irqStatus => false
  | .irqEnable => false
  | .cap => false
  | .reserved => false
  | .arg _ => false
  | .nonce _ => false
  | .tag _ => false
  | .tagin _ => false
  | .gfa _ => false
  | .gfb _ => false
  | .gfz _ => false
  | .cnt _ => false
  | .blk _ => false
  | .kd _ => false
  | .dbuf _ => false

/-- A read of the word races with the running command (R258); an illegal word has no write set (R86).
What a race leaves open is the content of the word, and a write-only word reads 0 whatever its content is
(R31; log entry 5). -/
def readRaces (s : State) (loc : Loc) : Bool :=
  s.status.busy && !writeOnly loc &&
    match decode s.pcmd with
    | .ok i => writeSet i s loc
    | .error _ => false

/-- A host read of a word: its current value, or, in a race, an unspecified one (R65, R258). -/
def hostRead (P : Params) (s : State) (loc : Loc) : State :=
  if readRaces s loc then { s with reply := .data (P.raceWord s.tick), tick := s.tick + 1 }
  else { s with reply := .data (currentWord P s loc) }

/-- The octet offset of an access. -/
def accessOffset : Access → Nat
  | .read _ offset => offset
  | .write _ offset _ => offset

/-- The width of an access in bits. -/
def accessWidth : Access → Nat
  | .read width _ => width
  | .write width _ _ => width

/-- The access as the window's registers see it, once it is known to be a word access inside the window. -/
def applyAccess (P : Params) (s : State) : Access → State
  | .read _ offset => hostRead P s (locate offset)
  | .write _ offset w => { hostWrite s (locate offset) w with reply := .ack }

/-- One host access, served as a whole before the next (R61, R64, R67, R68, R223).
Outside the window the engine does not respond; inside it, an access of another shape is a bus error, read data 0. -/
def serve (P : Params) (s : State) (a : Access) : Host.Outcome State Fault Refusal :=
  if !insideWindow P (accessOffset a) then .fault (.outsideWindow (accessOffset a))
  else if !wordAccess (accessWidth a) (accessOffset a) then .fault (.busError (accessOffset a) 0#32)
  else .next (applyAccess P s a)

end Sys2Proof.Machine
end

