-- ==== Sys2Proof/Machine/Cipher.lean ====
section
/-! DEFINITION. The BC port, the engine's way to the external block cipher (R3, R118). -/

namespace Sys2Proof.Machine

/-- `BC(k, x)`: BC8 on 8-octet blocks, BC16 on 16-octet blocks; total, deterministic, without state (R118). -/
def bc (P : Params) (b : BlockSize) (k : Key) (x : Octets) : Octets :=
  match b with
  | .b8 => octetsOf (P.bc8 k (ofOctets 64 x))
  | .b16 => octetsOf (P.bc16 k (ofOctets 128 x))

end Sys2Proof.Machine
end

