-- ==== Sys2Proof/Machine/Acpkm.lean ====
section
/-! DEFINITION. The ACPKM key-derivation pipeline: ACPKM_DERIVE, ACPKM_DERIVE_LOAD, CTR_ACPKM, ACPKM_MASTER (R150–R156). -/

namespace Sys2Proof.Machine

/-- The j-th block of the constant schedule: octet i is 0x80 + bs·j + i (R150). -/
def acpkmBlock (b : BlockSize) (j : Nat) : Octets :=
  (List.range (blockOctets b)).map fun i => BitVec.ofNat 8 (Config.acpkmStart + blockOctets b * j + i)

/-- `acpkm_derive(k, bs)` as octets: KEYSIZE/bs cipher blocks under the current key (R150). -/
def acpkmDeriveOctets (P : Params) (b : BlockSize) (k : Key) : Octets :=
  (List.range (Config.keySize / blockOctets b)).flatMap fun j => bc P b k (acpkmBlock b j)

/-- `acpkm_derive(k, bs)` as a key (R150). -/
def acpkmDerive (P : Params) (b : BlockSize) (k : Key) : Key := ofOctets 256 (acpkmDeriveOctets P b k)

/-- The loop of `ctr_acpkm` from block i on, under the current section key `k`, with p blocks a section (R151). -/
def ctrAcpkmLoop (P : Params) (b : BlockSize) (p : Nat) (iv : Octets) : Nat → Key → List Octets → Octets
  | _, _, [] => []
  | i, k, c :: cs =>
    xorOctets c (bc P b (if 0 < i && i % p == 0 then acpkmDerive P b k else k) (iv ++ toBe i (halfOctets b))) ++
      ctrAcpkmLoop P b p iv (i + 1) (if 0 < i && i % p == 0 then acpkmDerive P b k else k) cs

/-- `ctr_acpkm(k0, iv, N, data, bs)` (R151). -/
def ctrAcpkm (P : Params) (b : BlockSize) (k0 : Key) (iv : Octets) (N : Nat) (data : Octets) : Octets :=
  ctrAcpkmLoop P b (N / blockOctets b) iv 0 k0 (chunks b data)

/-- `acpkm_master(k, T*, L, bs)`: CTR-ACPKM of L zero octets under the all-ones IV (R152). -/
def acpkmMaster (P : Params) (b : BlockSize) (k : Key) (tstar L : Nat) : Octets :=
  ctrAcpkm P b k (List.replicate (halfOctets b) 0xFF#8) tstar (zeros L)

/-- ACPKM_DERIVE (R153). -/
def acpkmDeriveResult (P : Params) (s : State) : Result :=
  withBlockSize s.ctrl fun b => .ok [.kd (acpkmDerive P b s.key)] false

/-- ACPKM_DERIVE_LOAD: the key is derived wholly under the old KEY (R154). -/
def acpkmDeriveLoadResult (P : Params) (s : State) : Result :=
  withBlockSize s.ctrl fun b => .ok [.kd (acpkmDerive P b s.key), .key (acpkmDerive P b s.key)] false

/-- CTR_ACPKM: ARG0 = IN_OFF, ARG1 = LEN, ARG2 = OUT_OFF, ARG3 = N, IV = NONCE[0..h) (R155). -/
def ctrAcpkmResult (P : Params) (s : State) : Result :=
  withBlockSize s.ctrl fun b =>
    require (1 ≤ s.arg 3 && s.arg 3 % blockOctets b == 0 && s.arg 1 ≤ ctrMax b) .size fun _ =>
    require (inRange P (s.arg 0) (s.arg 1) && inRange P (s.arg 2) (s.arg 1)) .range fun _ =>
    require (!shiftedOverlap (s.arg 2) (s.arg 1) (s.arg 0) (s.arg 1)) .overlap fun _ =>
    .ok [.dbuf (s.arg 2) (ctrAcpkm P b s.key (slice (octetsOf s.nonce) 0 (halfOctets b)) (s.arg 3)
      (memRead P s (s.arg 0) (s.arg 1)))] false

/-- ACPKM_MASTER: ARG1 = L, ARG2 = OUT_OFF, ARG3 = T* (R156). -/
def acpkmMasterResult (P : Params) (s : State) : Result :=
  withBlockSize s.ctrl fun b =>
    require (1 ≤ s.arg 3 && s.arg 3 % blockOctets b == 0 && s.arg 1 ≤ ctrMax b) .size fun _ =>
    require (inRange P (s.arg 2) (s.arg 1)) .range fun _ =>
    .ok [.dbuf (s.arg 2) (acpkmMaster P b s.key (s.arg 3) (s.arg 1))] false

/-- The meaning of ACPKM_DERIVE. -/
def execAcpkmDerive (s : State) : Host.Outcome State Fault Refusal :=
  .next (finish s (acpkmDeriveResult Config.engine s))

/-- The meaning of ACPKM_DERIVE_LOAD. -/
def execAcpkmDeriveLoad (s : State) : Host.Outcome State Fault Refusal :=
  .next (finish s (acpkmDeriveLoadResult Config.engine s))

/-- The meaning of CTR_ACPKM. -/
def execCtrAcpkm (s : State) : Host.Outcome State Fault Refusal :=
  .next (finish s (ctrAcpkmResult Config.engine s))

/-- The meaning of ACPKM_MASTER. -/
def execAcpkmMaster (s : State) : Host.Outcome State Fault Refusal :=
  .next (finish s (acpkmMasterResult Config.engine s))

end Sys2Proof.Machine
end

