-- ==== Sys2Proof/Machine/Field.lean ====
section
/-! DEFINITION. Multiplication in GF(2^64) and GF(2^128) (R170, R171). -/

namespace Sys2Proof.Machine

/-- The update of x in one iteration: multiply by t and reduce by r where the top bit is set (R171). -/
def gfShift {n : Nat} (r x : BitVec n) : BitVec n :=
  if x.msb then ((x &&& BitVec.ofNat n (2 ^ (n - 1) - 1)) <<< 1) ^^^ r else x <<< 1

/-- One iteration on the pair (x, z) for bit i of y (R171). -/
def gfStep {n : Nat} (r y : BitVec n) (xz : BitVec n × BitVec n) (i : Nat) : BitVec n × BitVec n :=
  (gfShift r xz.1, if y.getLsbD i then xz.2 ^^^ xz.1 else xz.2)

/-- `gfmul_n` on n-bit integers: bits of y from the least significant one upward (R171). -/
def gfmul {n : Nat} (r x y : BitVec n) : BitVec n :=
  ((List.range n).foldl (gfStep r y) (x, 0#n)).2

/-- The product in GF(2^64), r = 0x1B (R6, R170). -/
def gfmul64 (x y : BitVec 64) : BitVec 64 := gfmul 0x1B#64 x y

/-- The product in GF(2^128), r = 0x87 (R6, R170). -/
def gfmul128 (x y : BitVec 128) : BitVec 128 := gfmul 0x87#128 x y

/-- `gfmul_(8·bs)` on octet strings of bs octets (R171, R193). -/
def gfmulOctets (b : BlockSize) (x y : Octets) : Octets :=
  match b with
  | .b8 => octetsOf (gfmul64 (ofOctets 64 x) (ofOctets 64 y))
  | .b16 => octetsOf (gfmul128 (ofOctets 128 x) (ofOctets 128 y))

end Sys2Proof.Machine
end

