-- ==== Sys2Proof/Machine/Mgm.lean ====
section
/-! DEFINITION. The MGM authenticated-encryption engine: MGM_SEAL, MGM_OPEN (R190–R197). -/

namespace Sys2Proof.Machine

/-- Y_0, the nonce-derived encryption counter, encrypted once (R190). -/
def mgmY0 (P : Params) (b : BlockSize) (k : Key) (nonce : Octets) : Octets := bc P b k (msbClear nonce)

/-- Z_0, the nonce-derived authentication counter, encrypted once (R190). -/
def mgmZ0 (P : Params) (b : BlockSize) (k : Key) (nonce : Octets) : Octets := bc P b k (msbSet nonce)

/-- The keystream loop over the chunks, from the register value `y` on (R191, R192). -/
def mgmCryptLoop (P : Params) (b : BlockSize) (k : Key) : Octets → List Octets → Octets
  | _, [] => []
  | y, c :: cs => xorOctets c (bc P b k y) ++ mgmCryptLoop P b k (incrRight b y) cs

/-- `mgm_crypt(K, nonce, data)` (R192). -/
def mgmCrypt (P : Params) (b : BlockSize) (k : Key) (nonce data : Octets) : Octets :=
  mgmCryptLoop P b k (mgmY0 P b k nonce) (chunks b data)

/-- The accumulator loop over the blocks to authenticate, from the register value `z` and the sum so far (R191, R193). -/
def mgmSumLoop (P : Params) (b : BlockSize) (k : Key) : Octets → Octets → List Octets → Octets
  | _, sum, [] => sum
  | z, sum, c :: cs =>
    mgmSumLoop P b k (incrLeft b z) (xorOctets sum (gfmulOctets b (bc P b k z) c)) cs

/-- `LEN(a, c)`: the two bit lengths, each in a half block (R194). -/
def mgmLength (b : BlockSize) (a c : Nat) : Octets :=
  toBe (8 * a) (halfOctets b) ++ toBe (8 * c) (halfOctets b)

/-- The blocks authenticated: the padded chunks of AD, those of the ciphertext, the length block (R193). -/
def mgmBlocks (b : BlockSize) (ad ct : Octets) : List Octets :=
  (chunks b ad ++ chunks b ct).map (pad1 b) ++ [mgmLength b ad.length ct.length]

/-- `mgm_sum(K, nonce, ad, ct)` (R193). -/
def mgmSum (P : Params) (b : BlockSize) (k : Key) (nonce ad ct : Octets) : Octets :=
  mgmSumLoop P b k (mgmZ0 P b k nonce) (zeros (blockOctets b)) (mgmBlocks b ad ct)

/-- `mgm_tag(K, nonce, ad, ct, T)` (R195). -/
def mgmTag (P : Params) (b : BlockSize) (k : Key) (nonce ad ct : Octets) (T : Nat) : Octets :=
  slice (bc P b k (mgmSum P b k nonce ad ct)) 0 T

/-- MGM_SEAL: ARG0 = AD_OFF, ARG1 = AD_LEN, ARG2 = PT_OFF, ARG3 = PT_LEN, ARG4 = OUT_OFF (R196). -/
def mgmSealResult (P : Params) (s : State) : Result :=
  withBlockSize s.ctrl fun b => withTagSize s.ctrl b fun T =>
    require (1 ≤ s.arg 1 + s.arg 3 && s.arg 1 + s.arg 3 ≤ maxSize b) .size fun _ =>
    require (inRange P (s.arg 0) (s.arg 1) && inRange P (s.arg 2) (s.arg 3) && inRange P (s.arg 4) (s.arg 3 + T)) .range fun _ =>
    require (!overlap (s.arg 4) (s.arg 3 + T) (s.arg 0) (s.arg 1) &&
      !shiftedOverlap (s.arg 4) (s.arg 3 + T) (s.arg 2) (s.arg 3)) .overlap fun _ =>
    let nonce := blockOf b s.nonce
    let ad := memRead P s (s.arg 0) (s.arg 1)
    let ct := mgmCrypt P b s.key nonce (memRead P s (s.arg 2) (s.arg 3))
    let tag := mgmTag P b s.key nonce ad ct T
    .ok [.dbuf (s.arg 4) (ct ++ tag), .tag (setTag tag T)] false

/-- MGM_OPEN: ARG0 = AD_OFF, ARG1 = AD_LEN, ARG2 = IN_OFF, ARG3 = IN_LEN, ARG4 = OUT_OFF (R197).
The body has B = IN_LEN − T octets, where the first SIZE check has made IN_LEN ≥ T. -/
def mgmOpenResult (P : Params) (s : State) : Result :=
  withBlockSize s.ctrl fun b => withTagSize s.ctrl b fun T =>
    require (T ≤ s.arg 3) .size fun _ =>
    let B := s.arg 3 - T
    require (1 ≤ s.arg 1 + B && s.arg 1 + B ≤ maxSize b) .size fun _ =>
    require (inRange P (s.arg 0) (s.arg 1) && inRange P (s.arg 2) (s.arg 3) && inRange P (s.arg 4) B) .range fun _ =>
    require (!overlap (s.arg 4) B (s.arg 0) (s.arg 1) && !shiftedOverlap (s.arg 4) B (s.arg 2) (s.arg 3)) .overlap fun _ =>
    let nonce := blockOf b s.nonce
    let ad := memRead P s (s.arg 0) (s.arg 1)
    let ct := memRead P s (s.arg 2) B
    let rtag := memRead P s (s.arg 2 + B) T
    require (ctEqual (mgmTag P b s.key nonce ad ct T) rtag T) .authFail fun _ =>
    .ok [.dbuf (s.arg 4) (mgmCrypt P b s.key nonce ct)] true

/-- The meaning of MGM_SEAL. -/
def execMgmSeal (s : State) : Host.Outcome State Fault Refusal := .next (finish s (mgmSealResult Config.engine s))

/-- The meaning of MGM_OPEN. -/
def execMgmOpen (s : State) : Host.Outcome State Fault Refusal := .next (finish s (mgmOpenResult Config.engine s))

end Sys2Proof.Machine
end

