-- ==== Sys2Proof/Machine/Multiplier.lean ====
section
/-! DEFINITION. The multiplier commands GFMUL64, GFMAC64, GFMUL128, GFMAC128 (R173–R176). None reads CTRL. -/

namespace Sys2Proof.Machine

/-- GFA ⊗ GFB over the first bs octets of the two registers (R173–R176). -/
def gfProduct (b : BlockSize) (s : State) : Octets := gfmulOctets b (blockOf b s.gfa) (blockOf b s.gfb)

/-- GFMUL: GFZ becomes the product; the 64-bit variant clears octets 8..15 (R173, R175). -/
def gfmulResult (b : BlockSize) (s : State) : Result := .ok [.gfz (setBlock b (gfProduct b s))] false

/-- GFMAC: the product is added into GFZ; the 64-bit variant clears octets 8..15 (R174, R176). -/
def gfmacResult (b : BlockSize) (s : State) : Result :=
  .ok [.gfz (setBlock b (xorOctets (blockOf b s.gfz) (gfProduct b s)))] false

/-- The meaning of GFMUL64. -/
def execGfmul64 (s : State) : Host.Outcome State Fault Refusal := .next (finish s (gfmulResult .b8 s))

/-- The meaning of GFMAC64. -/
def execGfmac64 (s : State) : Host.Outcome State Fault Refusal := .next (finish s (gfmacResult .b8 s))

/-- The meaning of GFMUL128. -/
def execGfmul128 (s : State) : Host.Outcome State Fault Refusal := .next (finish s (gfmulResult .b16 s))

/-- The meaning of GFMAC128. -/
def execGfmac128 (s : State) : Host.Outcome State Fault Refusal := .next (finish s (gfmacResult .b16 s))

end Sys2Proof.Machine
end

