-- ==== Sys2Proof/Machine/Utility.lean ====
section
/-! DEFINITION. The utility commands NOP, NONCE_PREP, INCR_L, INCR_R, ENCBLK, TAGCMP (R130–R135). -/

namespace Sys2Proof.Machine

/-- NOP reads and writes nothing (R130). -/
def nopResult : Result := .ok [] false

/-- NONCE_PREP clears bit 7 of NONCE[0], whatever CTRL holds (R131). -/
def noncePrepResult (s : State) : Result := .ok [.nonce (ofOctets 128 (msbClear (octetsOf s.nonce)))] false

/-- INCR_L (R132). -/
def incrLResult (s : State) : Result :=
  withBlockSize s.ctrl fun b => .ok [.cnt (setBlock b (incrLeft b (blockOf b s.cnt)))] false

/-- INCR_R (R133). -/
def incrRResult (s : State) : Result :=
  withBlockSize s.ctrl fun b => .ok [.cnt (setBlock b (incrRight b (blockOf b s.cnt)))] false

/-- ENCBLK (R134). -/
def encblkResult (P : Params) (s : State) : Result :=
  withBlockSize s.ctrl fun b => .ok [.blk (setBlock b (bc P b s.key (blockOf b s.blk)))] false

/-- TAGCMP (R135). -/
def tagcmpResult (s : State) : Result :=
  withBlockSize s.ctrl fun b => withTagSize s.ctrl b fun T =>
    require (ctEqual (octetsOf s.tag) (octetsOf s.tagin) T) .authFail fun _ => .ok [] true

/-- The meaning of NOP. -/
def execNop (s : State) : Host.Outcome State Fault Refusal := .next (finish s nopResult)

/-- The meaning of NONCE_PREP. -/
def execNoncePrep (s : State) : Host.Outcome State Fault Refusal := .next (finish s (noncePrepResult s))

/-- The meaning of INCR_L. -/
def execIncrL (s : State) : Host.Outcome State Fault Refusal := .next (finish s (incrLResult s))

/-- The meaning of INCR_R. -/
def execIncrR (s : State) : Host.Outcome State Fault Refusal := .next (finish s (incrRResult s))

/-- The meaning of ENCBLK. -/
def execEncblk (s : State) : Host.Outcome State Fault Refusal := .next (finish s (encblkResult Config.engine s))

/-- The meaning of TAGCMP. -/
def execTagcmp (s : State) : Host.Outcome State Fault Refusal := .next (finish s (tagcmpResult s))

end Sys2Proof.Machine
end

