-- ==== Sys2Proof/Machine/Dispatch.lean ====
section
/-! DEFINITION. The effect of a command at its completion step (R103). -/

namespace Sys2Proof.Machine

def exec (i : Instr) (s : State) : Host.Outcome State Fault Refusal :=
  match i with
  | .nop => Sys2Proof.Machine.execNop s
  | .gfmul64 => Sys2Proof.Machine.execGfmul64 s
  | .gfmac64 => Sys2Proof.Machine.execGfmac64 s
  | .gfmul128 => Sys2Proof.Machine.execGfmul128 s
  | .gfmac128 => Sys2Proof.Machine.execGfmac128 s
  | .incrL => Sys2Proof.Machine.execIncrL s
  | .incrR => Sys2Proof.Machine.execIncrR s
  | .noncePrep => Sys2Proof.Machine.execNoncePrep s
  | .encblk => Sys2Proof.Machine.execEncblk s
  | .tagcmp => Sys2Proof.Machine.execTagcmp s
  | .mgmSeal => Sys2Proof.Machine.execMgmSeal s
  | .mgmOpen => Sys2Proof.Machine.execMgmOpen s
  | .acpkmDerive => Sys2Proof.Machine.execAcpkmDerive s
  | .acpkmDeriveLoad => Sys2Proof.Machine.execAcpkmDeriveLoad s
  | .ctrAcpkm => Sys2Proof.Machine.execCtrAcpkm s
  | .acpkmMaster => Sys2Proof.Machine.execAcpkmMaster s

end Sys2Proof.Machine
end

