-- ==== Sys2Proof/Machine/Lifecycle.lean ====
section
/-! DEFINITION. The events of one step: a host access, the completion step, both at once, reset (R68, R100, R101, R103,
R227, R250; log entries 6 and 8). -/

namespace Sys2Proof.Machine

/-- The engine's own step, enabled exactly when BUSY = 1: the latched word is decoded and its command completes, an
illegal word with ILLEGAL_CMD; where it is not enabled nothing happens (R86, R101, R103). -/
def complete (s : State) : Host.Outcome State Fault Refusal :=
  if s.status.busy then
    match decode s.pcmd with
    | .ok i => exec i s
    | .error _ => .next (finish s (.err .illegalCmd))
  else .next s

/-- A host access and, where a command was already running, its completion after it in the same step (R27, R227). -/
def serveAndComplete (s : State) (a : Access) : Host.Outcome State Fault Refusal :=
  if s.status.busy then
    match serve Config.engine s a with
    | .next t => complete t
    | .fault f => .fault f
    | .refused r => .refused r
  else serve Config.engine s a

/-- One event of the outside world or of the schedule. -/
def handle (s : State) : Event → Host.Outcome State Fault Refusal
  | .access a => serve Config.engine s a
  | .completion => complete s
  | .accessWithCompletion a => serveAndComplete s a
  | .reset => .next (resetEngine s)

/-- One step: the oldest event still to come.
Where the host makes no more steps, a running command completes (R260) and an idle engine waits (R234). -/
def runNext (s : State) : Host.Outcome State Fault Refusal :=
  match s.events with
  | [] => complete { s with reply := .none }
  | e :: rest => handle { s with events := rest, reply := .none } e

/-- The state in which the word has been accepted (R100) and the very next step is its completion. -/
def acceptedAndDue (s : State) (w : Word) : State :=
  { acceptCommand s w with events := .completion :: s.events }

end Sys2Proof.Machine
end

