-- ==== Sys2Proof/Machine/Step.lean ====
section
/-! DEFINITION. One step of the machine, and the word it runs next. -/

namespace Sys2Proof.Machine

/-- One step of the engine and its outside world (R68, R101, R250). -/
def step (s : State) : Host.Outcome State Fault Refusal := runNext s

/-- The state whose very next step runs the command word: the host's CMD write has just been accepted (log entry 6). -/
def State.withFetchWord (s : State) (nbits w : Nat) : State :=
  acceptedAndDue s (BitVec.ofNat 32 (w % 2 ^ nbits))

end Sys2Proof.Machine
end

