-- ==== Sys2Proof/Safety.lean ====
section
/-! DEFINITION. The terms claims use: successful and failed completions, the invariant, what a safe run is, the closed
forms of the keystreams and the section keys. -/

namespace Sys2Proof.Machine

/-! ### Completions -/

/-- A successful completion with AUTH_OK value `a` and no other write (R101). -/
def State.succeed (s : State) (a : Bool) : State :=
  { s with
    status := { s.status with authOk := a, busy := false, done := true }
    irqStatus := { s.irqStatus with cmpl := true } }

/-- A completion with error code `c`: ERR, ERRCODE, DONE, CMPL and ERRI are set, BUSY and AUTH_OK cleared, nothing else
changes (R101, R102, R221). -/
def State.fail (s : State) (c : BitVec 4) : State :=
  { s with
    status := { busy := false, done := true, err := true, authOk := false, wign := s.status.wign, errcode := c }
    irqStatus := { cmpl := true, erri := true } }

/-! ### Settings of CTRL -/

/-- CTRL.BS holds the legal block size `b` (R104). -/
def State.hasBlockSize (s : State) (b : BlockSize) : Prop := s.ctrl.bs.toNat = blockOctets b

/-- CTRL selects the effective tag size `T`, and it is a legal one (R105). -/
def State.hasTagSize (s : State) (b : BlockSize) (T : Nat) : Prop :=
  T = (if s.ctrl.tagsize = 0x00#8 then blockOctets b else s.ctrl.tagsize.toNat) ∧ 4 ≤ T ∧ T ≤ blockOctets b

/-! ### Regions, in plain arithmetic (R106, R107) -/

/-- The region is inside a DBUF of `n` octets (R106). -/
def regionFits (n o l : Nat) : Prop := l = 0 ∨ o + l ≤ n

/-- The regions share no octet (R107). -/
def regionsApart (o1 l1 o2 l2 : Nat) : Prop := l1 = 0 ∨ l2 = 0 ∨ o1 + l1 ≤ o2 ∨ o2 + l2 ≤ o1

/-! ### Closed forms of the keystreams -/

/-- The m-th section key, k_0 the original one (R151). -/
def sectionKey (P : Params) (b : BlockSize) (k : Key) (m : Nat) : Key := (acpkmDerive P b)^[m] k

/-- Octet j of the CTR-ACPKM keystream with section size N: block j/bs under section key j/bs/(N/bs) (R151). -/
def ctrKeystreamOctet (P : Params) (b : BlockSize) (k : Key) (iv : Octets) (N j : Nat) : Byte :=
  (bc P b (sectionKey P b k (j / blockOctets b / (N / blockOctets b)))
    (iv ++ toBe (j / blockOctets b) (halfOctets b))).getD (j % blockOctets b) 0#8

/-- Octet j of the MGM keystream: block j/bs is BC(K, Y_(j/bs)) (R190–R192). -/
def mgmKeystreamOctet (P : Params) (b : BlockSize) (k : Key) (nonce : Octets) (j : Nat) : Byte :=
  (bc P b k ((incrRight b)^[j / blockOctets b] (bc P b k (msbClear nonce)))).getD (j % blockOctets b) 0#8

/-! ### Write sets, by octet of the window -/

/-- The octet at window offset `x` belongs to the write set of the command, with the ARG and CTRL values of the state
(the register and DBUF writes of R46, at the offsets of R22).
T is taken before its check, since R258 applies to commands whose checks will fail (log entry 5). -/
def writesAt (i : Instr) (s : State) (x : Nat) : Prop :=
  match i with
  | .nop => False
  | .tagcmp => False
  | .noncePrep => 0x060 ≤ x ∧ x < 0x070
  | .incrL => 0x0C0 ≤ x ∧ x < 0x0D0
  | .incrR => 0x0C0 ≤ x ∧ x < 0x0D0
  | .encblk => 0x0D0 ≤ x ∧ x < 0x0E0
  | .gfmul64 => 0x0B0 ≤ x ∧ x < 0x0C0
  | .gfmac64 => 0x0B0 ≤ x ∧ x < 0x0C0
  | .gfmul128 => 0x0B0 ≤ x ∧ x < 0x0C0
  | .gfmac128 => 0x0B0 ≤ x ∧ x < 0x0C0
  | .mgmSeal =>
    (0x070 ≤ x ∧ x < 0x080) ∨
      (0x1000 + s.arg 4 ≤ x ∧ x < 0x1000 + s.arg 4 + (s.arg 3 + s.ctrl.tagOctets s.ctrl.bs.toNat))
  | .mgmOpen => 0x1000 + s.arg 4 ≤ x ∧ x < 0x1000 + s.arg 4 + (s.arg 3 - s.ctrl.tagOctets s.ctrl.bs.toNat)
  | .acpkmDerive => 0x0E0 ≤ x ∧ x < 0x100
  | .acpkmDeriveLoad => (0x0E0 ≤ x ∧ x < 0x100) ∨ (0x040 ≤ x ∧ x < 0x060)
  | .ctrAcpkm => 0x1000 + s.arg 2 ≤ x ∧ x < 0x1000 + s.arg 2 + s.arg 1
  | .acpkmMaster => 0x1000 + s.arg 2 ≤ x ∧ x < 0x1000 + s.arg 2 + s.arg 1

/-- Some octet of the word at `offset` belongs to the write set (R258). -/
def wordWritten (i : Instr) (s : State) (offset : Nat) : Prop :=
  ∃ x, offset ≤ x ∧ x < offset + 4 ∧ writesAt i s x

/-! ### The invariant -/

/-- The flags agree with one another: nothing is reported while BUSY (R26), ERR and ERRCODE say the same and no code
beyond 7 occurs (R220), an error or an AUTH_OK goes with DONE and the two exclude each other (R101, R221). -/
def Status.coherent (t : Status) : Prop :=
  (t.busy = true → t.done = false ∧ t.err = false ∧ t.authOk = false ∧ t.errcode = 0#4) ∧
  (t.err = true ↔ t.errcode ≠ 0#4) ∧ t.errcode.toNat ≤ 7 ∧
  (t.err = true → t.done = true ∧ t.authOk = false) ∧ (t.authOk = true → t.done = true)

/-- What every step keeps: DBUF in canonical form and within its size, and coherent flags. -/
def State.Inv (P : Params) (s : State) : Prop :=
  Memory.wf s.dbuf ∧ (∀ c ∈ s.dbuf, c.1 < P.dbufSize) ∧ s.status.coherent

/-! ### Safe runs -/

/-- The host access is one the window accepts (R61, R64). -/
def accessLegal (P : Params) (a : Access) : Prop :=
  accessWidth a = 32 ∧ accessOffset a % 4 = 0 ∧ accessOffset a < 0x1000 + P.dbufSize

/-- The event holds no access that the window does not accept. -/
def eventLegal (P : Params) : Event → Prop
  | .access a => accessLegal P a
  | .accessWithCompletion a => accessLegal P a
  | .completion => True
  | .reset => True

/-- A run of `n` steps is safe when it ends in a state: no bus error and no access outside the window. -/
def SafeRun (n : Nat) (s : State) : Prop := ∃ t, core.run n s = .next t

end Sys2Proof.Machine
end

