-- ==== Sys2Proof/Certificates/Slice0/Obligations.lean ====
section
/-! DEFINITION. The statements for the provers. -/

open Sys2Proof Sys2Proof.Machine

/-! ## Encoding -/

/-- R84: the encoding column of the opcode map, word by word. -/
def Obligations.OpcodeMapWordsDecode : Prop :=
  decode 0x00000000#32 = .ok .nop ∧
  decode 0x00000001#32 = .ok .gfmul64 ∧
  decode 0x00000101#32 = .ok .gfmac64 ∧
  decode 0x00000002#32 = .ok .gfmul128 ∧
  decode 0x00000102#32 = .ok .gfmac128 ∧
  decode 0x00000003#32 = .ok .incrL ∧
  decode 0x00000004#32 = .ok .incrR ∧
  decode 0x00000005#32 = .ok .noncePrep ∧
  decode 0x00000006#32 = .ok .encblk ∧
  decode 0x00000007#32 = .ok .tagcmp ∧
  decode 0x00000010#32 = .ok .mgmSeal ∧
  decode 0x00000011#32 = .ok .mgmOpen ∧
  decode 0x00000020#32 = .ok .acpkmDerive ∧
  decode 0x00000120#32 = .ok .acpkmDeriveLoad ∧
  decode 0x00000021#32 = .ok .ctrAcpkm ∧
  decode 0x00000022#32 = .ok .acpkmMaster

/-- R84, R87: over all 2^32 words, a word decodes to a command exactly when it is that command's word. -/
def Obligations.DecodeExactlyTheEncodedWords : Prop :=
  ∀ (w : Word) (i : Instr), decode w = .ok i ↔ w = encode i

/-- R86: which words are illegal, that such a word is accepted like any other, and that its completion, after whatever host
accesses and also in one step with the last of them, records ILLEGAL_CMD and has no other effect. -/
def Obligations.IllegalWordsCompleteWithIllegalCmd : Prop :=
  (∀ w : Word,
    ((∃ e, decode w = .error e) ↔
      (w.extractLsb' 9 23 ≠ 0#23 ∨
        (w.extractLsb' 0 8).toNat ∉ [0x00, 0x01, 0x02, 0x03, 0x04, 0x05, 0x06, 0x07, 0x10, 0x11, 0x20, 0x21, 0x22] ∨
        (w.getLsbD 8 = true ∧ (w.extractLsb' 0 8).toNat ∉ [0x01, 0x02, 0x20]))) ∧
    ((∃ e, decode w = .error e) → ∀ (s : State) (rest : List Event), s.status.busy = false →
      s.events = .access (.write 32 0x008 w) :: .completion :: rest →
      core.run 2 s = .next (State.fail
        { s with
          events := rest
          reply := .none
          pcmd := w
          status := { busy := true, done := false, err := false, authOk := false, wign := false, errcode := 0#4 } }
        1#4))) ∧
  ∀ (s : State) (e : IllegalWord), s.status.busy = true → decode s.pcmd = .error e →
    (∀ rest, s.events = .completion :: rest → step s = .next (State.fail { s with events := rest, reply := .none } 1#4)) ∧
    (∀ a rest, s.events = .accessWithCompletion a :: rest → accessLegal Config.engine a →
      step s = .next (State.fail (applyAccess Config.engine { s with events := rest, reply := .none } a) 1#4))

/-! ## The lifecycle of a command -/

/-- R101, R103: where a command is running and its word decodes to `i`, the step that completes it is `exec i`: at a
completion event, and after a host access that falls in the same step. That a running command completes where no event is
left, an illegal word with ILLEGAL_CMD (R86), is the model's choice (log entry 6). -/
def Obligations.StepRunsTheDecodedCommand : Prop :=
  (∀ (s : State) (i : Instr), s.status.busy = true → decode s.pcmd = .ok i →
    (s.events = [] → step s = exec i { s with reply := .none }) ∧
    (∀ rest, s.events = .completion :: rest → step s = exec i { s with events := rest, reply := .none }) ∧
    (∀ a rest, s.events = .accessWithCompletion a :: rest → accessLegal Config.engine a →
      step s = exec i (applyAccess Config.engine { s with events := rest, reply := .none } a))) ∧
  ∀ (s : State) (e : IllegalWord), s.status.busy = true → decode s.pcmd = .error e → s.events = [] →
    step s = .next (State.fail { s with reply := .none } 1#4)

/-- R100: acceptance of a command word, and its refusal while another command runs. -/
def Obligations.CommandWriteIsAcceptedOrDropped : Prop :=
  ∀ (s : State) (w : Word) (rest : List Event), s.events = .access (.write 32 0x008 w) :: rest →
    (s.status.busy = false → step s = .next
      { s with
        events := rest
        reply := .ack
        pcmd := w
        status := { busy := true, done := false, err := false, authOk := false, wign := false, errcode := 0#4 } }) ∧
    (s.status.busy = true → step s = .next
      { s with events := rest, reply := .ack, status := { s.status with wign := true } })

/-- R101, R102, R221: the completion of a running command succeeds, or records one of the codes 1 to 7 and changes
nothing else. -/
def Obligations.CompletionSucceedsOrOnlyRecordsItsCode : Prop :=
  ∀ (i : Instr) (s : State), s.status.busy = true → s.status.coherent →
    ∃ t, exec i s = .next t ∧
      ((t.status = { s.status with authOk := t.status.authOk, busy := false, done := true } ∧
          t.irqStatus = { s.irqStatus with cmpl := true }) ∨
        (∃ c : BitVec 4, 1 ≤ c.toNat ∧ c.toNat ≤ 7 ∧ t = s.fail c))

/-- R260: an accepted command completes within one step more than the events still to come, whatever they are, as long
as the window accepts the host's accesses and no reset abandons the command (R251): it is the very command, and DONE is
set. Log entry 6 names how the model schedules the completion. -/
def Obligations.EveryAcceptedCommandCompletes : Prop :=
  ∀ s : State, s.status.busy = true → (∀ e ∈ s.events, eventLegal Config.engine e ∧ e ≠ .reset) →
    ∃ k t, k ≤ s.events.length + 1 ∧ core.run k s = .next t ∧
      t.status.busy = false ∧ t.status.done = true ∧ t.pcmd = s.pcmd

/-! ## Host accesses -/

/-- R256: what a host write does while a command runs, and which writes are ignored at all times without WIGN. -/
def Obligations.HostWritesWhileBusy : Prop :=
  ∀ (s : State) (offset : Nat) (w : Word) (rest : List Event),
    s.events = .access (.write 32 offset w) :: rest → offset % 4 = 0 → offset < 0x1000 + Config.engine.dbufSize →
    (s.status.busy = true →
      offset = 0x004 ∨ offset = 0x008 ∨ (0x020 ≤ offset ∧ offset < 0x0E0) ∨ 0x1000 ≤ offset →
      step s = .next { s with events := rest, reply := .ack, status := { s.status with wign := true } }) ∧
    (offset = 0x010 → step s = .next
      { s with
        events := rest
        reply := .ack
        irqStatus := { cmpl := s.irqStatus.cmpl && !w.getLsbD 0, erri := s.irqStatus.erri && !w.getLsbD 1 } }) ∧
    (offset = 0x014 → step s = .next
      { s with events := rest, reply := .ack, irqEnable := { cmple := w.getLsbD 0, erre := w.getLsbD 1 } }) ∧
    (offset = 0x000 ∨ offset = 0x00C ∨ offset = 0x018 ∨ offset = 0x01C ∨ (0x0E0 ≤ offset ∧ offset < 0x1000) →
      step s = .next { s with events := rest, reply := .ack })

/-- R21, R22, R24, R30, R31, R67, R89: what a host write does while no command runs: CTRL takes its two fields, an argument
word its slot, one word of a multi-word register its four octets, every other word of it staying, and all its words
together its big-endian content, nothing else changing. -/
def Obligations.HostWritesLandInTheirRegister : Prop :=
  ∀ s : State, s.status.busy = false →
    (∀ w : Word, step { s with events := [.access (.write 32 0x004 w)] } = .next
      { s with events := [], reply := .ack, ctrl := { bs := w.extractLsb' 0 8, tagsize := w.extractLsb' 8 8 } }) ∧
    (∀ (i : Fin 8) (w : Word), ∃ t, step { s with events := [.access (.write 32 (0x020 + 4 * i.val) w)] } = .next t ∧
      t = { s with events := [], reply := .ack, args := t.args } ∧ t.arg i = w.toNat ∧
      ∀ j, j ≠ i → t.arg j = s.arg j) ∧
    (∀ r ∈ ([(0x060, s.nonce, fun u v => { u with nonce := v }), (0x070, s.tag, fun u v => { u with tag := v }),
          (0x080, s.tagin, fun u v => { u with tagin := v }), (0x090, s.gfa, fun u v => { u with gfa := v }),
          (0x0A0, s.gfb, fun u v => { u with gfb := v }), (0x0B0, s.gfz, fun u v => { u with gfz := v }),
          (0x0C0, s.cnt, fun u v => { u with cnt := v }), (0x0D0, s.blk, fun u v => { u with blk := v })] :
          List (Nat × Block × (State → Block → State))),
      (∀ (k : Fin 4) (w : Word), ∃ v : Block,
        step { s with events := [.access (.write 32 (r.1 + 4 * k.val) w)] } =
          .next (r.2.2 { s with events := [], reply := .ack } v) ∧
        v.extractLsb' (96 - 32 * k.val) 32 = w ∧
        ∀ j : Fin 4, j ≠ k → v.extractLsb' (96 - 32 * j.val) 32 = r.2.1.extractLsb' (96 - 32 * j.val) 32) ∧
      ∀ w0 w1 w2 w3 : Word, core.run 4
        { s with
          events := [.access (.write 32 r.1 w0), .access (.write 32 (r.1 + 4) w1),
            .access (.write 32 (r.1 + 8) w2), .access (.write 32 (r.1 + 12) w3)] } =
        .next (r.2.2 { s with events := [], reply := .ack } (w0 ++ w1 ++ w2 ++ w3 : BitVec (32 + 32 + 32 + 32)))) ∧
    (∀ (i : Fin 8) (w : Word), ∃ v : Key,
      step { s with events := [.access (.write 32 (0x040 + 4 * i.val) w)] } =
        .next { s with events := [], reply := .ack, key := v } ∧
      v.extractLsb' (224 - 32 * i.val) 32 = w ∧
      ∀ j : Fin 8, j ≠ i → v.extractLsb' (224 - 32 * j.val) 32 = s.key.extractLsb' (224 - 32 * j.val) 32) ∧
    (∀ w : Fin 8 → Word, core.run 8
        { s with events := (List.finRange 8).map fun i => .access (.write 32 (0x040 + 4 * i.val) (w i)) } =
      .next { s with
        events := []
        reply := .ack
        key := (w 0 ++ w 1 ++ w 2 ++ w 3 ++ w 4 ++ w 5 ++ w 6 ++ w 7 :
          BitVec (32 + 32 + 32 + 32 + 32 + 32 + 32 + 32)) })

/-- R22–R40: what a host read of each register word returns while no command runs; R258: and of each word that the running
command is not to write while one does. That KEY reads 0 also while ACPKM_DERIVE_LOAD runs, where R31 is set over R258, that
STATUS and IRQ_STATUS are in no write set and that an illegal word has none, is DEDUCED (log entry 5). -/
def Obligations.RegisterMapReads : Prop :=
  ∀ (s : State) (offset : Nat) (v : Word),
    (s.status.busy = true → ∀ i, decode s.pcmd = .ok i →
      ¬ wordWritten i s offset ∨ (0x040 ≤ offset ∧ offset < 0x060)) →
      ((offset = 0x000 ∧ v = 0x34130001#32) ∨
        (offset = 0x004 ∧ v.toNat = s.ctrl.bs.toNat + 256 * s.ctrl.tagsize.toNat) ∨
        (offset = 0x008 ∧ v = 0#32) ∨
        (offset = 0x00C ∧ v.toNat = s.status.busy.toNat + 2 * s.status.done.toNat + 4 * s.status.err.toNat +
          8 * s.status.authOk.toNat + 16 * s.status.wign.toNat + 256 * s.status.errcode.toNat) ∨
        (offset = 0x010 ∧ v.toNat = s.irqStatus.cmpl.toNat + 2 * s.irqStatus.erri.toNat) ∨
        (offset = 0x014 ∧ v.toNat = s.irqEnable.cmple.toNat + 2 * s.irqEnable.erre.toNat) ∨
        (offset = 0x018 ∧ v.toNat = Config.engine.dbufSize) ∨
        (offset = 0x01C ∧ v = 0#32) ∨
        (∃ i : Fin 8, offset = 0x020 + 4 * i.val ∧ v.toNat = s.arg i) ∨
        (∃ i : Fin 8, offset = 0x040 + 4 * i.val ∧ v = 0#32) ∨
        (∃ k : Fin 4, ∃ r ∈ [(0x060, s.nonce), (0x070, s.tag), (0x080, s.tagin), (0x090, s.gfa), (0x0A0, s.gfb),
            (0x0B0, s.gfz), (0x0C0, s.cnt), (0x0D0, s.blk)],
          offset = r.1 + 4 * k.val ∧ v = r.2.extractLsb' (96 - 32 * k.val) 32) ∨
        (∃ i : Fin 8, offset = 0x0E0 + 4 * i.val ∧ v = s.kd.extractLsb' (224 - 32 * i.val) 32) ∨
        (0x100 ≤ offset ∧ offset < 0x1000 ∧ offset % 4 = 0 ∧ v = 0#32)) →
      step { s with events := [.access (.read 32 offset)] } = .next { s with events := [], reply := .data v }

/-- R63: the DBUF window: big-endian words, writes ignored while a command runs. A read of a word that a running command
is to write is left to R258. -/
def Obligations.DbufWindowIsBigEndian : Prop :=
  ∀ (s : State) (a : Nat), a % 4 = 0 → a + 4 ≤ Config.engine.dbufSize →
    ((s.status.busy = true → ∀ i, decode s.pcmd = .ok i → ¬ wordWritten i s (0x1000 + a)) →
      step { s with events := [.access (.read 32 (0x1000 + a))] } = .next
        { s with
          events := []
          reply := .data (s.octet Config.engine a ++ s.octet Config.engine (a + 1) ++ s.octet Config.engine (a + 2) ++
            s.octet Config.engine (a + 3) : BitVec (8 + 8 + 8 + 8)) }) ∧
    (∀ w : Word, s.status.busy = false →
      ∃ t, step { s with events := [.access (.write 32 (0x1000 + a) w)] } = .next t ∧
        t = { s with events := [], reply := .ack, dbuf := t.dbuf } ∧
        (∀ i < 4, t.octet Config.engine (a + i) = w.extractLsb' (24 - 8 * i) 8) ∧
        (∀ x, x < a ∨ a + 4 ≤ x → t.octet Config.engine x = s.octet Config.engine x)) ∧
    (∀ w : Word, s.status.busy = true →
      step { s with events := [.access (.write 32 (0x1000 + a) w)] } = .next
        { s with events := [], reply := .ack, status := { s.status with wign := true } })

/-- R65: a host read changes nothing but the bus's answer and the model's own count of unspecified values (log entry 5). -/
def Obligations.HostReadsHaveNoSideEffect : Prop :=
  ∀ (s : State) (offset : Nat) (rest : List Event), s.events = .access (.read 32 offset) :: rest →
    offset % 4 = 0 → offset < 0x1000 + Config.engine.dbufSize →
    ∃ v n, step s = .next { s with events := rest, reply := .data v, tick := n } ∧
      (s.status.busy = false → n = s.tick)

/-- R46, R258: while a command runs, a read of a word any octet of which is in its write set returns an unspecified
value, and any other read the current value; KEY reads 0 whatever it holds (R31; log entry 5). -/
def Obligations.ReadsOfThePendingWriteSetRace : Prop :=
  ∀ (s : State) (i : Instr) (offset : Nat) (rest : List Event), s.events = .access (.read 32 offset) :: rest →
    offset % 4 = 0 → offset < 0x1000 + Config.engine.dbufSize → s.status.busy = true → decode s.pcmd = .ok i →
    (wordWritten i s offset → ¬ (0x040 ≤ offset ∧ offset < 0x060) → step s = .next
      { s with events := rest, reply := .data (Config.raceWord s.tick), tick := s.tick + 1 }) ∧
    (¬ wordWritten i s offset → step s = .next
      { s with events := rest, reply := .data (currentWord Config.engine s (locate offset)) }) ∧
    (0x040 ≤ offset → offset < 0x060 → step s = .next { s with events := rest, reply := .data 0#32 })

/-- R26, R258: while a command runs, STATUS reads as BUSY, with WIGN as last set, and nothing else. -/
def Obligations.StatusReadsWhileBusy : Prop :=
  ∀ (s : State) (rest : List Event), s.events = .access (.read 32 0x00C) :: rest → s.status.busy = true →
    s.Inv Config.engine →
    step s = .next { s with events := rest, reply := .data (if s.status.wign then 0x00000011#32 else 0x00000001#32) }

/-- R61, R64, R223: the accesses the window does not accept, and that every other one is served. Where an access is both
outside the window and of a wrong shape, the model reports the former (log entry 9). -/
def Obligations.OnlyAlignedWordsInTheWindowAreServed : Prop :=
  ∀ (s : State) (a : Access) (rest : List Event), s.events = .access a :: rest →
    (0x1000 + Config.engine.dbufSize ≤ accessOffset a → step s = .fault (.outsideWindow (accessOffset a))) ∧
    (accessOffset a < 0x1000 + Config.engine.dbufSize → accessWidth a ≠ 32 ∨ accessOffset a % 4 ≠ 0 →
      step s = .fault (.busError (accessOffset a) 0#32)) ∧
    (accessOffset a < 0x1000 + Config.engine.dbufSize → accessWidth a = 32 → accessOffset a % 4 = 0 →
      ∃ t, step s = .next t ∧ t.events = rest)

/-- R31, R231: KEY cannot be read. What a step answers to the host, and every word the host could read after it, is the
same for two states that differ in KEY alone, as long as no command completes in the step. -/
def Obligations.KeyIsNotReadableByTheHost : Prop :=
  ∀ (s : State) (k : Key) (a : Access) (rest : List Event), s.events = .access a :: rest →
    accessLegal Config.engine a →
    ∃ t u, step s = .next t ∧ step { s with key := k } = .next u ∧ t.reply = u.reply ∧
      ∀ loc, currentWord Config.engine t loc = currentWord Config.engine u loc

/-! ## Interrupts -/

/-- R27, R44, R226, R227: a completion sets its pending bits, CMPL always and ERRI where it ends in an error, whether or
not they are enabled, and also against a clearing write in the same step, which a success leaves cleared; the line
follows the enabled pending bits. -/
def Obligations.CompletionSetsPendingBitsLast : Prop :=
  (∀ s : State, s.irqLine =
    ((s.irqStatus.cmpl && s.irqEnable.cmple) || (s.irqStatus.erri && s.irqEnable.erre))) ∧
  (∀ (i : Instr) (s t : State), exec i s = .next t →
    t.irqStatus.cmpl = true ∧ t.irqEnable = s.irqEnable ∧ (s.irqStatus.erri = true → t.irqStatus.erri = true) ∧
    (s.status.err = false → t.status.err = true → t.irqStatus.erri = true) ∧
    (t.status.err = false → t.irqStatus.erri = s.irqStatus.erri) ∧
    t.irqLine = (s.irqEnable.cmple || (t.irqStatus.erri && s.irqEnable.erre))) ∧
  (∀ (s : State) (w : Word) (rest : List Event), s.status.busy = true →
    s.events = .accessWithCompletion (.write 32 0x010 w) :: rest →
    ∃ t, step s = .next t ∧ t.irqStatus.cmpl = true ∧ t.status.busy = false ∧ t.status.done = true ∧
      (s.status.err = false → t.status.err = true → t.irqStatus.erri = true) ∧
      (t.status.err = false → t.irqStatus.erri = (s.irqStatus.erri && !w.getLsbD 1)) ∧
      t.irqLine = (s.irqEnable.cmple || (t.irqStatus.erri && s.irqEnable.erre)))

/-! ## Reset -/

/-- R250, R251: the reset input, at any time: every register at its reset value, DBUF at the DBUF_INIT of this reset,
no command pending. -/
def Obligations.ResetInputRestoresTheResetState : Prop :=
  ∀ (s : State) (rest : List Event), s.events = .reset :: rest →
    ∃ t, step s = .next t ∧ t.events = rest ∧
      t.ctrl = { bs := 0x10#8, tagsize := 0x00#8 } ∧
      t.status = { busy := false, done := false, err := false, authOk := false, wign := false, errcode := 0#4 } ∧
      t.irqStatus = { cmpl := false, erri := false } ∧ t.irqEnable = { cmple := false, erre := false } ∧
      t.irqLine = false ∧ (∀ i, t.arg i = 0) ∧ t.key = 0#256 ∧ t.nonce = 0#128 ∧ t.tag = 0#128 ∧ t.tagin = 0#128 ∧
      t.gfa = 0#128 ∧ t.gfb = 0#128 ∧ t.gfz = 0#128 ∧ t.cnt = 0#128 ∧ t.blk = 0#128 ∧ t.kd = 0#256 ∧
      ∀ a, t.octet Config.engine a = Config.dbufInit (s.epoch + 1) a

/-- R22, R250: the reset column of the register map, as the host reads it right after reset. -/
def Obligations.ResetColumnOfTheRegisterMap : Prop :=
  ∀ offset, offset < 0x1000 → offset % 4 = 0 →
    step { State.reset with events := [.access (.read 32 offset)] } = .next
      { State.reset with
        reply := .data
          (if offset = 0x000 then 0x34130001#32
          else if offset = 0x004 then 0x00000010#32
          else if offset = 0x018 then BitVec.ofNat 32 Config.engine.dbufSize
          else 0#32) }

/-- R253: the first access after reset is served, and a CMD write is accepted at once. -/
def Obligations.ReadyRightAfterReset : Prop :=
  (∀ (s : State) (a : Access) (rest : List Event), s.events = .reset :: .access a :: rest → accessLegal Config.engine a →
    ∃ t, core.run 2 s = .next t ∧ t.events = rest ∧ t.reply ≠ .none) ∧
  ∀ (s : State) (w : Word) (rest : List Event), s.events = .reset :: .access (.write 32 0x008 w) :: rest →
    ∃ t, core.run 2 s = .next t ∧ t.status.busy = true ∧ t.pcmd = w ∧ t.events = rest ∧ t.reply = .ack

/-! ## The invariant -/

/-- The invariant holds at reset: DBUF in canonical form and within its size, coherent flags (R22, R26). -/
def Obligations.ResetStateMeetsTheInvariant : Prop := State.reset.Inv Config.engine

/-- Every step, from every state, keeps it (R26, R102, R106, R220, R221). -/
def Obligations.StepKeepsTheInvariant : Prop :=
  ∀ s t : State, s.Inv Config.engine → step s = .next t → t.Inv Config.engine

/-! ## Utility commands -/

/-- R130: NOP, and only the word 0, completes and has no other effect, whatever CTRL holds. -/
def Obligations.NopOnlyCompletes : Prop :=
  (∀ w : Word, decode w = .ok .nop ↔ w = 0x00000000#32) ∧ ∀ s : State, exec .nop s = .next (s.succeed false)

/-- R131: NONCE_PREP clears the top bit of NONCE and has no other effect, whatever CTRL holds; doing so changes no result
of MGM_SEAL or MGM_OPEN. -/
def Obligations.NoncePrepClearsTheTopBit : Prop :=
  decode 0x00000005#32 = .ok .noncePrep ∧
  ∀ s : State, ∃ n : Block, n = s.nonce &&& 0x7FFFFFFFFFFFFFFFFFFFFFFFFFFFFFFF#128 ∧
    exec .noncePrep s = .next (State.succeed { s with nonce := n } false) ∧
    ∀ i ∈ [Instr.mgmSeal, .mgmOpen], ∀ t, exec i s = .next t → exec i { s with nonce := n } = .next { t with nonce := n }

/-- R114, R132: INCR_L steps the left half of the block in CNT, silently; with bs = 8 it clears octets 8..15; any other
block size is its one error. -/
def Obligations.IncrLStepsTheLeftHalf : Prop :=
  decode 0x00000003#32 = .ok .incrL ∧
  ∀ s : State,
    (s.hasBlockSize .b16 → exec .incrL s = .next (State.succeed
      { s with cnt := ((s.cnt.extractLsb' 64 64 + 1#64) ++ s.cnt.extractLsb' 0 64 : BitVec (64 + 64)) } false)) ∧
    (s.hasBlockSize .b8 → exec .incrL s = .next (State.succeed
      { s with
        cnt := ((s.cnt.extractLsb' 96 32 + 1#32) ++ s.cnt.extractLsb' 64 32 ++ 0#64 : BitVec (32 + 32 + 64)) } false)) ∧
    (s.ctrl.bs.toNat ∉ [8, 16] → exec .incrL s = .next (s.fail 2#4))

/-- R115, R133: INCR_R steps the right half of the block in CNT, silently; with bs = 8 it clears octets 8..15; any other
block size is its one error. -/
def Obligations.IncrRStepsTheRightHalf : Prop :=
  decode 0x00000004#32 = .ok .incrR ∧
  ∀ s : State,
    (s.hasBlockSize .b16 → exec .incrR s = .next (State.succeed
      { s with cnt := (s.cnt.extractLsb' 64 64 ++ (s.cnt.extractLsb' 0 64 + 1#64) : BitVec (64 + 64)) } false)) ∧
    (s.hasBlockSize .b8 → exec .incrR s = .next (State.succeed
      { s with
        cnt := (s.cnt.extractLsb' 96 32 ++ (s.cnt.extractLsb' 64 32 + 1#32) ++ 0#64 : BitVec (32 + 32 + 64)) } false)) ∧
    (s.ctrl.bs.toNat ∉ [8, 16] → exec .incrR s = .next (s.fail 2#4))

/-- R118, R134: ENCBLK passes the block in BLK through the cipher under KEY; with bs = 8 it clears octets 8..15; any other
block size is its one error. -/
def Obligations.EncblkPassesTheBlockThroughTheCipher : Prop :=
  decode 0x00000006#32 = .ok .encblk ∧
  ∀ s : State,
    (s.hasBlockSize .b16 → exec .encblk s = .next (State.succeed { s with blk := Config.bc16 s.key s.blk } false)) ∧
    (s.hasBlockSize .b8 → exec .encblk s = .next (State.succeed
      { s with blk := (Config.bc8 s.key (s.blk.extractLsb' 64 64) ++ 0#64 : BitVec (64 + 64)) } false)) ∧
    (s.ctrl.bs.toNat ∉ [8, 16] → exec .encblk s = .next (s.fail 2#4))

/-- R116, R135: TAGCMP compares the first T octets of TAG and TAGIN, the top 8·T bits of the two registers, and nothing
else; an illegal block size and an illegal tag size are its other errors, in this order. -/
def Obligations.TagcmpComparesTheFirstOctets : Prop :=
  decode 0x00000007#32 = .ok .tagcmp ∧
  (∀ s : State, s.ctrl.bs.toNat ∉ [8, 16] → exec .tagcmp s = .next (s.fail 2#4)) ∧
  (∀ (s : State) (b : BlockSize), s.hasBlockSize b → (¬ ∃ T, s.hasTagSize b T) → exec .tagcmp s = .next (s.fail 3#4)) ∧
  ∀ (s : State) (b : BlockSize) (T : Nat), s.hasBlockSize b → s.hasTagSize b T →
    (s.tag >>> (128 - 8 * T) = s.tagin >>> (128 - 8 * T) → exec .tagcmp s = .next (s.succeed true)) ∧
    (s.tag >>> (128 - 8 * T) ≠ s.tagin >>> (128 - 8 * T) → exec .tagcmp s = .next (s.fail 7#4))

/-! ## Checks -/

/-- R104, R220, R222: an illegal block size is the error of every command that reads CTRL.BS, before any other check. -/
def Obligations.IllegalBlockSizeIsReportedFirst : Prop :=
  ∀ s : State, s.ctrl.bs.toNat ≠ 8 → s.ctrl.bs.toNat ≠ 16 →
    ∀ i ∈ [Instr.incrL, .incrR, .encblk, .tagcmp, .mgmSeal, .mgmOpen, .acpkmDerive, .acpkmDeriveLoad, .ctrAcpkm,
      .acpkmMaster], exec i s = .next (s.fail 2#4)

/-- R105, R220, R222: an illegal tag size is the next error of the three commands that read CTRL.TAGSIZE. -/
def Obligations.IllegalTagSizeIsReportedNext : Prop :=
  ∀ (s : State) (b : BlockSize), s.hasBlockSize b →
    s.ctrl.tagsize ≠ 0#8 → s.ctrl.tagsize.toNat < 4 ∨ blockOctets b < s.ctrl.tagsize.toNat →
    ∀ i ∈ [Instr.tagcmp, .mgmSeal, .mgmOpen], exec i s = .next (s.fail 3#4)

/-- R106, R107, R110, R196, R222: the SIZE, RANGE and OVERLAP errors of MGM_SEAL, in this order. -/
def Obligations.MgmSealReportsItsErrorsInOrder : Prop :=
  ∀ (s : State) (b : BlockSize) (T : Nat), s.hasBlockSize b → s.hasTagSize b T →
    (s.arg 1 + s.arg 3 = 0 ∨ 2 ^ (4 * blockOctets b) - 1 < s.arg 1 + s.arg 3 → exec .mgmSeal s = .next (s.fail 4#4)) ∧
    (0 < s.arg 1 + s.arg 3 → s.arg 1 + s.arg 3 ≤ 2 ^ (4 * blockOctets b) - 1 →
      (¬ (regionFits Config.engine.dbufSize (s.arg 0) (s.arg 1) ∧ regionFits Config.engine.dbufSize (s.arg 2) (s.arg 3) ∧
          regionFits Config.engine.dbufSize (s.arg 4) (s.arg 3 + T)) → exec .mgmSeal s = .next (s.fail 5#4)) ∧
      (regionFits Config.engine.dbufSize (s.arg 0) (s.arg 1) → regionFits Config.engine.dbufSize (s.arg 2) (s.arg 3) →
          regionFits Config.engine.dbufSize (s.arg 4) (s.arg 3 + T) →
        ¬ (regionsApart (s.arg 4) (s.arg 3 + T) (s.arg 0) (s.arg 1) ∧
          (s.arg 4 = s.arg 2 ∨ regionsApart (s.arg 4) (s.arg 3 + T) (s.arg 2) (s.arg 3))) →
        exec .mgmSeal s = .next (s.fail 6#4)))

/-- R106, R107, R110, R197, R222: the SIZE, RANGE and OVERLAP errors of MGM_OPEN, in this order. -/
def Obligations.MgmOpenReportsItsErrorsInOrder : Prop :=
  ∀ (s : State) (b : BlockSize) (T : Nat), s.hasBlockSize b → s.hasTagSize b T →
    (s.arg 3 < T → exec .mgmOpen s = .next (s.fail 4#4)) ∧
    (∀ B, s.arg 3 = B + T →
      (s.arg 1 + B = 0 ∨ 2 ^ (4 * blockOctets b) - 1 < s.arg 1 + B → exec .mgmOpen s = .next (s.fail 4#4)) ∧
      (0 < s.arg 1 + B → s.arg 1 + B ≤ 2 ^ (4 * blockOctets b) - 1 →
        (¬ (regionFits Config.engine.dbufSize (s.arg 0) (s.arg 1) ∧
            regionFits Config.engine.dbufSize (s.arg 2) (s.arg 3) ∧ regionFits Config.engine.dbufSize (s.arg 4) B) →
          exec .mgmOpen s = .next (s.fail 5#4)) ∧
        (regionFits Config.engine.dbufSize (s.arg 0) (s.arg 1) → regionFits Config.engine.dbufSize (s.arg 2) (s.arg 3) →
            regionFits Config.engine.dbufSize (s.arg 4) B →
          ¬ (regionsApart (s.arg 4) B (s.arg 0) (s.arg 1) ∧
            (s.arg 4 = s.arg 2 ∨ regionsApart (s.arg 4) B (s.arg 2) (s.arg 3))) →
          exec .mgmOpen s = .next (s.fail 6#4))))

/-- R106, R107, R155, R156, R222: the SIZE, RANGE and OVERLAP errors of CTR_ACPKM and the SIZE and RANGE errors of
ACPKM_MASTER, in this order. -/
def Obligations.AcpkmStreamsReportTheirErrorsInOrder : Prop :=
  ∀ (s : State) (b : BlockSize), s.hasBlockSize b →
    (s.arg 3 = 0 ∨ s.arg 3 % blockOctets b ≠ 0 →
      exec .ctrAcpkm s = .next (s.fail 4#4) ∧ exec .acpkmMaster s = .next (s.fail 4#4)) ∧
    (0 < s.arg 3 → s.arg 3 % blockOctets b = 0 →
      (¬ (regionFits Config.engine.dbufSize (s.arg 0) (s.arg 1) ∧ regionFits Config.engine.dbufSize (s.arg 2) (s.arg 1)) →
        exec .ctrAcpkm s = .next (s.fail 5#4)) ∧
      (¬ regionFits Config.engine.dbufSize (s.arg 2) (s.arg 1) → exec .acpkmMaster s = .next (s.fail 5#4)) ∧
      (regionFits Config.engine.dbufSize (s.arg 0) (s.arg 1) → regionFits Config.engine.dbufSize (s.arg 2) (s.arg 1) →
        ¬ (s.arg 2 = s.arg 0 ∨ regionsApart (s.arg 2) (s.arg 1) (s.arg 0) (s.arg 1)) →
        exec .ctrAcpkm s = .next (s.fail 6#4)))

/-! ## The multiplier -/

/-- R173–R176: the four multiplier commands: the product of the operands, or its sum with the accumulator, whatever CTRL
holds; the 64-bit commands use octets 0..7 and clear octets 8..15 of GFZ. -/
def Obligations.MultiplierCommandsWriteGfz : Prop :=
  (decode 0x00000001#32 = .ok .gfmul64 ∧ decode 0x00000101#32 = .ok .gfmac64 ∧
    decode 0x00000002#32 = .ok .gfmul128 ∧ decode 0x00000102#32 = .ok .gfmac128) ∧
  ∀ s : State,
    exec .gfmul64 s = .next (State.succeed
      { s with gfz := (gfmul64 (s.gfa.extractLsb' 64 64) (s.gfb.extractLsb' 64 64) ++ 0#64 : BitVec (64 + 64)) } false) ∧
    exec .gfmac64 s = .next (State.succeed
      { s with
        gfz := ((s.gfz.extractLsb' 64 64 ^^^ gfmul64 (s.gfa.extractLsb' 64 64) (s.gfb.extractLsb' 64 64)) ++ 0#64 :
          BitVec (64 + 64)) } false) ∧
    exec .gfmul128 s = .next (State.succeed { s with gfz := gfmul128 s.gfa s.gfb } false) ∧
    exec .gfmac128 s = .next (State.succeed { s with gfz := s.gfz ^^^ gfmul128 s.gfa s.gfb } false)

/-- R170, R172: the product is a(t)·b(t) mod P_n(t), for P_64 = t^64 + t^4 + t^3 + t + 1 and
P_128 = t^128 + t^7 + t^2 + t + 1, where bit i of an integer is the coefficient of t^i. -/
def Obligations.FieldProductIsThePolynomialProduct : Prop :=
  (∀ x y : BitVec 64,
    let p := fun v : BitVec 64 =>
      ∑ i ∈ Finset.range 64, if v.getLsbD i then (Polynomial.X ^ i : Polynomial (ZMod 2)) else 0
    p (gfmul64 x y) = (p x * p y) %ₘ
      (Polynomial.X ^ 64 + Polynomial.X ^ 4 + Polynomial.X ^ 3 + Polynomial.X + 1)) ∧
  (∀ x y : BitVec 128,
    let p := fun v : BitVec 128 =>
      ∑ i ∈ Finset.range 128, if v.getLsbD i then (Polynomial.X ^ i : Polynomial (ZMod 2)) else 0
    p (gfmul128 x y) = (p x * p y) %ₘ
      (Polynomial.X ^ 128 + Polynomial.X ^ 7 + Polynomial.X ^ 2 + Polynomial.X + 1))

/-- R177: 1 is the identity, 0 gives 0, the product distributes over the sum, and t^(n−1)·t is r. -/
def Obligations.FieldProductIdentityZeroAndDistribution : Prop :=
  (∀ x : BitVec 64, gfmul64 x 1#64 = x ∧ gfmul64 x 0#64 = 0#64 ∧
    ∀ y z : BitVec 64, gfmul64 x (y ^^^ z) = gfmul64 x y ^^^ gfmul64 x z) ∧
  (∀ x : BitVec 128, gfmul128 x 1#128 = x ∧ gfmul128 x 0#128 = 0#128 ∧
    ∀ y z : BitVec 128, gfmul128 x (y ^^^ z) = gfmul128 x y ^^^ gfmul128 x z) ∧
  gfmul64 (1#64 <<< 63) 2#64 = 0x1B#64 ∧ gfmul128 (1#128 <<< 127) 2#128 = 0x87#128

/-- R177: the product is commutative and associative. -/
def Obligations.FieldProductCommutesAndAssociates : Prop :=
  (∀ x y : BitVec 64, gfmul64 x y = gfmul64 y x) ∧
  (∀ x y z : BitVec 64, gfmul64 (gfmul64 x y) z = gfmul64 x (gfmul64 y z)) ∧
  (∀ x y : BitVec 128, gfmul128 x y = gfmul128 y x) ∧
  (∀ x y z : BitVec 128, gfmul128 (gfmul128 x y) z = gfmul128 x (gfmul128 y z))

/-! ## The ACPKM pipeline -/

/-- R150, R153: ACPKM_DERIVE enciphers the constant blocks 80..9F under KEY into KD; KEY stays. -/
def Obligations.AcpkmDeriveEnciphersTheConstants : Prop :=
  decode 0x00000020#32 = .ok .acpkmDerive ∧
  ∀ s : State,
    (s.hasBlockSize .b16 → exec .acpkmDerive s = .next (State.succeed
      { s with
        kd := (Config.bc16 s.key 0x808182838485868788898A8B8C8D8E8F#128 ++
          Config.bc16 s.key 0x909192939495969798999A9B9C9D9E9F#128 : BitVec (128 + 128)) } false)) ∧
    (s.hasBlockSize .b8 → exec .acpkmDerive s = .next (State.succeed
      { s with
        kd := (Config.bc8 s.key 0x8081828384858687#64 ++ Config.bc8 s.key 0x88898A8B8C8D8E8F#64 ++
          Config.bc8 s.key 0x9091929394959697#64 ++ Config.bc8 s.key 0x98999A9B9C9D9E9F#64 :
          BitVec (64 + 64 + 64 + 64)) } false)) ∧
    (s.ctrl.bs.toNat ∉ [8, 16] → exec .acpkmDerive s = .next (s.fail 2#4))

/-- R150, R154: ACPKM_DERIVE_LOAD derives the same value wholly under the old KEY, into KD and KEY. -/
def Obligations.AcpkmDeriveLoadAlsoLoadsKey : Prop :=
  decode 0x00000120#32 = .ok .acpkmDeriveLoad ∧
  ∀ s : State,
    (s.hasBlockSize .b16 → ∃ k : Key,
      k = (Config.bc16 s.key 0x808182838485868788898A8B8C8D8E8F#128 ++
        Config.bc16 s.key 0x909192939495969798999A9B9C9D9E9F#128 : BitVec (128 + 128)) ∧
      exec .acpkmDeriveLoad s = .next (State.succeed { s with kd := k, key := k } false)) ∧
    (s.hasBlockSize .b8 → ∃ k : Key,
      k = (Config.bc8 s.key 0x8081828384858687#64 ++ Config.bc8 s.key 0x88898A8B8C8D8E8F#64 ++
        Config.bc8 s.key 0x9091929394959697#64 ++ Config.bc8 s.key 0x98999A9B9C9D9E9F#64 :
        BitVec (64 + 64 + 64 + 64)) ∧
      exec .acpkmDeriveLoad s = .next (State.succeed { s with kd := k, key := k } false)) ∧
    (s.ctrl.bs.toNat ∉ [8, 16] → exec .acpkmDeriveLoad s = .next (s.fail 2#4))

/-- R106, R151, R155, R157: CTR_ACPKM, where its checks pass: octet j of the output is octet j of the input, as it was,
with octet j of the keystream; every other octet and KEY, KD and NONCE stay. -/
def Obligations.CtrAcpkmAddsTheKeystream : Prop :=
  ∀ (s : State) (b : BlockSize), s.hasBlockSize b →
    0 < s.arg 3 → s.arg 3 % blockOctets b = 0 →
    regionFits Config.engine.dbufSize (s.arg 0) (s.arg 1) → regionFits Config.engine.dbufSize (s.arg 2) (s.arg 1) →
    s.arg 2 = s.arg 0 ∨ regionsApart (s.arg 2) (s.arg 1) (s.arg 0) (s.arg 1) →
    ∃ t, exec .ctrAcpkm s = .next t ∧ t = State.succeed { s with dbuf := t.dbuf } false ∧
      (∀ j < s.arg 1, t.octet Config.engine (s.arg 2 + j) = s.octet Config.engine (s.arg 0 + j) ^^^
        ctrKeystreamOctet Config.engine b s.key ((octetsOf s.nonce).take (halfOctets b)) (s.arg 3) j) ∧
      (∀ a, a < s.arg 2 ∨ s.arg 2 + s.arg 1 ≤ a → t.octet Config.engine a = s.octet Config.engine a)

/-- R106, R152, R156, R157: ACPKM_MASTER, where its checks pass: octet j of the output is octet j of the keystream under
the all-ones IV; every other octet and KEY and KD stay. -/
def Obligations.AcpkmMasterWritesTheKeystream : Prop :=
  ∀ (s : State) (b : BlockSize), s.hasBlockSize b →
    0 < s.arg 3 → s.arg 3 % blockOctets b = 0 → regionFits Config.engine.dbufSize (s.arg 2) (s.arg 1) →
    ∃ t, exec .acpkmMaster s = .next t ∧ t = State.succeed { s with dbuf := t.dbuf } false ∧
      (∀ j < s.arg 1, t.octet Config.engine (s.arg 2 + j) =
        ctrKeystreamOctet Config.engine b s.key (List.replicate (halfOctets b) 0xFF#8) (s.arg 3) j) ∧
      (∀ a, a < s.arg 2 ∨ s.arg 2 + s.arg 1 ≤ a → t.octet Config.engine a = s.octet Config.engine a)

/-- R158 (a): with a section at least as long as the data in whole blocks, CTR_ACPKM is plain CTR under KEY. -/
def Obligations.CtrAcpkmWithOneSectionIsPlainCtr : Prop :=
  ∀ (P : Params) (b : BlockSize) (k : Key) (iv data : Octets) (N : Nat), 0 < N → N % blockOctets b = 0 →
    data.length ≤ N →
    (ctrAcpkm P b k iv N data).length = data.length ∧
    ∀ j < data.length, (ctrAcpkm P b k iv N data).getD j 0#8 = data.getD j 0#8 ^^^
      (bc P b k (iv ++ toBe (j / blockOctets b) (halfOctets b))).getD (j % blockOctets b) 0#8

/-- R158 (b): CTR_ACPKM applied to its own output, with the same KEY, NONCE, N and CTRL, gives back the input. -/
def Obligations.CtrAcpkmTwiceGivesBackTheInput : Prop :=
  ∀ (s t u : State) (b : BlockSize), s.hasBlockSize b →
    0 < s.arg 3 → s.arg 3 % blockOctets b = 0 →
    regionFits Config.engine.dbufSize (s.arg 0) (s.arg 1) → regionFits Config.engine.dbufSize (s.arg 2) (s.arg 1) →
    s.arg 2 = s.arg 0 ∨ regionsApart (s.arg 2) (s.arg 1) (s.arg 0) (s.arg 1) →
    exec .ctrAcpkm s = .next t →
    u.key = s.key → u.nonce = s.nonce → u.ctrl = s.ctrl → u.arg 3 = s.arg 3 → u.arg 1 = s.arg 1 →
    memRead Config.engine u (u.arg 0) (u.arg 1) = memRead Config.engine t (s.arg 2) (s.arg 1) →
    regionFits Config.engine.dbufSize (u.arg 0) (u.arg 1) → regionFits Config.engine.dbufSize (u.arg 2) (u.arg 1) →
    u.arg 2 = u.arg 0 ∨ regionsApart (u.arg 2) (u.arg 1) (u.arg 0) (u.arg 1) →
    ∃ v, exec .ctrAcpkm u = .next v ∧
      memRead Config.engine v (u.arg 2) (u.arg 1) = memRead Config.engine s (s.arg 0) (s.arg 1)

/-! ## MGM -/

/-- R192, R195, R196: MGM_SEAL, where its checks pass: the ciphertext is the plaintext, as it was, with the keystream; the
tag follows it in DBUF and is in TAG, zeros after it; every other octet and register stays. -/
def Obligations.MgmSealWritesCiphertextAndTag : Prop :=
  ∀ (s : State) (b : BlockSize) (T : Nat), s.hasBlockSize b → s.hasTagSize b T →
    0 < s.arg 1 + s.arg 3 → s.arg 1 + s.arg 3 ≤ 2 ^ (4 * blockOctets b) - 1 →
    regionFits Config.engine.dbufSize (s.arg 0) (s.arg 1) → regionFits Config.engine.dbufSize (s.arg 2) (s.arg 3) →
    regionFits Config.engine.dbufSize (s.arg 4) (s.arg 3 + T) →
    regionsApart (s.arg 4) (s.arg 3 + T) (s.arg 0) (s.arg 1) →
    s.arg 4 = s.arg 2 ∨ regionsApart (s.arg 4) (s.arg 3 + T) (s.arg 2) (s.arg 3) →
    ∃ t, exec .mgmSeal s = .next t ∧ t = State.succeed { s with dbuf := t.dbuf, tag := t.tag } false ∧
      (∀ j < s.arg 3, t.octet Config.engine (s.arg 4 + j) = s.octet Config.engine (s.arg 2 + j) ^^^
        mgmKeystreamOctet Config.engine b s.key (blockOf b s.nonce) j) ∧
      memRead Config.engine t (s.arg 4 + s.arg 3) T = mgmTag Config.engine b s.key (blockOf b s.nonce)
        (memRead Config.engine s (s.arg 0) (s.arg 1)) (memRead Config.engine t (s.arg 4) (s.arg 3)) T ∧
      octetsOf t.tag = memRead Config.engine t (s.arg 4 + s.arg 3) T ++ zeros (16 - T) ∧
      (∀ a, a < s.arg 4 ∨ s.arg 4 + (s.arg 3 + T) ≤ a → t.octet Config.engine a = s.octet Config.engine a)

/-- R192, R195, R197: MGM_OPEN, where its checks pass and the received tag is the recomputed one: the body is decrypted
at OUT_OFF and AUTH_OK is set; every other octet and register stays. -/
def Obligations.MgmOpenDecryptsAnAuthenticBody : Prop :=
  ∀ (s : State) (b : BlockSize) (T B : Nat), s.hasBlockSize b → s.hasTagSize b T → s.arg 3 = B + T →
    0 < s.arg 1 + B → s.arg 1 + B ≤ 2 ^ (4 * blockOctets b) - 1 →
    regionFits Config.engine.dbufSize (s.arg 0) (s.arg 1) → regionFits Config.engine.dbufSize (s.arg 2) (s.arg 3) →
    regionFits Config.engine.dbufSize (s.arg 4) B →
    regionsApart (s.arg 4) B (s.arg 0) (s.arg 1) →
    s.arg 4 = s.arg 2 ∨ regionsApart (s.arg 4) B (s.arg 2) (s.arg 3) →
    mgmTag Config.engine b s.key (blockOf b s.nonce) (memRead Config.engine s (s.arg 0) (s.arg 1))
      (memRead Config.engine s (s.arg 2) B) T = memRead Config.engine s (s.arg 2 + B) T →
    ∃ t, exec .mgmOpen s = .next t ∧ t = State.succeed { s with dbuf := t.dbuf } true ∧
      (∀ j < B, t.octet Config.engine (s.arg 4 + j) = s.octet Config.engine (s.arg 2 + j) ^^^
        mgmKeystreamOctet Config.engine b s.key (blockOf b s.nonce) j) ∧
      (∀ a, a < s.arg 4 ∨ s.arg 4 + B ≤ a → t.octet Config.engine a = s.octet Config.engine a)

/-- R197, R199, R200 (d): where the received tag is any other T octets, MGM_OPEN reports AUTH_FAIL and changes nothing
but the flags: no octet of plaintext and no tag is written. -/
def Obligations.MgmOpenRejectsAnyOtherTag : Prop :=
  ∀ (s : State) (b : BlockSize) (T B : Nat), s.hasBlockSize b → s.hasTagSize b T → s.arg 3 = B + T →
    0 < s.arg 1 + B → s.arg 1 + B ≤ 2 ^ (4 * blockOctets b) - 1 →
    regionFits Config.engine.dbufSize (s.arg 0) (s.arg 1) → regionFits Config.engine.dbufSize (s.arg 2) (s.arg 3) →
    regionFits Config.engine.dbufSize (s.arg 4) B →
    regionsApart (s.arg 4) B (s.arg 0) (s.arg 1) →
    s.arg 4 = s.arg 2 ∨ regionsApart (s.arg 4) B (s.arg 2) (s.arg 3) →
    mgmTag Config.engine b s.key (blockOf b s.nonce) (memRead Config.engine s (s.arg 0) (s.arg 1))
      (memRead Config.engine s (s.arg 2) B) T ≠ memRead Config.engine s (s.arg 2 + B) T →
    exec .mgmOpen s = .next (s.fail 7#4)

/-- R200 (a): whatever MGM_SEAL has sealed, MGM_OPEN of ciphertext and tag, with the same KEY, NONCE, AD and CTRL, opens:
it authenticates and writes the original plaintext. -/
def Obligations.OpenInvertsSeal : Prop :=
  ∀ (s t u : State) (b : BlockSize) (T : Nat), s.hasBlockSize b → s.hasTagSize b T →
    s.status.err = false → exec .mgmSeal s = .next t → t.status.err = false →
    u.key = s.key → u.nonce = s.nonce → u.ctrl = s.ctrl → u.arg 1 = s.arg 1 → u.arg 3 = s.arg 3 + T →
    memRead Config.engine u (u.arg 0) (u.arg 1) = memRead Config.engine s (s.arg 0) (s.arg 1) →
    memRead Config.engine u (u.arg 2) (u.arg 3) = memRead Config.engine t (s.arg 4) (s.arg 3 + T) →
    regionFits Config.engine.dbufSize (u.arg 0) (u.arg 1) → regionFits Config.engine.dbufSize (u.arg 2) (u.arg 3) →
    regionFits Config.engine.dbufSize (u.arg 4) (s.arg 3) →
    regionsApart (u.arg 4) (s.arg 3) (u.arg 0) (u.arg 1) →
    u.arg 4 = u.arg 2 ∨ regionsApart (u.arg 4) (s.arg 3) (u.arg 2) (u.arg 3) →
    ∃ v, exec .mgmOpen u = .next v ∧ v = State.succeed { u with dbuf := v.dbuf } true ∧
      memRead Config.engine v (u.arg 4) (s.arg 3) = memRead Config.engine s (s.arg 2) (s.arg 3)

/-- R200 (b): the tag with TAGSIZE = T is the first T octets of the tag with TAGSIZE = 0, and the ciphertext is the same. -/
def Obligations.ShorterTagsAreTruncations : Prop :=
  ∀ (s t u : State) (b : BlockSize) (T : Nat), s.hasBlockSize b → s.hasTagSize b T → s.status.err = false →
    exec .mgmSeal s = .next t → t.status.err = false →
    exec .mgmSeal { s with ctrl := { s.ctrl with tagsize := 0x00#8 } } = .next u → u.status.err = false →
    (octetsOf t.tag).take T = (octetsOf u.tag).take T ∧
    memRead Config.engine t (s.arg 4) (s.arg 3) = memRead Config.engine u (s.arg 4) (s.arg 3)

/-- R198, R200 (e): neither the top bit of NONCE nor its octets bs..15 reach any result of MGM_SEAL or MGM_OPEN. -/
def Obligations.NonceTopBitHasNoEffect : Prop :=
  ∀ (s t : State) (b : BlockSize) (nonce : Block), s.hasBlockSize b →
    msbClear (blockOf b nonce) = msbClear (blockOf b s.nonce) →
    ∀ i ∈ [Instr.mgmSeal, .mgmOpen], exec i s = .next t →
      exec i { s with nonce := nonce } = .next { t with nonce := nonce }

/-- R191, R193, R194, R195: the accumulator is the sum, over the padded chunks of AD, those of the ciphertext and the length
block, of H_j times block j, where H_j enciphers the authentication counter stepped j times; the tag is the first T
octets of the accumulator enciphered. -/
def Obligations.MgmSumIsTheSumOfProducts : Prop :=
  ∀ (P : Params) (b : BlockSize) (k : Key) (nonce ad ct : Octets),
    let blocks := ((chunks b ad ++ chunks b ct).map fun c => c ++ zeros (blockOctets b - c.length)) ++
      [toBe (8 * ad.length) (halfOctets b) ++ toBe (8 * ct.length) (halfOctets b)]
    mgmSum P b k nonce ad ct =
      (List.range blocks.length).foldl
        (fun sum j => xorOctets sum
          (gfmulOctets b (bc P b k ((incrLeft b)^[j] (bc P b k (msbSet nonce)))) (blocks.getD j [])))
        (zeros (blockOctets b)) ∧
    ∀ T, mgmTag P b k nonce ad ct T = (bc P b k (mgmSum P b k nonce ad ct)).take T

/-! ## Frames -/

/-- R46: what no command writes, and which command alone writes each other register. -/
def Obligations.CommandsWriteOnlyTheirRegisters : Prop :=
  ∀ (i : Instr) (s t : State), exec i s = .next t →
    t.ctrl = s.ctrl ∧ t.irqEnable = s.irqEnable ∧ t.args = s.args ∧ t.tagin = s.tagin ∧ t.gfa = s.gfa ∧ t.gfb = s.gfb ∧
    t.pcmd = s.pcmd ∧ t.events = s.events ∧ t.reply = s.reply ∧ t.tick = s.tick ∧ t.epoch = s.epoch ∧
    t.status.wign = s.status.wign ∧
    (i ≠ .noncePrep → t.nonce = s.nonce) ∧
    (i ≠ .mgmSeal → t.tag = s.tag) ∧
    (i ∉ [Instr.gfmul64, .gfmac64, .gfmul128, .gfmac128] → t.gfz = s.gfz) ∧
    (i ∉ [Instr.incrL, .incrR] → t.cnt = s.cnt) ∧
    (i ≠ .encblk → t.blk = s.blk) ∧
    (i ∉ [Instr.acpkmDerive, .acpkmDeriveLoad] → t.kd = s.kd) ∧
    (i ≠ .acpkmDeriveLoad → t.key = s.key) ∧
    (i ∉ [Instr.tagcmp, .mgmOpen] → t.status.authOk = false) ∧
    (i ∉ [Instr.mgmSeal, .mgmOpen, .ctrAcpkm, .acpkmMaster] →
      ∀ a, t.octet Config.engine a = s.octet Config.engine a)

/-- R46: the four commands over DBUF write no octet outside their output region, whether they succeed or fail. -/
def Obligations.CommandsStoreOnlyInTheirOutputRegion : Prop :=
  ∀ (s t : State) (a : Nat),
    (∀ b T, s.hasBlockSize b → s.hasTagSize b T → exec .mgmSeal s = .next t →
      a < s.arg 4 ∨ s.arg 4 + (s.arg 3 + T) ≤ a → t.octet Config.engine a = s.octet Config.engine a) ∧
    (∀ b T, s.hasBlockSize b → s.hasTagSize b T → exec .mgmOpen s = .next t →
      a < s.arg 4 ∨ s.arg 4 + (s.arg 3 - T) ≤ a → t.octet Config.engine a = s.octet Config.engine a) ∧
    (∀ i ∈ [Instr.ctrAcpkm, .acpkmMaster], exec i s = .next t →
      a < s.arg 2 ∨ s.arg 2 + s.arg 1 ≤ a → t.octet Config.engine a = s.octet Config.engine a)

/-- R46, R258: the write sets are whole: a word of the window that a command does not declare in its write set, STATUS
and IRQ_STATUS apart, reads the same before and after the command. -/
def Obligations.WriteSetsAreComplete : Prop :=
  ∀ (i : Instr) (s t : State) (offset : Nat), exec i s = .next t →
    offset % 4 = 0 → offset < 0x1000 + Config.engine.dbufSize → offset ≠ 0x00C → offset ≠ 0x010 →
    ¬ wordWritten i s offset →
    currentWord Config.engine t (locate offset) = currentWord Config.engine s (locate offset)

/-- R31, R157: KEY changes only by a host write to one of its words while no command runs, by a completing
ACPKM_DERIVE_LOAD, or by reset. -/
def Obligations.KeyChangesOnlyByItsThreeWriters : Prop :=
  ∀ s t : State, step s = .next t → t.key ≠ s.key →
    (s.status.busy = false ∧ ∃ offset w rest, 0x040 ≤ offset ∧ offset < 0x060 ∧
      (s.events = .access (.write 32 offset w) :: rest ∨ s.events = .accessWithCompletion (.write 32 offset w) :: rest)) ∨
    (s.status.busy = true ∧ decode s.pcmd = .ok .acpkmDeriveLoad) ∨
    (∃ rest, s.events = .reset :: rest)
end

