-- ==== Sys2Proof/Laws/State.lean ====
section
/-! SUPPORT. What each update of the state does to each field, so that no later proof unfolds a record update. -/

namespace Sys2Proof.Machine

/-! ### One DBUF write -/

@[simp] theorem memWrite_ctrl (s : State) (a : Nat) (v : Octets) : (memWrite s a v).ctrl = s.ctrl := rfl

@[simp] theorem memWrite_status (s : State) (a : Nat) (v : Octets) : (memWrite s a v).status = s.status := rfl

@[simp] theorem memWrite_irqStatus (s : State) (a : Nat) (v : Octets) : (memWrite s a v).irqStatus = s.irqStatus := rfl

@[simp] theorem memWrite_irqEnable (s : State) (a : Nat) (v : Octets) : (memWrite s a v).irqEnable = s.irqEnable := rfl

@[simp] theorem memWrite_args (s : State) (a : Nat) (v : Octets) : (memWrite s a v).args = s.args := rfl

@[simp] theorem memWrite_key (s : State) (a : Nat) (v : Octets) : (memWrite s a v).key = s.key := rfl

@[simp] theorem memWrite_nonce (s : State) (a : Nat) (v : Octets) : (memWrite s a v).nonce = s.nonce := rfl

@[simp] theorem memWrite_tag (s : State) (a : Nat) (v : Octets) : (memWrite s a v).tag = s.tag := rfl

@[simp] theorem memWrite_tagin (s : State) (a : Nat) (v : Octets) : (memWrite s a v).tagin = s.tagin := rfl

@[simp] theorem memWrite_gfa (s : State) (a : Nat) (v : Octets) : (memWrite s a v).gfa = s.gfa := rfl

@[simp] theorem memWrite_gfb (s : State) (a : Nat) (v : Octets) : (memWrite s a v).gfb = s.gfb := rfl

@[simp] theorem memWrite_gfz (s : State) (a : Nat) (v : Octets) : (memWrite s a v).gfz = s.gfz := rfl

@[simp] theorem memWrite_cnt (s : State) (a : Nat) (v : Octets) : (memWrite s a v).cnt = s.cnt := rfl

@[simp] theorem memWrite_blk (s : State) (a : Nat) (v : Octets) : (memWrite s a v).blk = s.blk := rfl

@[simp] theorem memWrite_kd (s : State) (a : Nat) (v : Octets) : (memWrite s a v).kd = s.kd := rfl

@[simp] theorem memWrite_dbuf (s : State) (a : Nat) (v : Octets) :
    (memWrite s a v).dbuf = Memory.writeOctets s.dbuf a v := rfl

@[simp] theorem memWrite_pcmd (s : State) (a : Nat) (v : Octets) : (memWrite s a v).pcmd = s.pcmd := rfl

@[simp] theorem memWrite_events (s : State) (a : Nat) (v : Octets) : (memWrite s a v).events = s.events := rfl

@[simp] theorem memWrite_reply (s : State) (a : Nat) (v : Octets) : (memWrite s a v).reply = s.reply := rfl

@[simp] theorem memWrite_tick (s : State) (a : Nat) (v : Octets) : (memWrite s a v).tick = s.tick := rfl

@[simp] theorem memWrite_epoch (s : State) (a : Nat) (v : Octets) : (memWrite s a v).epoch = s.epoch := rfl

/-! ### Acceptance -/

@[simp] theorem acceptCommand_ctrl (s : State) (w : Word) : (acceptCommand s w).ctrl = s.ctrl := rfl

@[simp] theorem acceptCommand_status (s : State) (w : Word) : (acceptCommand s w).status = Status.accepted := rfl

@[simp] theorem acceptCommand_irqStatus (s : State) (w : Word) : (acceptCommand s w).irqStatus = s.irqStatus := rfl

@[simp] theorem acceptCommand_irqEnable (s : State) (w : Word) : (acceptCommand s w).irqEnable = s.irqEnable := rfl

@[simp] theorem acceptCommand_args (s : State) (w : Word) : (acceptCommand s w).args = s.args := rfl

@[simp] theorem acceptCommand_key (s : State) (w : Word) : (acceptCommand s w).key = s.key := rfl

@[simp] theorem acceptCommand_nonce (s : State) (w : Word) : (acceptCommand s w).nonce = s.nonce := rfl

@[simp] theorem acceptCommand_tag (s : State) (w : Word) : (acceptCommand s w).tag = s.tag := rfl

@[simp] theorem acceptCommand_tagin (s : State) (w : Word) : (acceptCommand s w).tagin = s.tagin := rfl

@[simp] theorem acceptCommand_gfa (s : State) (w : Word) : (acceptCommand s w).gfa = s.gfa := rfl

@[simp] theorem acceptCommand_gfb (s : State) (w : Word) : (acceptCommand s w).gfb = s.gfb := rfl

@[simp] theorem acceptCommand_gfz (s : State) (w : Word) : (acceptCommand s w).gfz = s.gfz := rfl

@[simp] theorem acceptCommand_cnt (s : State) (w : Word) : (acceptCommand s w).cnt = s.cnt := rfl

@[simp] theorem acceptCommand_blk (s : State) (w : Word) : (acceptCommand s w).blk = s.blk := rfl

@[simp] theorem acceptCommand_kd (s : State) (w : Word) : (acceptCommand s w).kd = s.kd := rfl

@[simp] theorem acceptCommand_dbuf (s : State) (w : Word) : (acceptCommand s w).dbuf = s.dbuf := rfl

@[simp] theorem acceptCommand_pcmd (s : State) (w : Word) : (acceptCommand s w).pcmd = w := rfl

@[simp] theorem acceptCommand_events (s : State) (w : Word) : (acceptCommand s w).events = s.events := rfl

@[simp] theorem acceptCommand_reply (s : State) (w : Word) : (acceptCommand s w).reply = s.reply := rfl

@[simp] theorem acceptCommand_tick (s : State) (w : Word) : (acceptCommand s w).tick = s.tick := rfl

@[simp] theorem acceptCommand_epoch (s : State) (w : Word) : (acceptCommand s w).epoch = s.epoch := rfl

/-! ### The reset input -/

@[simp] theorem resetEngine_ctrl (s : State) : (resetEngine s).ctrl = State.reset.ctrl := rfl

@[simp] theorem resetEngine_status (s : State) : (resetEngine s).status = State.reset.status := rfl

@[simp] theorem resetEngine_irqStatus (s : State) : (resetEngine s).irqStatus = State.reset.irqStatus := rfl

@[simp] theorem resetEngine_irqEnable (s : State) : (resetEngine s).irqEnable = State.reset.irqEnable := rfl

@[simp] theorem resetEngine_args (s : State) : (resetEngine s).args = State.reset.args := rfl

@[simp] theorem resetEngine_key (s : State) : (resetEngine s).key = State.reset.key := rfl

@[simp] theorem resetEngine_nonce (s : State) : (resetEngine s).nonce = State.reset.nonce := rfl

@[simp] theorem resetEngine_tag (s : State) : (resetEngine s).tag = State.reset.tag := rfl

@[simp] theorem resetEngine_tagin (s : State) : (resetEngine s).tagin = State.reset.tagin := rfl

@[simp] theorem resetEngine_gfa (s : State) : (resetEngine s).gfa = State.reset.gfa := rfl

@[simp] theorem resetEngine_gfb (s : State) : (resetEngine s).gfb = State.reset.gfb := rfl

@[simp] theorem resetEngine_gfz (s : State) : (resetEngine s).gfz = State.reset.gfz := rfl

@[simp] theorem resetEngine_cnt (s : State) : (resetEngine s).cnt = State.reset.cnt := rfl

@[simp] theorem resetEngine_blk (s : State) : (resetEngine s).blk = State.reset.blk := rfl

@[simp] theorem resetEngine_kd (s : State) : (resetEngine s).kd = State.reset.kd := rfl

@[simp] theorem resetEngine_dbuf (s : State) : (resetEngine s).dbuf = State.reset.dbuf := rfl

@[simp] theorem resetEngine_pcmd (s : State) : (resetEngine s).pcmd = State.reset.pcmd := rfl

@[simp] theorem resetEngine_events (s : State) : (resetEngine s).events = s.events := rfl

@[simp] theorem resetEngine_reply (s : State) : (resetEngine s).reply = State.reset.reply := rfl

@[simp] theorem resetEngine_tick (s : State) : (resetEngine s).tick = s.tick := rfl

@[simp] theorem resetEngine_epoch (s : State) : (resetEngine s).epoch = s.epoch + 1 := rfl

/-! ### The writes of a command: what no write touches -/

@[simp] theorem applyWrite_ctrl (s : State) (w : Write) : (applyWrite s w).ctrl = s.ctrl := by cases w <;> rfl

@[simp] theorem applyWrites_ctrl (s : State) (ws : List Write) : (applyWrites s ws).ctrl = s.ctrl := by
  induction ws generalizing s with
  | nil => rfl
  | cons w ws ih => exact (ih (applyWrite s w)).trans (applyWrite_ctrl s w)

@[simp] theorem applyWrite_status (s : State) (w : Write) : (applyWrite s w).status = s.status := by cases w <;> rfl

@[simp] theorem applyWrites_status (s : State) (ws : List Write) : (applyWrites s ws).status = s.status := by
  induction ws generalizing s with
  | nil => rfl
  | cons w ws ih => exact (ih (applyWrite s w)).trans (applyWrite_status s w)

@[simp] theorem applyWrite_irqStatus (s : State) (w : Write) : (applyWrite s w).irqStatus = s.irqStatus := by cases w <;> rfl

@[simp] theorem applyWrites_irqStatus (s : State) (ws : List Write) : (applyWrites s ws).irqStatus = s.irqStatus := by
  induction ws generalizing s with
  | nil => rfl
  | cons w ws ih => exact (ih (applyWrite s w)).trans (applyWrite_irqStatus s w)

@[simp] theorem applyWrite_irqEnable (s : State) (w : Write) : (applyWrite s w).irqEnable = s.irqEnable := by cases w <;> rfl

@[simp] theorem applyWrites_irqEnable (s : State) (ws : List Write) : (applyWrites s ws).irqEnable = s.irqEnable := by
  induction ws generalizing s with
  | nil => rfl
  | cons w ws ih => exact (ih (applyWrite s w)).trans (applyWrite_irqEnable s w)

@[simp] theorem applyWrite_args (s : State) (w : Write) : (applyWrite s w).args = s.args := by cases w <;> rfl

@[simp] theorem applyWrites_args (s : State) (ws : List Write) : (applyWrites s ws).args = s.args := by
  induction ws generalizing s with
  | nil => rfl
  | cons w ws ih => exact (ih (applyWrite s w)).trans (applyWrite_args s w)

@[simp] theorem applyWrite_tagin (s : State) (w : Write) : (applyWrite s w).tagin = s.tagin := by cases w <;> rfl

@[simp] theorem applyWrites_tagin (s : State) (ws : List Write) : (applyWrites s ws).tagin = s.tagin := by
  induction ws generalizing s with
  | nil => rfl
  | cons w ws ih => exact (ih (applyWrite s w)).trans (applyWrite_tagin s w)

@[simp] theorem applyWrite_gfa (s : State) (w : Write) : (applyWrite s w).gfa = s.gfa := by cases w <;> rfl

@[simp] theorem applyWrites_gfa (s : State) (ws : List Write) : (applyWrites s ws).gfa = s.gfa := by
  induction ws generalizing s with
  | nil => rfl
  | cons w ws ih => exact (ih (applyWrite s w)).trans (applyWrite_gfa s w)

@[simp] theorem applyWrite_gfb (s : State) (w : Write) : (applyWrite s w).gfb = s.gfb := by cases w <;> rfl

@[simp] theorem applyWrites_gfb (s : State) (ws : List Write) : (applyWrites s ws).gfb = s.gfb := by
  induction ws generalizing s with
  | nil => rfl
  | cons w ws ih => exact (ih (applyWrite s w)).trans (applyWrite_gfb s w)

@[simp] theorem applyWrite_pcmd (s : State) (w : Write) : (applyWrite s w).pcmd = s.pcmd := by cases w <;> rfl

@[simp] theorem applyWrites_pcmd (s : State) (ws : List Write) : (applyWrites s ws).pcmd = s.pcmd := by
  induction ws generalizing s with
  | nil => rfl
  | cons w ws ih => exact (ih (applyWrite s w)).trans (applyWrite_pcmd s w)

@[simp] theorem applyWrite_events (s : State) (w : Write) : (applyWrite s w).events = s.events := by cases w <;> rfl

@[simp] theorem applyWrites_events (s : State) (ws : List Write) : (applyWrites s ws).events = s.events := by
  induction ws generalizing s with
  | nil => rfl
  | cons w ws ih => exact (ih (applyWrite s w)).trans (applyWrite_events s w)

@[simp] theorem applyWrite_reply (s : State) (w : Write) : (applyWrite s w).reply = s.reply := by cases w <;> rfl

@[simp] theorem applyWrites_reply (s : State) (ws : List Write) : (applyWrites s ws).reply = s.reply := by
  induction ws generalizing s with
  | nil => rfl
  | cons w ws ih => exact (ih (applyWrite s w)).trans (applyWrite_reply s w)

@[simp] theorem applyWrite_tick (s : State) (w : Write) : (applyWrite s w).tick = s.tick := by cases w <;> rfl

@[simp] theorem applyWrites_tick (s : State) (ws : List Write) : (applyWrites s ws).tick = s.tick := by
  induction ws generalizing s with
  | nil => rfl
  | cons w ws ih => exact (ih (applyWrite s w)).trans (applyWrite_tick s w)

@[simp] theorem applyWrite_epoch (s : State) (w : Write) : (applyWrite s w).epoch = s.epoch := by cases w <;> rfl

@[simp] theorem applyWrites_epoch (s : State) (ws : List Write) : (applyWrites s ws).epoch = s.epoch := by
  induction ws generalizing s with
  | nil => rfl
  | cons w ws ih => exact (ih (applyWrite s w)).trans (applyWrite_epoch s w)

@[simp] theorem applyWrites_nil (s : State) : applyWrites s [] = s := rfl

@[simp] theorem applyWrites_cons (s : State) (w : Write) (ws : List Write) :
    applyWrites s (w :: ws) = applyWrites (applyWrite s w) ws := rfl

/-! ### Completion -/

@[simp] theorem finish_ctrl (s : State) (r : Result) : (finish s r).ctrl = s.ctrl := by
  cases r with
  | ok ws a => exact applyWrites_ctrl s ws
  | err c => rfl

@[simp] theorem finish_irqEnable (s : State) (r : Result) : (finish s r).irqEnable = s.irqEnable := by
  cases r with
  | ok ws a => exact applyWrites_irqEnable s ws
  | err c => rfl

@[simp] theorem finish_args (s : State) (r : Result) : (finish s r).args = s.args := by
  cases r with
  | ok ws a => exact applyWrites_args s ws
  | err c => rfl

@[simp] theorem finish_tagin (s : State) (r : Result) : (finish s r).tagin = s.tagin := by
  cases r with
  | ok ws a => exact applyWrites_tagin s ws
  | err c => rfl

@[simp] theorem finish_gfa (s : State) (r : Result) : (finish s r).gfa = s.gfa := by
  cases r with
  | ok ws a => exact applyWrites_gfa s ws
  | err c => rfl

@[simp] theorem finish_gfb (s : State) (r : Result) : (finish s r).gfb = s.gfb := by
  cases r with
  | ok ws a => exact applyWrites_gfb s ws
  | err c => rfl

@[simp] theorem finish_pcmd (s : State) (r : Result) : (finish s r).pcmd = s.pcmd := by
  cases r with
  | ok ws a => exact applyWrites_pcmd s ws
  | err c => rfl

@[simp] theorem finish_events (s : State) (r : Result) : (finish s r).events = s.events := by
  cases r with
  | ok ws a => exact applyWrites_events s ws
  | err c => rfl

@[simp] theorem finish_reply (s : State) (r : Result) : (finish s r).reply = s.reply := by
  cases r with
  | ok ws a => exact applyWrites_reply s ws
  | err c => rfl

@[simp] theorem finish_tick (s : State) (r : Result) : (finish s r).tick = s.tick := by
  cases r with
  | ok ws a => exact applyWrites_tick s ws
  | err c => rfl

@[simp] theorem finish_epoch (s : State) (r : Result) : (finish s r).epoch = s.epoch := by
  cases r with
  | ok ws a => exact applyWrites_epoch s ws
  | err c => rfl

@[simp] theorem finish_ok_key (s : State) (ws : List Write) (a : Bool) :
    (finish s (.ok ws a)).key = (applyWrites s ws).key := rfl

@[simp] theorem finish_err_key (s : State) (c : ErrCode) : (finish s (.err c)).key = s.key := rfl

@[simp] theorem finish_ok_nonce (s : State) (ws : List Write) (a : Bool) :
    (finish s (.ok ws a)).nonce = (applyWrites s ws).nonce := rfl

@[simp] theorem finish_err_nonce (s : State) (c : ErrCode) : (finish s (.err c)).nonce = s.nonce := rfl

@[simp] theorem finish_ok_tag (s : State) (ws : List Write) (a : Bool) :
    (finish s (.ok ws a)).tag = (applyWrites s ws).tag := rfl

@[simp] theorem finish_err_tag (s : State) (c : ErrCode) : (finish s (.err c)).tag = s.tag := rfl

@[simp] theorem finish_ok_gfz (s : State) (ws : List Write) (a : Bool) :
    (finish s (.ok ws a)).gfz = (applyWrites s ws).gfz := rfl

@[simp] theorem finish_err_gfz (s : State) (c : ErrCode) : (finish s (.err c)).gfz = s.gfz := rfl

@[simp] theorem finish_ok_cnt (s : State) (ws : List Write) (a : Bool) :
    (finish s (.ok ws a)).cnt = (applyWrites s ws).cnt := rfl

@[simp] theorem finish_err_cnt (s : State) (c : ErrCode) : (finish s (.err c)).cnt = s.cnt := rfl

@[simp] theorem finish_ok_blk (s : State) (ws : List Write) (a : Bool) :
    (finish s (.ok ws a)).blk = (applyWrites s ws).blk := rfl

@[simp] theorem finish_err_blk (s : State) (c : ErrCode) : (finish s (.err c)).blk = s.blk := rfl

@[simp] theorem finish_ok_kd (s : State) (ws : List Write) (a : Bool) :
    (finish s (.ok ws a)).kd = (applyWrites s ws).kd := rfl

@[simp] theorem finish_err_kd (s : State) (c : ErrCode) : (finish s (.err c)).kd = s.kd := rfl

@[simp] theorem finish_ok_dbuf (s : State) (ws : List Write) (a : Bool) :
    (finish s (.ok ws a)).dbuf = (applyWrites s ws).dbuf := rfl

@[simp] theorem finish_err_dbuf (s : State) (c : ErrCode) : (finish s (.err c)).dbuf = s.dbuf := rfl

@[simp] theorem finish_ok_status (s : State) (ws : List Write) (a : Bool) :
    (finish s (.ok ws a)).status = s.status.completedOk a := rfl

@[simp] theorem finish_err_status (s : State) (c : ErrCode) : (finish s (.err c)).status = s.status.completedErr c := rfl

@[simp] theorem finish_ok_irqStatus (s : State) (ws : List Write) (a : Bool) :
    (finish s (.ok ws a)).irqStatus = s.irqStatus.completedOk := rfl

@[simp] theorem finish_err_irqStatus (s : State) (c : ErrCode) :
    (finish s (.err c)).irqStatus = s.irqStatus.completedErr := rfl

/-- A failed command changes nothing but its flags (R102). -/
theorem finish_err (s : State) (c : ErrCode) :
    finish s (.err c) = { s with status := s.status.completedErr c, irqStatus := s.irqStatus.completedErr } := rfl

/-- A completion clears BUSY and sets DONE and CMPL, whatever the result (R101). -/
theorem finish_flags (s : State) (r : Result) :
    (finish s r).status.busy = false ∧ (finish s r).status.done = true ∧ (finish s r).irqStatus.cmpl = true ∧
      (finish s r).status.wign = s.status.wign := by
  cases r <;> exact ⟨rfl, rfl, rfl, rfl⟩

end Sys2Proof.Machine
end

