-- ==== Sys2Proof/Laws/Memory.lean ====
section
/-! SUPPORT. DBUF: read after write, the canonical form, and that every memory operation keeps it. -/

namespace Sys2Proof.Machine

/-- Every listed address lies below a bound. -/
def Memory.below (m : Memory) (n : Nat) : Prop := ∀ c ∈ m, c.1 < n

/-! ### One octet -/

theorem Memory.lookup_write_same (m : Memory) (a : Nat) (v : Byte) :
    Memory.lookup (Memory.write m a v) a = some v := by
  induction m with
  | nil => simp [Memory.write, Memory.lookup]
  | cons c m ih =>
    obtain ⟨c, o⟩ := c
    simp only [Memory.write]
    split
    · simp [Memory.lookup]
    · split
      · simp [Memory.lookup]
      · have : c ≠ a := fun h => by omega
        simp [Memory.lookup, this, ih]

theorem Memory.lookup_write_other (m : Memory) {a x : Nat} (v : Byte) (h : x ≠ a) :
    Memory.lookup (Memory.write m a v) x = Memory.lookup m x := by
  induction m with
  | nil => simp [Memory.write, Memory.lookup, h.symm]
  | cons c m ih =>
    obtain ⟨c, o⟩ := c
    simp only [Memory.write]
    split
    · simp [Memory.lookup, h.symm]
    · split
      · rename_i h2
        subst h2
        simp [Memory.lookup, h.symm]
      · simp [Memory.lookup, ih]

theorem Memory.mem_write {m : Memory} {a : Nat} {v : Byte} {c : Host.Cell} (h : c ∈ Memory.write m a v) :
    c = (a, v) ∨ c ∈ m := by
  induction m with
  | nil => simpa [Memory.write] using h
  | cons d m ih =>
    obtain ⟨d, o⟩ := d
    simp only [Memory.write] at h
    split at h
    · simpa using h
    · split at h
      · rcases List.mem_cons.mp h with h | h
        · exact .inl h
        · exact .inr (List.mem_cons_of_mem _ h)
      · rcases List.mem_cons.mp h with h | h
        · exact .inr (by simp [h])
        · rcases ih h with h | h
          · exact .inl h
          · exact .inr (List.mem_cons_of_mem _ h)

theorem Memory.write_rising {m : Memory} (h : (m.map Prod.fst).Pairwise (· < ·)) (a : Nat) (v : Byte) :
    ((Memory.write m a v).map Prod.fst).Pairwise (· < ·) := by
  induction m with
  | nil => simp [Memory.write]
  | cons c m ih =>
    obtain ⟨c, o⟩ := c
    simp only [List.map_cons, List.pairwise_cons] at h
    simp only [Memory.write]
    split
    · rename_i hac
      simp only [List.map_cons, List.pairwise_cons]
      refine ⟨?_, h⟩
      intro x hx
      rcases List.mem_cons.mp hx with rfl | hx
      · exact hac
      · exact lt_trans hac (h.1 x hx)
    · split
      · rename_i h2
        subst h2
        simpa using h
      · simp only [List.map_cons, List.pairwise_cons]
        refine ⟨?_, ih h.2⟩
        intro x hx
        obtain ⟨y, hy, rfl⟩ := List.mem_map.mp hx
        rcases Memory.mem_write hy with rfl | hy
        · show c < a
          omega
        · exact h.1 _ (List.mem_map_of_mem hy)

theorem Memory.wf_nil : Memory.wf [] := ⟨List.Pairwise.nil, by simp⟩

/-- Writing one octet keeps the canonical form. -/
theorem Memory.wf_write {m : Memory} (h : Memory.wf m) (a : Nat) (v : Byte) : Memory.wf (Memory.write m a v) :=
  ⟨Memory.write_rising h.1 a v, fun _ _ => by simp [Memory.unlisted]⟩

theorem Memory.below_write {m : Memory} {n a : Nat} (h : Memory.below m n) (ha : a < n) (v : Byte) :
    Memory.below (Memory.write m a v) n := by
  intro c hc
  rcases Memory.mem_write hc with rfl | hc
  · exact ha
  · exact h c hc

/-! ### A string of octets -/

/-- Writing a string of octets keeps the canonical form. -/
theorem Memory.wf_writeOctets {m : Memory} (h : Memory.wf m) (a : Nat) (v : Octets) :
    Memory.wf (Memory.writeOctets m a v) := by
  induction v generalizing m a with
  | nil => exact h
  | cons o v ih => exact ih (Memory.wf_write h a o) (a + 1)

theorem Memory.below_writeOctets {m : Memory} {n a : Nat} (h : Memory.below m n) (v : Octets)
    (ha : v = [] ∨ a + v.length ≤ n) : Memory.below (Memory.writeOctets m a v) n := by
  induction v generalizing m a with
  | nil => exact h
  | cons o v ih =>
    have ha' : a + (v.length + 1) ≤ n := by simpa using ha
    exact ih (Memory.below_write h (by omega) o) (.inr (by omega))

theorem Memory.lookup_writeOctets_outside (m : Memory) (a : Nat) (v : Octets) {x : Nat}
    (h : x < a ∨ a + v.length ≤ x) : Memory.lookup (Memory.writeOctets m a v) x = Memory.lookup m x := by
  induction v generalizing m a with
  | nil => rfl
  | cons o v ih =>
    simp only [List.length_cons] at h
    rw [Memory.writeOctets, ih _ _ (by omega), Memory.lookup_write_other _ _ (by omega)]

theorem Memory.lookup_writeOctets_inside (m : Memory) (a : Nat) (v : Octets) {i : Nat} (h : i < v.length) :
    Memory.lookup (Memory.writeOctets m a v) (a + i) = some v[i] := by
  induction v generalizing m a i with
  | nil => simp at h
  | cons o v ih =>
    rw [Memory.writeOctets]
    cases i with
    | zero =>
      rw [Memory.lookup_writeOctets_outside _ _ _ (by omega)]
      simpa using Memory.lookup_write_same m a o
    | succ i =>
      rw [show a + (i + 1) = a + 1 + i by omega, ih _ _ (by simpa using h)]
      rfl

/-- Equal memories are equal data: canonical lists with the same content are the same list. -/
theorem Memory.wf_ext {m m' : Memory} (h : Memory.wf m) (h' : Memory.wf m')
    (hl : ∀ a, Memory.lookup m a = Memory.lookup m' a) : m = m' := by
  have none_of_lt : ∀ (m : Memory) (a : Nat), (∀ c ∈ m, a < c.1) → Memory.lookup m a = none := by
    intro m a hm
    induction m with
    | nil => rfl
    | cons c m ih =>
      obtain ⟨c, o⟩ := c
      have hc : a < c := hm (c, o) (by simp)
      simp only [Memory.lookup, if_neg (show c ≠ a by omega)]
      exact ih fun d hd => hm d (by simp [hd])
  obtain ⟨h, -⟩ := h
  obtain ⟨h', -⟩ := h'
  induction m generalizing m' with
  | nil =>
    cases m' with
    | nil => rfl
    | cons c m' => obtain ⟨c, o⟩ := c; simpa [Memory.lookup] using hl c
  | cons c m ih =>
    obtain ⟨c, o⟩ := c
    cases m' with
    | nil => simpa [Memory.lookup] using hl c
    | cons d m' =>
      obtain ⟨d, p⟩ := d
      simp only [List.map_cons, List.pairwise_cons, List.mem_map, forall_exists_index, and_imp,
        forall_apply_eq_imp_iff₂] at h h'
      have hcd : c = d := by
        rcases Nat.lt_trichotomy c d with hlt | heq | hgt
        · have h1 := hl c
          rw [none_of_lt ((d, p) :: m') c ?_] at h1
          · simp [Memory.lookup] at h1
          · intro e he
            rcases List.mem_cons.mp he with rfl | he
            · exact hlt
            · exact lt_trans hlt (h'.1 e he)
        · exact heq
        · have h1 := hl d
          rw [none_of_lt ((c, o) :: m) d ?_] at h1
          · simp [Memory.lookup] at h1
          · intro e he
            rcases List.mem_cons.mp he with rfl | he
            · exact hgt
            · exact lt_trans hgt (h.1 e he)
      subst hcd
      have hop : o = p := by simpa [Memory.lookup] using hl c
      subst hop
      congr 1
      apply ih _ h.2 h'.2
      intro a
      by_cases hac : c = a
      · subst hac
        rw [none_of_lt m c h.1, none_of_lt m' c h'.1]
      · simpa [Memory.lookup, hac] using hl a

/-! ### DBUF as the commands and the host see it -/

theorem octet_memWrite_inside (P : Params) (s : State) (a : Nat) (v : Octets) {i : Nat} (h : i < v.length) :
    (memWrite s a v).octet P (a + i) = v[i] := by
  simp [State.octet, Memory.lookup_writeOctets_inside _ _ _ h]

theorem octet_memWrite_outside (P : Params) (s : State) (a : Nat) (v : Octets) {x : Nat}
    (h : x < a ∨ a + v.length ≤ x) : (memWrite s a v).octet P x = s.octet P x := by
  simp [State.octet, Memory.lookup_writeOctets_outside _ _ _ h]

@[simp] theorem memRead_length (P : Params) (s : State) (a n : Nat) : (memRead P s a n).length = n := by
  simp [memRead]

theorem memRead_getElem (P : Params) (s : State) (a n i : Nat) (h : i < (memRead P s a n).length) :
    (memRead P s a n)[i] = s.octet P (a + i) := by
  simp [memRead]

/-- What a command or the host writes is what it then reads. -/
theorem memRead_memWrite_same (P : Params) (s : State) (a : Nat) (v : Octets) :
    memRead P (memWrite s a v) a v.length = v := by
  apply List.ext_getElem
  · simp
  · intro i h1 h2
    rw [memRead_getElem, octet_memWrite_inside P s a v h2]

/-- A region apart from the octets written reads as before. -/
theorem memRead_memWrite_disjoint (P : Params) (s : State) (a : Nat) (v : Octets) (b n : Nat)
    (h : b + n ≤ a ∨ a + v.length ≤ b) : memRead P (memWrite s a v) b n = memRead P s b n := by
  apply List.ext_getElem
  · simp
  · intro i h1 h2
    simp only [memRead_length] at h1
    rw [memRead_getElem, memRead_getElem, octet_memWrite_outside P s a v (by omega)]

/-- Two states with the same listed octets, read under the same reset, have the same DBUF. -/
theorem octet_congr (P : Params) {s t : State} (hd : s.dbuf = t.dbuf) (he : s.epoch = t.epoch) (a : Nat) :
    s.octet P a = t.octet P a := by simp [State.octet, hd, he]

theorem memRead_congr (P : Params) {s t : State} (hd : s.dbuf = t.dbuf) (he : s.epoch = t.epoch) (a n : Nat) :
    memRead P s a n = memRead P t a n := by simp [memRead, octet_congr P hd he]

theorem reset_memory_wf : Memory.wf State.reset.dbuf := Memory.wf_nil

end Sys2Proof.Machine
end

