-- ==== Sys2Proof/Laws/Octets.lean ====
section
/-! SUPPORT. What the octet-string operations do: lengths, round trips between octets and integers, chunks, exclusive or,
comparison. -/

namespace Sys2Proof.Machine

/-! ### Block sizes -/

@[simp] theorem blockOctets_b8 : blockOctets .b8 = 8 := rfl

@[simp] theorem blockOctets_b16 : blockOctets .b16 = 16 := rfl

@[simp] theorem halfOctets_b8 : halfOctets .b8 = 4 := rfl

@[simp] theorem halfOctets_b16 : halfOctets .b16 = 8 := rfl

theorem blockOctets_pos (b : BlockSize) : 0 < blockOctets b := by cases b <;> decide

theorem blockOctets_le (b : BlockSize) : blockOctets b ≤ 16 := by cases b <;> decide

theorem halfOctets_add_half (b : BlockSize) : halfOctets b + halfOctets b = blockOctets b := by cases b <;> rfl

/-! ### Integers and octet strings -/

@[simp] theorem toBe_length (v L : Nat) : (toBe v L).length = L := by
  induction L with
  | zero => rfl
  | succ L ih => simp [toBe, ih]

theorem fromBe_lt (s : Octets) : fromBe s < 256 ^ s.length := by
  induction s with
  | nil => simp [fromBe]
  | cons o s ih =>
    have ho : o.toNat < 256 := o.isLt
    simp only [fromBe, List.length_cons, pow_succ]
    have hp : 0 < 256 ^ s.length := by positivity
    nlinarith

theorem fromBe_append (s t : Octets) : fromBe (s ++ t) = fromBe s * 256 ^ t.length + fromBe t := by
  induction s with
  | nil => simp [fromBe]
  | cons o s ih => simp only [List.cons_append, fromBe, ih, List.length_append, pow_add]; ring

theorem fromBe_zeros (k : Nat) : fromBe (zeros k) = 0 := by
  induction k with
  | zero => rfl
  | succ k ih => simpa [zeros, List.replicate_succ, fromBe] using ih

@[simp] theorem zeros_length (k : Nat) : (zeros k).length = k := by simp [zeros]

theorem fromBe_toBe (v L : Nat) : fromBe (toBe v L) = v % 256 ^ L := by
  induction L with
  | zero => simp [toBe, fromBe, Nat.mod_one]
  | succ L ih =>
    simp only [toBe, fromBe, ih, toBe_length, BitVec.toNat_ofNat]
    have h := Nat.mod_mul (a := 256 ^ L) (b := 256) (x := v)
    rw [pow_succ 256 L, h, show (2 : Nat) ^ 8 = 256 by rfl, Nat.mul_comm, Nat.add_comm]

theorem toBe_add_mul (u v L : Nat) : toBe (u * 256 ^ L + v) L = toBe v L := by
  induction L generalizing u with
  | zero => rfl
  | succ L ih =>
    have h1 : (u * 256 ^ (L + 1) + v) / 256 ^ L = u * 256 + v / 256 ^ L := by
      rw [pow_succ, show u * (256 ^ L * 256) + v = v + 256 ^ L * (u * 256) by ring,
        Nat.add_mul_div_left _ _ (by positivity)]
      omega
    have h2 : u * 256 ^ (L + 1) + v = (u * 256) * 256 ^ L + v := by ring
    simp only [toBe]
    rw [h1, h2, ih]
    congr 1
    apply BitVec.eq_of_toNat_eq
    simp

theorem toBe_mod (v L : Nat) : toBe (v % 256 ^ L) L = toBe v L := by
  conv_rhs => rw [← Nat.div_add_mod v (256 ^ L), Nat.mul_comm, toBe_add_mul]

theorem toBe_append (v m L : Nat) : toBe v (m + L) = toBe (v / 256 ^ L) m ++ toBe v L := by
  induction m with
  | zero => simp [toBe]
  | succ m ih =>
    rw [show m + 1 + L = (m + L) + 1 by omega]
    simp only [toBe, ih, List.cons_append]
    rw [pow_add, Nat.mul_comm (256 ^ m), ← Nat.div_div_eq_div_mul]

theorem toBe_fromBe (s : Octets) : toBe (fromBe s) s.length = s := by
  induction s with
  | nil => rfl
  | cons o s ih =>
    have hlt := fromBe_lt s
    simp only [List.length_cons, toBe, fromBe]
    rw [toBe_add_mul, ih]
    congr 1
    rw [Nat.add_comm, Nat.add_mul_div_right _ _ (by positivity), Nat.div_eq_of_lt hlt]
    simp

theorem fromBe_inj {s t : Octets} (hl : s.length = t.length) (h : fromBe s = fromBe t) : s = t := by
  rw [← toBe_fromBe s, ← toBe_fromBe t, hl, h]

/-! ### Registers and octet strings -/

@[simp] theorem octetsOf_length {n : Nat} (r : BitVec n) : (octetsOf r).length = n / 8 := by simp [octetsOf]

theorem fromBe_octetsOf {m : Nat} (r : BitVec (8 * m)) : fromBe (octetsOf r) = r.toNat := by
  have h : 256 ^ m = 2 ^ (8 * m) := by rw [show (256 : Nat) = 2 ^ 8 by rfl, ← pow_mul]
  simp only [octetsOf, fromBe_toBe, show 8 * m / 8 = m by omega, h]
  exact Nat.mod_eq_of_lt r.isLt

theorem ofOctets_octetsOf {m : Nat} (r : BitVec (8 * m)) : ofOctets (8 * m) (octetsOf r) = r := by
  simp [ofOctets, fromBe_octetsOf]

theorem ofOctets_octetsOf_of {n m : Nat} (h : n = 8 * m) (r : BitVec n) : ofOctets n (octetsOf r) = r := by
  subst h
  exact ofOctets_octetsOf r

theorem octetsOf_ofOctets {m : Nat} {s : Octets} (hs : s.length = m) : octetsOf (ofOctets (8 * m) s) = s := by
  have h : 256 ^ m = 2 ^ (8 * m) := by rw [show (256 : Nat) = 2 ^ 8 by rfl, ← pow_mul]
  have hlt := fromBe_lt s
  rw [hs, h] at hlt
  simp only [octetsOf, ofOctets, BitVec.toNat_ofNat, Nat.mod_eq_of_lt hlt, show 8 * m / 8 = m by omega]
  rw [← hs, toBe_fromBe]

/-! ### Slices -/

theorem slice_zero (s : Octets) (n : Nat) : slice s 0 n = s.take n := by simp [slice]

@[simp] theorem slice_length (s : Octets) (a b : Nat) : (slice s a b).length = min (b - a) (s.length - a) := by
  simp [slice]

/-! ### Exclusive or (R111) -/

@[simp] theorem xorOctets_length (x y : Octets) : (xorOctets x y).length = min x.length y.length := by
  simp [xorOctets]

theorem xorOctets_getElem (x y : Octets) (i : Nat) (h : i < (xorOctets x y).length) :
    (xorOctets x y)[i] = x[i]'(by simp at h; omega) ^^^ y[i]'(by simp at h; omega) := by
  simp [xorOctets]

theorem xorOctets_comm (x y : Octets) : xorOctets x y = xorOctets y x := by
  apply List.ext_getElem
  · simp [Nat.min_comm]
  · intro i h1 h2
    rw [xorOctets_getElem, xorOctets_getElem, BitVec.xor_comm]

theorem xorOctets_assoc (x y z : Octets) : xorOctets (xorOctets x y) z = xorOctets x (xorOctets y z) := by
  apply List.ext_getElem
  · simp [Nat.min_assoc]
  · intro i h1 h2
    simp only [xorOctets_getElem, BitVec.xor_assoc]

/-- Applying the same keystream twice gives the string back, if the keystream is long enough. -/
theorem xorOctets_xorOctets_self (x k : Octets) (h : x.length ≤ k.length) : xorOctets (xorOctets x k) k = x := by
  apply List.ext_getElem
  · simp; omega
  · intro i h1 h2
    simp [xorOctets_getElem]

/-! ### The top bit and the counters (R113–R115) -/

@[simp] theorem msbClear_length (s : Octets) : (msbClear s).length = s.length := by cases s <;> rfl

@[simp] theorem msbSet_length (s : Octets) : (msbSet s).length = s.length := by cases s <;> rfl

theorem incrLeft_length (b : BlockSize) {c : Octets} (hc : c.length = blockOctets b) :
    (incrLeft b c).length = blockOctets b := by
  have := halfOctets_add_half b
  simp [incrLeft, hc]; omega

theorem incrRight_length (b : BlockSize) {c : Octets} (hc : c.length = blockOctets b) :
    (incrRight b c).length = blockOctets b := by
  have := halfOctets_add_half b
  simp [incrRight, hc]; omega

/-! ### Comparison (R116) -/

theorem ctDifference_zero_iff (x y : Octets) (T : Nat) :
    ctDifference x y T = 0#8 ↔ ∀ i < T, x.getD i 0#8 = y.getD i 0#8 := by
  induction T with
  | zero => simp [ctDifference]
  | succ T ih =>
    have hstep : ctDifference x y (T + 1) = ctDifference x y T ||| (x.getD T 0#8 ^^^ y.getD T 0#8) := by
      simp [ctDifference, List.range_succ]
    rw [hstep, BitVec.or_eq_zero_iff, ih, BitVec.xor_eq_zero_iff]
    constructor
    · rintro ⟨h1, h2⟩ i hi
      rcases Nat.lt_succ_iff_lt_or_eq.mp hi with h | rfl
      · exact h1 i h
      · exact h2
    · intro h
      exact ⟨fun i hi => h i (by omega), h T (by omega)⟩

theorem ctEqual_iff (x y : Octets) (T : Nat) :
    ctEqual x y T = true ↔ ∀ i < T, x.getD i 0#8 = y.getD i 0#8 := by
  simp [ctEqual, ctDifference_zero_iff]

/-- The functional result of R116: the first T octets agree. -/
theorem ctEqual_iff_take (x y : Octets) (T : Nat) (hx : T ≤ x.length) (hy : T ≤ y.length) :
    ctEqual x y T = true ↔ x.take T = y.take T := by
  rw [ctEqual_iff]
  constructor
  · intro h
    apply List.ext_getElem
    · simp; omega
    · intro i h1 h2
      have hi : i < T := by simp at h1; omega
      have := h i hi
      rw [List.getD_eq_getElem _ _ (by omega), List.getD_eq_getElem _ _ (by omega)] at this
      simpa using this
  · intro h i hi
    have := congrArg (fun l => l.getD i 0#8) h
    simpa [List.getD_eq_getElem?_getD, List.getElem?_take, hi] using this

/-! ### Chunks and padding (R112, R117) -/

@[simp] theorem chunks_nil (b : BlockSize) : chunks b [] = [] := by cases b <;> rfl

/-- A non-empty string is cut into its first bs octets and the chunks of the rest. -/
theorem chunks_cons (b : BlockSize) {s : Octets} (hs : s ≠ []) :
    chunks b s = s.take (blockOctets b) :: chunks b (s.drop (blockOctets b)) := by
  have hpos := blockOctets_pos b
  have hlen : 0 < s.length := List.length_pos_iff.mpr hs
  obtain ⟨bs, hbs⟩ : ∃ n, n = blockOctets b := ⟨_, rfl⟩
  have hcount : (s.length + bs - 1) / bs = ((s.drop bs).length + bs - 1) / bs + 1 := by
    rw [List.length_drop]
    by_cases h : bs ≤ s.length
    · rw [show s.length + bs - 1 = (s.length - bs + bs - 1) + bs by omega, Nat.add_div_right _ (by omega)]
    · rw [show s.length - bs + bs - 1 = bs - 1 by omega, Nat.div_eq_of_lt (show bs - 1 < bs by omega),
        show s.length + bs - 1 = (s.length - 1) + bs by omega, Nat.add_div_right _ (by omega),
        Nat.div_eq_of_lt (by omega)]
  unfold chunks
  rw [← hbs, hcount, List.range_succ_eq_map, List.map_cons, List.map_map]
  congr 1
  · simp [slice, List.take_eq_take_iff]
  · apply List.map_congr_left
    intro j _
    simp only [Function.comp, slice, List.drop_drop, List.length_drop]
    rw [show bs + j * bs = (j + 1) * bs by ring]
    have h1 : (j + 1 + 1) * bs = j * bs + bs + bs := by ring
    have h2 : (j + 1) * bs = j * bs + bs := by ring
    have hc : min ((j + 1 + 1) * bs) s.length - (j + 1) * bs = min ((j + 1) * bs) (s.length - bs) - j * bs := by
      omega
    simp only [Nat.succ_eq_add_one, hc]

theorem chunks_flatten (b : BlockSize) (s : Octets) : (chunks b s).flatten = s := by
  induction hn : s.length using Nat.strong_induction_on generalizing s with
  | _ n ih =>
    by_cases hs : s = []
    · simp [hs]
    · have hlen : 0 < s.length := List.length_pos_iff.mpr hs
      have hpos := blockOctets_pos b
      rw [chunks_cons b hs, List.flatten_cons, ih _ (by simp; omega) (s.drop (blockOctets b)) rfl,
        List.take_append_drop]

/-- Every chunk has 1 to bs octets. -/
theorem chunks_length_bounds (b : BlockSize) (s : Octets) :
    ∀ c ∈ chunks b s, 0 < c.length ∧ c.length ≤ blockOctets b := by
  induction hn : s.length using Nat.strong_induction_on generalizing s with
  | _ n ih =>
    by_cases hs : s = []
    · simp [hs]
    · have hlen : 0 < s.length := List.length_pos_iff.mpr hs
      have hpos := blockOctets_pos b
      rw [chunks_cons b hs]
      intro c hc
      rcases List.mem_cons.mp hc with rfl | hc
      · simp; omega
      · exact ih _ (by simp; omega) (s.drop (blockOctets b)) rfl c hc

/-- On a chunk, pad1 gives exactly one block (R112). -/
theorem pad1_length (b : BlockSize) {c : Octets} (h1 : 0 < c.length) (h2 : c.length ≤ blockOctets b) :
    (pad1 b c).length = blockOctets b := by
  rcases Nat.lt_or_ge c.length (blockOctets b) with h | h
  · simp only [pad1, List.length_append, zeros_length, Nat.mod_eq_of_lt h]
    rw [Nat.mod_eq_of_lt (by omega)]
    omega
  · have he : c.length = blockOctets b := by omega
    simp [pad1, he]

/-! ### Cipher and multiplier blocks (R118, R171) -/

theorem bc_length (P : Params) (b : BlockSize) (k : Key) (x : Octets) : (bc P b k x).length = blockOctets b := by
  cases b <;> simp [bc]

theorem gfmulOctets_length (b : BlockSize) (x y : Octets) : (gfmulOctets b x y).length = blockOctets b := by
  cases b <;> simp [gfmulOctets]

/-! ### Words of a register (R21) -/

theorem wordOf_setWordOf_same {n k : Nat} (hk : 32 * (k + 1) ≤ n) (r : BitVec n) (w : Word) :
    wordOf (setWordOf r k w) k = w := by
  apply BitVec.eq_of_getLsbD_eq
  intro i hi
  simp only [wordOf, setWordOf, BitVec.getLsbD_extractLsb', BitVec.getLsbD_or, BitVec.getLsbD_and,
    BitVec.getLsbD_not, BitVec.getLsbD_shiftLeft, BitVec.getLsbD_setWidth, BitVec.getLsbD_allOnes]
  have h1 : n - 32 * (k + 1) + i < n := by omega
  have h2 : n - 32 * (k + 1) + i - (n - 32 * (k + 1)) = i := by omega
  have h3 : i < n := by omega
  simp [hi, h1, h2, h3]

theorem wordOf_setWordOf_other {n j k : Nat} (hj : 32 * (j + 1) ≤ n) (hk : 32 * (k + 1) ≤ n) (hjk : j ≠ k)
    (r : BitVec n) (w : Word) : wordOf (setWordOf r k w) j = wordOf r j := by
  apply BitVec.eq_of_getLsbD_eq
  intro i hi
  simp only [wordOf, setWordOf, BitVec.getLsbD_extractLsb', BitVec.getLsbD_or, BitVec.getLsbD_and,
    BitVec.getLsbD_not, BitVec.getLsbD_shiftLeft, BitVec.getLsbD_setWidth, BitVec.getLsbD_allOnes]
  have h1 : n - 32 * (j + 1) + i < n := by omega
  rcases Nat.lt_or_gt_of_ne hjk with h | h
  · have h2 : ¬ (n - 32 * (j + 1) + i < n - 32 * (k + 1)) := by omega
    have h3 : 32 ≤ n - 32 * (j + 1) + i - (n - 32 * (k + 1)) := by omega
    simp [h1, h2, hi, BitVec.getLsbD_of_ge w _ h3, Nat.not_lt.mpr h3]
  · have h2 : n - 32 * (j + 1) + i < n - 32 * (k + 1) := by omega
    simp [h1, h2, hi]

end Sys2Proof.Machine
end

