-- ==== Sys2Proof/Laws/Registers.lean ====
section
/-! SUPPORT. Octet strings against bit vectors: what reading and writing a block of a register means on its bits, and
what the octet operations mean there. -/

namespace Sys2Proof.Machine

/-- A register cut into two at an octet boundary is the concatenation of the two octet strings (R21). -/
theorem octetsOf_append {m n : Nat} (x : BitVec (8 * m)) (y : BitVec (8 * n)) :
    octetsOf (n := 8 * m + 8 * n) (x ++ y) = octetsOf x ++ octetsOf y := by
  have h : (2 : Nat) ^ (8 * n) = 256 ^ n := by rw [show (256 : Nat) = 2 ^ 8 by rfl, ← pow_mul]
  have hy : y.toNat < 256 ^ n := by rw [← h]; exact y.isLt
  have hv : (x ++ y).toNat = x.toNat * 256 ^ n + y.toNat := by
    rw [BitVec.toNat_append, ← h, Nat.shiftLeft_eq, ← Nat.shiftLeft_eq, Nat.shiftLeft_add_eq_or_of_lt y.isLt]
  simp only [octetsOf, show (8 * m + 8 * n) / 8 = m + n by omega, show 8 * m / 8 = m by omega,
    show 8 * n / 8 = n by omega, hv]
  rw [toBe_append, toBe_add_mul, Nat.add_comm, Nat.add_mul_div_right _ _ (by positivity), Nat.div_eq_of_lt hy,
    Nat.zero_add]

theorem ofOctets_append {m n : Nat} {x y : Octets} (hx : x.length = m) (hy : y.length = n) :
    ofOctets (8 * m + 8 * n) (x ++ y) = ofOctets (8 * m) x ++ ofOctets (8 * n) y := by
  have h : octetsOf (n := 8 * m + 8 * n) (ofOctets (8 * m) x ++ ofOctets (8 * n) y) = x ++ y := by
    rw [octetsOf_append, octetsOf_ofOctets hx, octetsOf_ofOctets hy]
  rw [← h]
  exact ofOctets_octetsOf_of (m := m + n) (by ring) _

/-- A block register by its two halves. -/
theorem block_split (r : Block) : r = (r.extractLsb' 64 64 ++ r.extractLsb' 0 64 : BitVec (64 + 64)) := by
  apply BitVec.eq_of_getLsbD_eq
  intro i hi
  rw [BitVec.getLsbD_append]
  simp only [BitVec.getLsbD_extractLsb']
  by_cases h : i < 64
  · simp [h]
  · simp [h, show i - 64 < 64 by omega, show 64 + (i - 64) = i by omega]

/-- An 8-octet block by its two halves. -/
theorem half_split (r : BitVec 64) : r = (r.extractLsb' 32 32 ++ r.extractLsb' 0 32 : BitVec (32 + 32)) := by
  apply BitVec.eq_of_getLsbD_eq
  intro i hi
  rw [BitVec.getLsbD_append]
  simp only [BitVec.getLsbD_extractLsb']
  by_cases h : i < 32
  · simp [h]
  · simp [h, show i - 32 < 32 by omega, show 32 + (i - 32) = i by omega]

/-! ### Reading a block (R108) -/

theorem blockOf_b16 (r : Block) : blockOf .b16 r = octetsOf r := by
  rw [blockOf, slice_zero, List.take_of_length_le (by simp)]

theorem blockOf_b8 (r : Block) : blockOf .b8 r = octetsOf (r.extractLsb' 64 64) := by
  conv_lhs => rw [block_split r]
  rw [blockOf, slice_zero]
  show ((octetsOf (n := 8 * 8 + 8 * 8) (r.extractLsb' 64 64 ++ r.extractLsb' 0 64)).take 8) = _
  rw [octetsOf_append (m := 8) (n := 8), List.take_append_of_le_length (by simp), List.take_of_length_le (by simp)]

theorem blockOf_length (b : BlockSize) (r : Block) : (blockOf b r).length = blockOctets b := by
  cases b <;> simp [blockOf]

/-! ### Writing a block (R109) -/

theorem setBlock_b16 (v : Block) : setBlock .b16 (octetsOf v) = v := by
  simpa [setBlock, zeros] using ofOctets_octetsOf (m := 16) v

theorem setBlock_b8 (v : BitVec 64) : setBlock .b8 (octetsOf v) = (v ++ 0#64 : BitVec (64 + 64)) := by
  have h := ofOctets_append (m := 8) (n := 8) (x := octetsOf v) (y := zeros 8) (by simp) (by simp)
  rw [ofOctets_octetsOf (m := 8) v] at h
  exact h

/-! ### The cipher and the multiplier on registers -/

theorem bc_b16 (P : Params) (k : Key) (x : Block) : bc P .b16 k (octetsOf x) = octetsOf (P.bc16 k x) := by
  rw [bc, ofOctets_octetsOf (m := 16) x]

theorem bc_b8 (P : Params) (k : Key) (x : BitVec 64) : bc P .b8 k (octetsOf x) = octetsOf (P.bc8 k x) := by
  rw [bc, ofOctets_octetsOf (m := 8) x]

theorem gfmulOctets_b16 (x y : Block) : gfmulOctets .b16 (octetsOf x) (octetsOf y) = octetsOf (gfmul128 x y) := by
  rw [gfmulOctets, ofOctets_octetsOf (m := 16) x, ofOctets_octetsOf (m := 16) y]

theorem gfmulOctets_b8 (x y : BitVec 64) : gfmulOctets .b8 (octetsOf x) (octetsOf y) = octetsOf (gfmul64 x y) := by
  rw [gfmulOctets, ofOctets_octetsOf (m := 8) x, ofOctets_octetsOf (m := 8) y]

/-! ### Single octets of a register -/

/-- Octet i of a register of m octets is bits [8(m−i)−1 : 8(m−i−1)] (R10, R21). -/
theorem octetsOf_getElem {m : Nat} (r : BitVec (8 * m)) (i : Nat) (h : i < (octetsOf r).length) :
    (octetsOf r)[i] = r.extractLsb' (8 * (m - 1 - i)) 8 := by
  have aux : ∀ (v L i : Nat) (h : i < (toBe v L).length), (toBe v L)[i] = BitVec.ofNat 8 (v / 256 ^ (L - 1 - i)) := by
    intro v L
    induction L with
    | zero => intro i h; simp at h
    | succ L ih =>
      intro i h
      cases i with
      | zero => simp [toBe]
      | succ i =>
        simp only [toBe, List.getElem_cons_succ]
        rw [ih]
        congr 3
        omega
  have hm : i < m := by simpa using h
  simp only [octetsOf]
  rw [aux]
  apply BitVec.eq_of_toNat_eq
  rw [BitVec.extractLsb'_toNat, BitVec.toNat_ofNat, Nat.shiftRight_eq_div_pow, show 8 * m / 8 = m by omega,
    show (256 : Nat) = 2 ^ 8 by rfl, ← pow_mul]

/-- Exclusive or of octet strings is exclusive or of the registers. -/
theorem xorOctets_octetsOf {m : Nat} (x y : BitVec (8 * m)) :
    xorOctets (octetsOf x) (octetsOf y) = octetsOf (x ^^^ y) := by
  apply List.ext_getElem
  · simp
  · intro i h1 h2
    rw [xorOctets_getElem, octetsOf_getElem, octetsOf_getElem, octetsOf_getElem]
    apply BitVec.eq_of_getLsbD_eq
    intro j hj
    simp [hj]

/-! ### The counters on registers (R114, R115) -/

theorem incrLeft_octetsOf {b : BlockSize} {m : Nat} (hm : m = halfOctets b) (x y : BitVec (8 * m)) :
    incrLeft b (octetsOf (n := 8 * m + 8 * m) (x ++ y)) = octetsOf (n := 8 * m + 8 * m) ((x + 1) ++ y) := by
  subst hm
  have hb := halfOctets_add_half b
  have hx : (octetsOf x).length = halfOctets b := by simp
  have hy : (octetsOf y).length = halfOctets b := by simp
  have h2 : (2 : Nat) ^ (8 * halfOctets b) = 256 ^ halfOctets b := by
    rw [show (256 : Nat) = 2 ^ 8 by rfl, ← pow_mul]
  rw [octetsOf_append, octetsOf_append, incrLeft, slice_zero, slice, ← hb]
  rw [List.take_append_of_le_length (by omega), List.take_of_length_le (by omega),
    List.drop_append_of_le_length (by omega), List.drop_of_length_le (l := octetsOf x) (by omega), List.nil_append,
    List.take_of_length_le (by omega), fromBe_octetsOf]
  congr 1
  simp only [octetsOf, show 8 * halfOctets b / 8 = halfOctets b by omega, BitVec.toNat_add]
  rw [h2, toBe_mod]
  congr 2
  cases b <;> rfl

theorem incrRight_octetsOf {b : BlockSize} {m : Nat} (hm : m = halfOctets b) (x y : BitVec (8 * m)) :
    incrRight b (octetsOf (n := 8 * m + 8 * m) (x ++ y)) = octetsOf (n := 8 * m + 8 * m) (x ++ (y + 1)) := by
  subst hm
  have hb := halfOctets_add_half b
  have hx : (octetsOf x).length = halfOctets b := by simp
  have hy : (octetsOf y).length = halfOctets b := by simp
  have h2 : (2 : Nat) ^ (8 * halfOctets b) = 256 ^ halfOctets b := by
    rw [show (256 : Nat) = 2 ^ 8 by rfl, ← pow_mul]
  rw [octetsOf_append, octetsOf_append, incrRight, slice_zero, slice, ← hb]
  rw [List.take_append_of_le_length (by omega), List.take_of_length_le (by omega),
    List.drop_append_of_le_length (by omega), List.drop_of_length_le (l := octetsOf x) (by omega), List.nil_append,
    List.take_of_length_le (by omega), fromBe_octetsOf]
  congr 1
  simp only [octetsOf, show 8 * halfOctets b / 8 = halfOctets b by omega, BitVec.toNat_add]
  rw [h2, toBe_mod]
  congr 2
  cases b <;> rfl

end Sys2Proof.Machine
end

