-- ==== Sys2Proof/Laws/Operands.lean ====
section
/-! SUPPORT. The shared checks: when each passes, what it reports when it fails (R104–R107, R222). -/

namespace Sys2Proof.Machine

/-! ### DBUF_SIZE (R7) -/

theorem dbufSize_ge (P : Params) : 16 ≤ P.dbufSize := by
  simp only [Params.dbufSize]; omega

theorem dbufSize_le (P : Params) : P.dbufSize ≤ 2 ^ 28 := by
  have := P.dbufUnits.isLt
  simp only [Params.dbufSize]; omega

theorem dbufSize_mod (P : Params) : P.dbufSize % 16 = 0 := by
  simp [Params.dbufSize]

/-! ### Check lines -/

@[simp] theorem require_true (c : ErrCode) (rest : Unit → Result) : require true c rest = rest () := rfl

@[simp] theorem require_false (c : ErrCode) (rest : Unit → Result) : require false c rest = .err c := rfl

theorem require_eq_ok {cond : Bool} {c : ErrCode} {rest : Unit → Result} {ws : List Write} {a : Bool} :
    require cond c rest = .ok ws a ↔ cond = true ∧ rest () = .ok ws a := by cases cond <;> simp

theorem require_eq_err {cond : Bool} {c x : ErrCode} {rest : Unit → Result} :
    require cond c rest = .err x ↔ (cond = false ∧ x = c) ∨ (cond = true ∧ rest () = .err x) := by
  cases cond <;> simp [eq_comm]

/-! ### BSCHECK and TAGCHECK -/

theorem blockSize_eq_some {c : Ctrl} {b : BlockSize} : c.blockSize = some b ↔ c.bs.toNat = blockOctets b := by
  have h8 : c.bs = 0x08#8 ↔ c.bs.toNat = 8 := by rw [← BitVec.toNat_inj]; rfl
  have h16 : c.bs = 0x10#8 ↔ c.bs.toNat = 16 := by rw [← BitVec.toNat_inj]; rfl
  simp only [Ctrl.blockSize, h8, h16]
  split
  · cases b <;> simp <;> omega
  · split
    · cases b <;> simp <;> omega
    · cases b <;> simp <;> omega

theorem blockSize_eq_none {c : Ctrl} : c.blockSize = none ↔ c.bs.toNat ≠ 8 ∧ c.bs.toNat ≠ 16 := by
  have h8 : c.bs = 0x08#8 ↔ c.bs.toNat = 8 := by rw [← BitVec.toNat_inj]; rfl
  have h16 : c.bs = 0x10#8 ↔ c.bs.toNat = 16 := by rw [← BitVec.toNat_inj]; rfl
  simp only [Ctrl.blockSize, h8, h16]
  split
  · simp; omega
  · split
    · simp; omega
    · simp; omega

theorem withBlockSize_of {s : State} {b : BlockSize} (h : s.hasBlockSize b) (rest : BlockSize → Result) :
    withBlockSize s.ctrl rest = rest b := by
  simp [withBlockSize, blockSize_eq_some.mpr h]

theorem withBlockSize_illegal {c : Ctrl} (h8 : c.bs.toNat ≠ 8) (h16 : c.bs.toNat ≠ 16) (rest : BlockSize → Result) :
    withBlockSize c rest = .err .invalidBlockSize := by
  simp [withBlockSize, blockSize_eq_none.mpr ⟨h8, h16⟩]

theorem withBlockSize_eq_ok {s : State} {rest : BlockSize → Result} {ws : List Write} {a : Bool} :
    withBlockSize s.ctrl rest = .ok ws a ↔ ∃ b, s.hasBlockSize b ∧ rest b = .ok ws a := by
  constructor
  · intro h
    simp only [withBlockSize] at h
    split at h
    · cases h
    · rename_i b hb
      exact ⟨b, blockSize_eq_some.mp hb, h⟩
  · rintro ⟨b, hb, h⟩
    rw [withBlockSize_of hb, h]

theorem hasBlockSize_unique {s : State} {b b' : BlockSize} (h : s.hasBlockSize b) (h' : s.hasBlockSize b') :
    b = b' := by
  simp only [State.hasBlockSize] at h h'
  cases b <;> cases b' <;> simp_all

theorem withTagSize_of {s : State} {b : BlockSize} {T : Nat} (h : s.hasTagSize b T) (rest : Nat → Result) :
    withTagSize s.ctrl b rest = rest T := by
  obtain ⟨rfl, h1, h2⟩ := h
  simp only [withTagSize, Ctrl.tagOctets]
  simp [h1, h2]

theorem withTagSize_eq_ok {s : State} {b : BlockSize} {rest : Nat → Result} {ws : List Write} {a : Bool} :
    withTagSize s.ctrl b rest = .ok ws a ↔ ∃ T, s.hasTagSize b T ∧ rest T = .ok ws a := by
  constructor
  · intro h
    simp only [withTagSize, require_eq_ok, Bool.and_eq_true, decide_eq_true_eq] at h
    exact ⟨_, ⟨rfl, h.1⟩, h.2⟩
  · rintro ⟨T, hT, h⟩
    rw [withTagSize_of hT, h]

/-! ### Regions -/

theorem inRange_iff (P : Params) (o l : Nat) : inRange P o l = true ↔ regionFits P.dbufSize o l := by
  simp [inRange, regionFits]

theorem overlap_eq_false (o1 l1 o2 l2 : Nat) : overlap o1 l1 o2 l2 = false ↔ regionsApart o1 l1 o2 l2 := by
  simp only [overlap, regionsApart, Bool.and_eq_false_iff, decide_eq_false_iff_not]
  omega

theorem shiftedOverlap_eq_false (o1 l1 o2 l2 : Nat) :
    shiftedOverlap o1 l1 o2 l2 = false ↔ regionsApart o1 l1 o2 l2 ∨ o1 = o2 := by
  simp only [shiftedOverlap, Bool.and_eq_false_iff, overlap_eq_false, bne_eq_false_iff_eq]

/-- An argument word is below 2^32, so below the limit of CTR (R119, R225). -/
theorem arg_lt (s : State) (i : Fin 8) : s.arg i < 2 ^ 32 := (s.args.get i).isLt

theorem arg_le_ctrMax (s : State) (i : Fin 8) (b : BlockSize) : s.arg i ≤ ctrMax b := by
  have h := arg_lt s i
  cases b <;> simp only [ctrMax, blockOctets_b8, blockOctets_b16] <;> omega

end Sys2Proof.Machine
end

