-- ==== Sys2Proof/Laws/Streams.lean ====
section
/-! SUPPORT. The loops of MGM and CTR-ACPKM: the length of what they give, and each octet of it in closed form. -/

namespace Sys2Proof.Machine

/-- Octet j of the exclusive or of a chunk and a keystream block. -/
theorem getD_xorOctets {x y : Octets} {j : Nat} (hx : j < x.length) (hy : j < y.length) :
    (xorOctets x y).getD j 0#8 = x.getD j 0#8 ^^^ y.getD j 0#8 := by
  rw [List.getD_eq_getElem _ _ (by simp; omega), List.getD_eq_getElem _ _ hx, List.getD_eq_getElem _ _ hy,
    xorOctets_getElem]

/-! ### MGM keystream (R191, R192) -/

theorem mgmCryptLoop_length (P : Params) (b : BlockSize) (k : Key) (y d : Octets) :
    (mgmCryptLoop P b k y (chunks b d)).length = d.length := by
  induction hn : d.length using Nat.strong_induction_on generalizing d y with
  | _ n ih =>
    by_cases hd : d = []
    · subst hd; simpa [mgmCryptLoop] using hn
    · have hlen : 0 < d.length := List.length_pos_iff.mpr hd
      have hpos := blockOctets_pos b
      rw [chunks_cons b hd, mgmCryptLoop, List.length_append, ih _ (by simp; omega) _ _ rfl, xorOctets_length,
        bc_length]
      simp; omega

theorem mgmCrypt_length (P : Params) (b : BlockSize) (k : Key) (nonce d : Octets) :
    (mgmCrypt P b k nonce d).length = d.length := mgmCryptLoop_length P b k _ d

theorem mgmCryptLoop_getD (P : Params) (b : BlockSize) (k : Key) (y d : Octets) {j : Nat} (hj : j < d.length) :
    (mgmCryptLoop P b k y (chunks b d)).getD j 0#8 =
      d.getD j 0#8 ^^^ (bc P b k ((incrRight b)^[j / blockOctets b] y)).getD (j % blockOctets b) 0#8 := by
  induction hn : d.length using Nat.strong_induction_on generalizing d y j with
  | _ n ih =>
    have hpos := blockOctets_pos b
    have hd : d ≠ [] := by rintro rfl; simp at hj
    have hlen : (xorOctets (d.take (blockOctets b)) (bc P b k y)).length = min d.length (blockOctets b) := by
      rw [xorOctets_length, bc_length]; simp; omega
    rw [chunks_cons b hd, mgmCryptLoop]
    by_cases h : j < blockOctets b
    · rw [List.getD_append _ _ _ _ (by omega), getD_xorOctets (by simp; omega) (by rw [bc_length]; omega),
        Nat.div_eq_of_lt h, Nat.mod_eq_of_lt h]
      congr 1
      simp [List.getD_eq_getElem?_getD, h]
    · have hge : blockOctets b ≤ j := Nat.le_of_not_lt h
      rw [List.getD_append_right _ _ _ _ (by omega), hlen, Nat.min_eq_right (by omega),
        ih _ (by simp; omega) (incrRight b y) (d.drop (blockOctets b)) (by simp; omega) rfl]
      have hdiv : j / blockOctets b = (j - blockOctets b) / blockOctets b + 1 := by
        conv_lhs => rw [show j = (j - blockOctets b) + blockOctets b by omega, Nat.add_div_right _ hpos]
      have hmod : j % blockOctets b = (j - blockOctets b) % blockOctets b := by
        conv_lhs => rw [show j = (j - blockOctets b) + blockOctets b by omega, Nat.add_mod_right]
      rw [hdiv, hmod, Function.iterate_succ_apply]
      congr 1
      simp [List.getD_eq_getElem?_getD, List.getElem?_drop, show blockOctets b + (j - blockOctets b) = j by omega]

theorem mgmCrypt_getD (P : Params) (b : BlockSize) (k : Key) (nonce d : Octets) {j : Nat} (hj : j < d.length) :
    (mgmCrypt P b k nonce d).getD j 0#8 = d.getD j 0#8 ^^^ mgmKeystreamOctet P b k nonce j :=
  mgmCryptLoop_getD P b k _ d hj

theorem mgmTag_length (P : Params) (b : BlockSize) (k : Key) (nonce ad ct : Octets) {T : Nat} (hT : T ≤ blockOctets b) :
    (mgmTag P b k nonce ad ct T).length = T := by
  simp [mgmTag, bc_length]; omega

/-! ### CTR-ACPKM (R151) -/

theorem ctrAcpkmLoop_length (P : Params) (b : BlockSize) (p : Nat) (iv : Octets) (i : Nat) (k : Key) (d : Octets) :
    (ctrAcpkmLoop P b p iv i k (chunks b d)).length = d.length := by
  induction hn : d.length using Nat.strong_induction_on generalizing d i k with
  | _ n ih =>
    by_cases hd : d = []
    · subst hd; simpa [ctrAcpkmLoop] using hn
    · have hlen : 0 < d.length := List.length_pos_iff.mpr hd
      have hpos := blockOctets_pos b
      rw [chunks_cons b hd, ctrAcpkmLoop, List.length_append, ih _ (by simp; omega) _ _ _ rfl, xorOctets_length,
        bc_length]
      simp; omega

theorem ctrAcpkm_length (P : Params) (b : BlockSize) (k : Key) (iv : Octets) (N : Nat) (d : Octets) :
    (ctrAcpkm P b k iv N d).length = d.length := ctrAcpkmLoop_length P b _ iv 0 k d

theorem acpkmMaster_length (P : Params) (b : BlockSize) (k : Key) (tstar L : Nat) :
    (acpkmMaster P b k tstar L).length = L := by simp [acpkmMaster, ctrAcpkm_length]

@[simp] theorem sectionKey_zero (P : Params) (b : BlockSize) (k : Key) : sectionKey P b k 0 = k := rfl

theorem sectionKey_succ (P : Params) (b : BlockSize) (k : Key) (m : Nat) :
    sectionKey P b k (m + 1) = acpkmDerive P b (sectionKey P b k m) := Function.iterate_succ_apply' _ _ _

/-- The key of block i + 1 from the key of block i: a new one exactly at a section boundary (R151). -/
theorem sectionKey_next (P : Params) (b : BlockSize) (k : Key) {p : Nat} (i : Nat) :
    (if 0 < i + 1 && (i + 1) % p == 0 then acpkmDerive P b (sectionKey P b k (i / p)) else sectionKey P b k (i / p)) =
      sectionKey P b k ((i + 1) / p) := by
  by_cases h : (i + 1) % p = 0
  · have : (i + 1) / p = i / p + 1 := by rw [Nat.succ_div, if_pos (Nat.dvd_of_mod_eq_zero h)]
    simp [h, this, sectionKey_succ]
  · have : (i + 1) / p = i / p := by
      rw [Nat.succ_div, if_neg (fun hd => h (Nat.mod_eq_zero_of_dvd hd)), Nat.add_zero]
    simp [h, this]

theorem ctrAcpkmLoop_getD (P : Params) (b : BlockSize) (p : Nat) (iv : Octets) (k0 k : Key) (i : Nat)
    (hk : (if 0 < i && i % p == 0 then acpkmDerive P b k else k) = sectionKey P b k0 (i / p)) (d : Octets) {j : Nat}
    (hj : j < d.length) :
    (ctrAcpkmLoop P b p iv i k (chunks b d)).getD j 0#8 =
      d.getD j 0#8 ^^^ (bc P b (sectionKey P b k0 ((i + j / blockOctets b) / p))
        (iv ++ toBe (i + j / blockOctets b) (halfOctets b))).getD (j % blockOctets b) 0#8 := by
  induction hn : d.length using Nat.strong_induction_on generalizing d i k j with
  | _ n ih =>
    have hpos := blockOctets_pos b
    have hd : d ≠ [] := by rintro rfl; simp at hj
    rw [chunks_cons b hd, ctrAcpkmLoop, hk]
    have hlen : ∀ x, (xorOctets (d.take (blockOctets b)) (bc P b (sectionKey P b k0 (i / p)) x)).length =
        min d.length (blockOctets b) := by
      intro x; rw [xorOctets_length, bc_length]; simp; omega
    by_cases h : j < blockOctets b
    · rw [List.getD_append _ _ _ _ (by rw [hlen]; omega),
        getD_xorOctets (by simp; omega) (by rw [bc_length]; omega), Nat.div_eq_of_lt h, Nat.mod_eq_of_lt h, Nat.add_zero]
      congr 1
      simp [List.getD_eq_getElem?_getD, h]
    · have hge : blockOctets b ≤ j := Nat.le_of_not_lt h
      rw [List.getD_append_right _ _ _ _ (by rw [hlen]; omega), hlen, Nat.min_eq_right (by omega),
        ih _ (by simp; omega) (sectionKey P b k0 (i / p)) (i + 1) (sectionKey_next P b k0 i) (d.drop (blockOctets b)) (by simp; omega) rfl]
      have hdiv : j / blockOctets b = (j - blockOctets b) / blockOctets b + 1 := by
        conv_lhs => rw [show j = (j - blockOctets b) + blockOctets b by omega, Nat.add_div_right _ hpos]
      have hmod : j % blockOctets b = (j - blockOctets b) % blockOctets b := by
        conv_lhs => rw [show j = (j - blockOctets b) + blockOctets b by omega, Nat.add_mod_right]
      rw [hdiv, hmod, show i + ((j - blockOctets b) / blockOctets b + 1) =
        i + 1 + (j - blockOctets b) / blockOctets b by omega]
      congr 1
      simp [List.getD_eq_getElem?_getD, List.getElem?_drop, show blockOctets b + (j - blockOctets b) = j by omega]

theorem ctrAcpkm_getD (P : Params) (b : BlockSize) (k : Key) (iv : Octets) (N : Nat) (d : Octets) {j : Nat} (hj : j < d.length) :
    (ctrAcpkm P b k iv N d).getD j 0#8 = d.getD j 0#8 ^^^ ctrKeystreamOctet P b k iv N j := by
  have h := ctrAcpkmLoop_getD P b (N / blockOctets b) iv k k 0 (by simp) d hj
  simpa [ctrAcpkm, ctrKeystreamOctet] using h

end Sys2Proof.Machine
end

