-- ==== Sys2Proof/Laws/Commands.lean ====
section
/-! SUPPORT. What each command's `Exec` can return, said once (R101–R103): the checks it has passed and the writes it
makes, or the error it reports. -/

namespace Sys2Proof.Machine

/-- `Exec` of a command, before the completion step applies it (R103). -/
def commandResult (P : Params) (i : Instr) (s : State) : Result :=
  match i with
  | .nop => nopResult
  | .gfmul64 => gfmulResult .b8 s
  | .gfmac64 => gfmacResult .b8 s
  | .gfmul128 => gfmulResult .b16 s
  | .gfmac128 => gfmacResult .b16 s
  | .incrL => incrLResult s
  | .incrR => incrRResult s
  | .noncePrep => noncePrepResult s
  | .encblk => encblkResult P s
  | .tagcmp => tagcmpResult s
  | .mgmSeal => mgmSealResult P s
  | .mgmOpen => mgmOpenResult P s
  | .acpkmDerive => acpkmDeriveResult P s
  | .acpkmDeriveLoad => acpkmDeriveLoadResult P s
  | .ctrAcpkm => ctrAcpkmResult P s
  | .acpkmMaster => acpkmMasterResult P s

/-- Every command runs to completion: `exec` always answers the next state its result gives. -/
theorem exec_eq (i : Instr) (s : State) : exec i s = .next (finish s (commandResult Config.engine i s)) := by
  cases i <;> rfl

theorem exec_eq_next_iff (i : Instr) (s t : State) :
    exec i s = .next t ↔ t = finish s (commandResult Config.engine i s) := by
  rw [exec_eq]
  constructor
  · intro h; cases h; rfl
  · rintro rfl; rfl

theorem finish_err_eq_fail (s : State) (c : ErrCode) : finish s (.err c) = s.fail c.code := rfl

theorem finish_ok_nil (s : State) (a : Bool) : finish s (.ok [] a) = s.succeed a := rfl

/-! ### The commands over DBUF -/

/-- A successful CTR_ACPKM has passed its checks and writes the region at OUT_OFF (R155). -/
theorem ctrAcpkmResult_eq_ok {P : Params} {s : State} {ws : List Write} {a : Bool} :
    ctrAcpkmResult P s = .ok ws a ↔ ∃ b, s.hasBlockSize b ∧
      (1 ≤ s.arg 3 ∧ s.arg 3 % blockOctets b = 0) ∧
      (regionFits P.dbufSize (s.arg 0) (s.arg 1) ∧ regionFits P.dbufSize (s.arg 2) (s.arg 1)) ∧
      (regionsApart (s.arg 2) (s.arg 1) (s.arg 0) (s.arg 1) ∨ s.arg 2 = s.arg 0) ∧
      ws = [.dbuf (s.arg 2) (ctrAcpkm P b s.key (slice (octetsOf s.nonce) 0 (halfOctets b)) (s.arg 3)
        (memRead P s (s.arg 0) (s.arg 1)))] ∧ a = false := by
  simp only [ctrAcpkmResult, withBlockSize_eq_ok, require_eq_ok, Bool.and_eq_true, decide_eq_true_eq, beq_iff_eq,
    inRange_iff, Bool.not_eq_true', shiftedOverlap_eq_false, arg_le_ctrMax, and_true, Result.ok.injEq, @eq_comm (List Write) _ ws, @eq_comm Bool _ a]

/-- A successful ACPKM_MASTER has passed its checks and writes the region at OUT_OFF (R156). -/
theorem acpkmMasterResult_eq_ok {P : Params} {s : State} {ws : List Write} {a : Bool} :
    acpkmMasterResult P s = .ok ws a ↔ ∃ b, s.hasBlockSize b ∧
      (1 ≤ s.arg 3 ∧ s.arg 3 % blockOctets b = 0) ∧ regionFits P.dbufSize (s.arg 2) (s.arg 1) ∧
      ws = [.dbuf (s.arg 2) (acpkmMaster P b s.key (s.arg 3) (s.arg 1))] ∧ a = false := by
  simp only [acpkmMasterResult, withBlockSize_eq_ok, require_eq_ok, Bool.and_eq_true, decide_eq_true_eq, beq_iff_eq,
    inRange_iff, arg_le_ctrMax, and_true, Result.ok.injEq, @eq_comm (List Write) _ ws, @eq_comm Bool _ a]

/-- A successful MGM_SEAL has passed its checks and writes ct ‖ tag at OUT_OFF and the tag into TAG (R196). -/
theorem mgmSealResult_eq_ok {P : Params} {s : State} {ws : List Write} {a : Bool} :
    mgmSealResult P s = .ok ws a ↔ ∃ b, s.hasBlockSize b ∧ ∃ T, s.hasTagSize b T ∧
      (1 ≤ s.arg 1 + s.arg 3 ∧ s.arg 1 + s.arg 3 ≤ maxSize b) ∧
      ((regionFits P.dbufSize (s.arg 0) (s.arg 1) ∧ regionFits P.dbufSize (s.arg 2) (s.arg 3)) ∧
        regionFits P.dbufSize (s.arg 4) (s.arg 3 + T)) ∧
      (regionsApart (s.arg 4) (s.arg 3 + T) (s.arg 0) (s.arg 1) ∧
        (regionsApart (s.arg 4) (s.arg 3 + T) (s.arg 2) (s.arg 3) ∨ s.arg 4 = s.arg 2)) ∧
      ws = [.dbuf (s.arg 4) (mgmCrypt P b s.key (blockOf b s.nonce) (memRead P s (s.arg 2) (s.arg 3)) ++
          mgmTag P b s.key (blockOf b s.nonce) (memRead P s (s.arg 0) (s.arg 1))
            (mgmCrypt P b s.key (blockOf b s.nonce) (memRead P s (s.arg 2) (s.arg 3))) T),
        .tag (setTag (mgmTag P b s.key (blockOf b s.nonce) (memRead P s (s.arg 0) (s.arg 1))
            (mgmCrypt P b s.key (blockOf b s.nonce) (memRead P s (s.arg 2) (s.arg 3))) T) T)] ∧ a = false := by
  simp only [mgmSealResult, withBlockSize_eq_ok, withTagSize_eq_ok, require_eq_ok, Bool.and_eq_true,
    decide_eq_true_eq, inRange_iff, Bool.not_eq_true', shiftedOverlap_eq_false, overlap_eq_false, Result.ok.injEq,
    @eq_comm (List Write) _ ws, @eq_comm Bool _ a]

/-- A successful MGM_OPEN has passed its checks, the received tag matches, and the body is decrypted at OUT_OFF (R197). -/
theorem mgmOpenResult_eq_ok {P : Params} {s : State} {ws : List Write} {a : Bool} :
    mgmOpenResult P s = .ok ws a ↔ ∃ b, s.hasBlockSize b ∧ ∃ T, s.hasTagSize b T ∧ T ≤ s.arg 3 ∧
      (1 ≤ s.arg 1 + (s.arg 3 - T) ∧ s.arg 1 + (s.arg 3 - T) ≤ maxSize b) ∧
      ((regionFits P.dbufSize (s.arg 0) (s.arg 1) ∧ regionFits P.dbufSize (s.arg 2) (s.arg 3)) ∧
        regionFits P.dbufSize (s.arg 4) (s.arg 3 - T)) ∧
      (regionsApart (s.arg 4) (s.arg 3 - T) (s.arg 0) (s.arg 1) ∧
        (regionsApart (s.arg 4) (s.arg 3 - T) (s.arg 2) (s.arg 3) ∨ s.arg 4 = s.arg 2)) ∧
      ctEqual (mgmTag P b s.key (blockOf b s.nonce) (memRead P s (s.arg 0) (s.arg 1))
        (memRead P s (s.arg 2) (s.arg 3 - T)) T) (memRead P s (s.arg 2 + (s.arg 3 - T)) T) T = true ∧
      ws = [.dbuf (s.arg 4) (mgmCrypt P b s.key (blockOf b s.nonce) (memRead P s (s.arg 2) (s.arg 3 - T)))] ∧
      a = true := by
  simp only [mgmOpenResult, withBlockSize_eq_ok, withTagSize_eq_ok, require_eq_ok, Bool.and_eq_true,
    decide_eq_true_eq, inRange_iff, Bool.not_eq_true', shiftedOverlap_eq_false, overlap_eq_false, Result.ok.injEq,
    @eq_comm (List Write) _ ws, @eq_comm Bool _ a]

/-! ### What holds of every command -/

/-- Every DBUF write of a command lies inside DBUF: RANGE is checked before any write (R102, R106). -/
theorem commandResult_dbuf_fits {P : Params} {i : Instr} {s : State} {ws : List Write} {a : Bool}
    (h : commandResult P i s = .ok ws a) {o : Nat} {v : Octets} (hw : Write.dbuf o v ∈ ws) :
    v = [] ∨ o + v.length ≤ P.dbufSize := by
  have fits : ∀ {n}, regionFits P.dbufSize o n → v.length = n → v = [] ∨ o + v.length ≤ P.dbufSize := by
    intro n hf hn
    subst hn
    rcases hf with h0 | h1
    · exact .inl (List.length_eq_zero_iff.mp h0)
    · exact .inr h1
  cases i with
  | ctrAcpkm =>
    obtain ⟨b, -, -, ⟨-, hf⟩, -, rfl, -⟩ := ctrAcpkmResult_eq_ok.mp h
    obtain ⟨rfl, rfl⟩ : o = _ ∧ v = _ := by simpa using hw
    exact fits hf (by simp [ctrAcpkm_length])
  | acpkmMaster =>
    obtain ⟨b, -, -, hf, rfl, -⟩ := acpkmMasterResult_eq_ok.mp h
    obtain ⟨rfl, rfl⟩ : o = _ ∧ v = _ := by simpa using hw
    exact fits hf (by simp [acpkmMaster_length])
  | mgmSeal =>
    obtain ⟨b, -, T, hT, -, ⟨-, hf⟩, -, rfl, -⟩ := mgmSealResult_eq_ok.mp h
    obtain ⟨rfl, rfl⟩ : o = _ ∧ v = _ := by simpa using hw
    exact fits hf (by simp [mgmCrypt_length, mgmTag_length _ _ _ _ _ _ hT.2.2])
  | mgmOpen =>
    obtain ⟨b, -, T, hT, -, -, ⟨-, hf⟩, -, -, rfl, -⟩ := mgmOpenResult_eq_ok.mp h
    obtain ⟨rfl, rfl⟩ : o = _ ∧ v = _ := by simpa using hw
    exact fits hf (by simp [mgmCrypt_length])
  | nop => cases h; simp at hw
  | gfmul64 => cases h; simp at hw
  | gfmac64 => cases h; simp at hw
  | gfmul128 => cases h; simp at hw
  | gfmac128 => cases h; simp at hw
  | noncePrep => cases h; simp at hw
  | incrL => obtain ⟨b, -, hb⟩ := withBlockSize_eq_ok.mp h; cases hb; simp at hw
  | incrR => obtain ⟨b, -, hb⟩ := withBlockSize_eq_ok.mp h; cases hb; simp at hw
  | encblk => obtain ⟨b, -, hb⟩ := withBlockSize_eq_ok.mp h; cases hb; simp at hw
  | acpkmDerive => obtain ⟨b, -, hb⟩ := withBlockSize_eq_ok.mp h; cases hb; simp at hw
  | acpkmDeriveLoad => obtain ⟨b, -, hb⟩ := withBlockSize_eq_ok.mp h; cases hb; simp at hw
  | tagcmp =>
    obtain ⟨b, -, hb⟩ := withBlockSize_eq_ok.mp h
    obtain ⟨T, -, hT⟩ := withTagSize_eq_ok.mp hb
    obtain ⟨-, hr⟩ := require_eq_ok.mp hT
    cases hr; simp at hw

/-- Which command may make which write (R46). -/
def makesWrite : Write → Instr → Bool
  | .nonce _, i => i == .noncePrep
  | .tag _, i => i == .mgmSeal
  | .gfz _, i => i == .gfmul64 || i == .gfmac64 || i == .gfmul128 || i == .gfmac128
  | .cnt _, i => i == .incrL || i == .incrR
  | .blk _, i => i == .encblk
  | .kd _, i => i == .acpkmDerive || i == .acpkmDeriveLoad
  | .key _, i => i == .acpkmDeriveLoad
  | .dbuf _ _, i => i == .mgmSeal || i == .mgmOpen || i == .ctrAcpkm || i == .acpkmMaster

/-- A command makes only its own writes, and only TAGCMP and MGM_OPEN set AUTH_OK. -/
theorem commandResult_writes {P : Params} {i : Instr} {s : State} {ws : List Write} {a : Bool}
    (h : commandResult P i s = .ok ws a) :
    (∀ w ∈ ws, makesWrite w i = true) ∧ (a = true → i = .tagcmp ∨ i = .mgmOpen) := by
  have plain : ∀ {vs : List Write}, Result.ok vs false = .ok ws a → (∀ w ∈ vs, makesWrite w i = true) →
      (∀ w ∈ ws, makesWrite w i = true) ∧ (a = true → i = .tagcmp ∨ i = .mgmOpen) := by
    intro vs hv hw
    obtain ⟨rfl, rfl⟩ := Result.ok.inj hv
    exact ⟨hw, fun ha => absurd ha (by decide)⟩
  cases i with
  | nop => exact plain h (by simp)
  | gfmul64 => exact plain h (by simp [makesWrite])
  | gfmac64 => exact plain h (by simp [makesWrite])
  | gfmul128 => exact plain h (by simp [makesWrite])
  | gfmac128 => exact plain h (by simp [makesWrite])
  | noncePrep => exact plain h (by simp [makesWrite])
  | incrL => obtain ⟨b, -, hb⟩ := withBlockSize_eq_ok.mp h; exact plain hb (by simp [makesWrite])
  | incrR => obtain ⟨b, -, hb⟩ := withBlockSize_eq_ok.mp h; exact plain hb (by simp [makesWrite])
  | encblk => obtain ⟨b, -, hb⟩ := withBlockSize_eq_ok.mp h; exact plain hb (by simp [makesWrite])
  | acpkmDerive => obtain ⟨b, -, hb⟩ := withBlockSize_eq_ok.mp h; exact plain hb (by simp [makesWrite])
  | acpkmDeriveLoad => obtain ⟨b, -, hb⟩ := withBlockSize_eq_ok.mp h; exact plain hb (by simp [makesWrite])
  | tagcmp =>
    obtain ⟨b, -, hb⟩ := withBlockSize_eq_ok.mp h
    obtain ⟨T, -, hT⟩ := withTagSize_eq_ok.mp hb
    obtain ⟨-, hr⟩ := require_eq_ok.mp hT
    obtain ⟨rfl, rfl⟩ := Result.ok.inj hr
    simp
  | mgmSeal =>
    obtain ⟨b, -, T, -, -, -, -, rfl, rfl⟩ := mgmSealResult_eq_ok.mp h
    simp [makesWrite]
  | mgmOpen =>
    obtain ⟨b, -, T, -, -, -, -, -, -, rfl, rfl⟩ := mgmOpenResult_eq_ok.mp h
    simp [makesWrite]
  | ctrAcpkm =>
    obtain ⟨b, -, -, -, -, rfl, rfl⟩ := ctrAcpkmResult_eq_ok.mp h
    simp [makesWrite]
  | acpkmMaster =>
    obtain ⟨b, -, -, -, rfl, rfl⟩ := acpkmMasterResult_eq_ok.mp h
    simp [makesWrite]

/-- Writes inside DBUF keep its canonical form and its bound. -/
theorem applyWrites_memory {n : Nat} (ws : List Write) (s : State)
    (hw : ∀ o v, Write.dbuf o v ∈ ws → v = [] ∨ o + v.length ≤ n)
    (h : Memory.wf s.dbuf ∧ Memory.below s.dbuf n) :
    Memory.wf (applyWrites s ws).dbuf ∧ Memory.below (applyWrites s ws).dbuf n := by
  induction ws generalizing s with
  | nil => exact h
  | cons w ws ih =>
    apply ih (applyWrite s w) (fun o v hv => hw o v (List.mem_cons_of_mem _ hv))
    cases w with
    | dbuf o v => exact ⟨Memory.wf_writeOctets h.1 o v, Memory.below_writeOctets h.2 v (hw o v (by simp))⟩
    | nonce v => exact h
    | tag v => exact h
    | gfz v => exact h
    | cnt v => exact h
    | blk v => exact h
    | kd v => exact h
    | key v => exact h

/-- A command that makes no DBUF write leaves DBUF as it is. -/
theorem applyWrites_dbuf_of_none (ws : List Write) (s : State) (hw : ∀ o v, Write.dbuf o v ∉ ws) :
    (applyWrites s ws).dbuf = s.dbuf := by
  induction ws generalizing s with
  | nil => rfl
  | cons w ws ih =>
    rw [applyWrites_cons, ih _ (fun o v hv => hw o v (List.mem_cons_of_mem _ hv))]
    cases w with
    | dbuf o v => exact absurd (List.mem_cons_self ..) (hw o v)
    | nonce v => rfl
    | tag v => rfl
    | gfz v => rfl
    | cnt v => rfl
    | blk v => rfl
    | kd v => rfl
    | key v => rfl

end Sys2Proof.Machine
end

