-- ==== Sys2Proof/Laws/Bus.lean ====
section
/-! SUPPORT. Host accesses: when one is served, what a read and a write change, and that they keep the invariant. -/

namespace Sys2Proof.Machine

/-! ### When an access is served (R61, R64, R223) -/

theorem serve_legal {P : Params} {a : Access} (h : accessLegal P a) (s : State) :
    serve P s a = .next (applyAccess P s a) := by
  obtain ⟨h1, h2, h3⟩ := h
  simp [serve, insideWindow, wordAccess, dbufBase, h1, h2, h3]

theorem serve_outside {P : Params} {a : Access} (h : 0x1000 + P.dbufSize ≤ accessOffset a) (s : State) :
    serve P s a = .fault (.outsideWindow (accessOffset a)) := by
  have : ¬ accessOffset a < 0x1000 + P.dbufSize := by omega
  simp [serve, insideWindow, dbufBase, this]

theorem serve_busError {P : Params} {a : Access} (h : accessOffset a < 0x1000 + P.dbufSize)
    (hbad : accessWidth a ≠ 32 ∨ accessOffset a % 4 ≠ 0) (s : State) :
    serve P s a = .fault (.busError (accessOffset a) 0#32) := by
  have : wordAccess (accessWidth a) (accessOffset a) = false := by
    simp only [wordAccess, Bool.and_eq_false_iff, beq_eq_false_iff_ne]
    exact hbad
  simp [serve, insideWindow, dbufBase, h, this]

/-- An access ends in one of three ways, and none of them is a refusal. -/
theorem serve_eq_next {P : Params} {s t : State} {a : Access} (h : serve P s a = .next t) :
    accessLegal P a ∧ t = applyAccess P s a := by
  by_cases h1 : accessOffset a < 0x1000 + P.dbufSize
  · by_cases h2 : accessWidth a = 32 ∧ accessOffset a % 4 = 0
    · have hl : accessLegal P a := ⟨h2.1, h2.2, h1⟩
      rw [serve_legal hl] at h
      cases h
      exact ⟨hl, rfl⟩
    · rw [serve_busError h1 (by omega)] at h
      cases h
  · rw [serve_outside (by omega)] at h
    cases h

/-! ### Register offsets (R22) -/

theorem locate_dbuf (a : Nat) : locate (0x1000 + a) = .dbuf a := by
  simp [locate, dbufBase]

theorem locate_register {offset : Nat} (h : offset < 0x1000) : locate offset = registerAt offset := by
  simp [locate, dbufBase, h]

theorem locate_arg (i : Fin 8) : locate (0x020 + 4 * i.val) = .arg i := by revert i; decide

theorem locate_key (i : Fin 8) : locate (0x040 + 4 * i.val) = .key i := by revert i; decide

theorem locate_nonce (k : Fin 4) : locate (0x060 + 4 * k.val) = .nonce k := by revert k; decide

theorem locate_tag (k : Fin 4) : locate (0x070 + 4 * k.val) = .tag k := by revert k; decide

theorem locate_tagin (k : Fin 4) : locate (0x080 + 4 * k.val) = .tagin k := by revert k; decide

theorem locate_gfa (k : Fin 4) : locate (0x090 + 4 * k.val) = .gfa k := by revert k; decide

theorem locate_gfb (k : Fin 4) : locate (0x0A0 + 4 * k.val) = .gfb k := by revert k; decide

theorem locate_gfz (k : Fin 4) : locate (0x0B0 + 4 * k.val) = .gfz k := by revert k; decide

theorem locate_cnt (k : Fin 4) : locate (0x0C0 + 4 * k.val) = .cnt k := by revert k; decide

theorem locate_blk (k : Fin 4) : locate (0x0D0 + 4 * k.val) = .blk k := by revert k; decide

theorem locate_kd (i : Fin 8) : locate (0x0E0 + 4 * i.val) = .kd i := by revert i; decide

theorem locate_reserved {offset : Nat} (h1 : 0x100 ≤ offset) (h2 : offset < 0x1000) : locate offset = .reserved := by
  rw [locate_register h2, registerAt]
  repeat rw [if_neg (by omega)]

/-- A host write locks out every word but the two interrupt registers, the read-only ones and the reserved ones, while
BUSY (R256): by offset. -/
theorem lockedWhileBusy_register {offset : Nat} (h : offset < 0x100) (h4 : offset % 4 = 0) :
    lockedWhileBusy (locate offset) = true ↔ offset = 0x004 ∨ offset = 0x008 ∨ (0x020 ≤ offset ∧ offset < 0x0E0) := by
  have all : ∀ n : Fin 64, lockedWhileBusy (locate (4 * n.val)) = true ↔
      (4 * n.val = 0x004 ∨ 4 * n.val = 0x008 ∨ (0x020 ≤ 4 * n.val ∧ 4 * n.val < 0x0E0)) := by decide
  have := all ⟨offset / 4, by omega⟩
  rwa [show 4 * (offset / 4) = offset by omega] at this

/-- Whether a word is a DBUF word. -/
def isDbufWord : Loc → Bool
  | .dbuf _ => true
  | _ => false

theorem isDbufWord_registerAt (offset : Nat) : isDbufWord (registerAt offset) = false := by
  unfold registerAt
  by_cases h : offset < 0x020
  · rw [if_pos h]
    obtain ⟨n, hn⟩ : ∃ n, n = offset / 4 := ⟨_, rfl⟩
    have hlt : n < 8 := by omega
    rw [← hn]
    clear hn
    interval_cases n <;> rfl
  · rw [if_neg h]
    have step : ∀ (c : Prop) [Decidable c] (x y : Loc), isDbufWord x = false → isDbufWord y = false →
        isDbufWord (if c then x else y) = false := by
      intro c _ x y hx hy
      by_cases hc : c
      · rwa [if_pos hc]
      · rwa [if_neg hc]
    repeat refine step _ _ _ rfl ?_
    rfl

/-- Only an offset of the DBUF window names a DBUF word. -/
theorem locate_eq_dbuf {offset a : Nat} (h : locate offset = .dbuf a) : offset = 0x1000 + a := by
  by_cases h1 : offset < 0x1000
  · rw [locate_register h1] at h
    have := isDbufWord_registerAt offset
    rw [h] at this
    cases this
  · obtain ⟨k, rfl⟩ : ∃ k, offset = 0x1000 + k := ⟨offset - 0x1000, by omega⟩
    rw [locate_dbuf] at h
    cases h
    rfl

/-- A legal access to the DBUF window touches four octets inside DBUF (R63). -/
theorem legal_dbuf_fits {P : Params} {a : Access} (h : accessLegal P a) {o : Nat}
    (hl : locate (accessOffset a) = .dbuf o) : o + 4 ≤ P.dbufSize := by
  obtain ⟨-, h2, h3⟩ := h
  have := locate_eq_dbuf hl
  have := dbufSize_mod P
  omega

/-! ### Reads and writes -/

/-- A host read changes nothing but the bus's answer and the count of free values (R65). -/
theorem hostRead_eq (P : Params) (s : State) (loc : Loc) :
    ∃ w n, hostRead P s loc = { s with reply := .data w, tick := n } := by
  unfold hostRead
  split
  · exact ⟨_, _, rfl⟩
  · exact ⟨_, _, rfl⟩

theorem hostRead_calm {P : Params} {s : State} {loc : Loc} (h : readRaces s loc = false) :
    hostRead P s loc = { s with reply := .data (currentWord P s loc) } := by
  simp [hostRead, h]

theorem readRaces_idle {s : State} (h : s.status.busy = false) (loc : Loc) : readRaces s loc = false := by
  simp [readRaces, h]

theorem hostWrite_idle {s : State} (h : s.status.busy = false) (loc : Loc) (w : Word) :
    hostWrite s loc w = storeWord s loc w := by
  simp [hostWrite, h]

theorem hostWrite_locked {s : State} {loc : Loc} (h : s.status.busy = true) (hl : lockedWhileBusy loc = true) (w : Word) :
    hostWrite s loc w = { s with status := { s.status with wign := true } } := by
  simp [hostWrite, h, hl]

theorem hostWrite_open {s : State} {loc : Loc} (hl : lockedWhileBusy loc = false) (w : Word) :
    hostWrite s loc w = storeWord s loc w := by
  simp [hostWrite, hl]

/-- An access leaves the events still to come alone. -/
@[simp] theorem applyAccess_events (P : Params) (s : State) (a : Access) : (applyAccess P s a).events = s.events := by
  cases a with
  | read width offset =>
    obtain ⟨w, n, h⟩ := hostRead_eq P s (locate offset)
    simp [applyAccess, h]
  | write width offset w =>
    simp only [applyAccess, hostWrite]
    split
    · rfl
    · cases locate offset <;> rfl

/-- While a command runs, an access leaves the latched word and every flag of STATUS but WIGN alone (R256–R258). -/
theorem applyAccess_busy {s : State} (h : s.status.busy = true) (P : Params) (a : Access) :
    (applyAccess P s a).pcmd = s.pcmd ∧
      (applyAccess P s a).status = { s.status with wign := (applyAccess P s a).status.wign } := by
  cases a with
  | read width offset =>
    obtain ⟨w, n, he⟩ := hostRead_eq P s (locate offset)
    rw [applyAccess, he]
    exact ⟨rfl, rfl⟩
  | write width offset w =>
    simp only [applyAccess]
    cases hl : lockedWhileBusy (locate offset) with
    | true => rw [hostWrite_locked h hl]; exact ⟨rfl, rfl⟩
    | false =>
      rw [hostWrite_open hl]
      cases hloc : locate offset <;> rw [hloc] at hl <;>
        first
          | exact ⟨rfl, rfl⟩
          | cases hl

theorem octetsOf_word_length (w : Word) : (octetsOf w).length = 4 := by simp

/-! ### Write sets, by name and by octet (R46, R258) -/

/-- A property of the register words that holds at each of the first 64 words holds below 0x100. -/
theorem forall_register_word {p : Nat → Prop} (h : ∀ n : Fin 64, p (4 * n.val)) {offset : Nat} (h1 : offset < 0x100)
    (h4 : offset % 4 = 0) : p offset := by
  have := h ⟨offset / 4, by omega⟩
  rwa [show 4 * (offset / 4) = offset by omega] at this

/-- An aligned word shares an octet with an aligned group of words exactly when it is one of them. -/
theorem word_meets_group {lo hi offset : Nat} (hl : lo % 4 = 0) (hh : hi % 4 = 0) (h4 : offset % 4 = 0) :
    (∃ x, offset ≤ x ∧ x < offset + 4 ∧ lo ≤ x ∧ x < hi) ↔ lo ≤ offset ∧ offset < hi := by
  constructor
  · rintro ⟨x, h1, h2, h3, h5⟩; omega
  · intro h; exact ⟨offset, by omega, by omega, h⟩

/-- A word shares an octet with a DBUF region. -/
theorem word_meets_region {a l offset : Nat} :
    (∃ x, offset ≤ x ∧ x < offset + 4 ∧ 0x1000 + a ≤ x ∧ x < 0x1000 + a + l) ↔
      0 < l ∧ offset < 0x1000 + a + l ∧ 0x1000 + a < offset + 4 := by
  constructor
  · rintro ⟨x, h1, h2, h3, h5⟩; omega
  · intro h
    by_cases h1 : offset ≤ 0x1000 + a
    · exact ⟨0x1000 + a, by omega⟩
    · exact ⟨offset, by omega⟩

/-- The write set of a command as a property of the words of the register map. -/
def registerWritten (i : Instr) (offset : Nat) : Bool :=
  match i with
  | .nop => false
  | .tagcmp => false
  | .noncePrep => 0x060 ≤ offset && offset < 0x070
  | .incrL => 0x0C0 ≤ offset && offset < 0x0D0
  | .incrR => 0x0C0 ≤ offset && offset < 0x0D0
  | .encblk => 0x0D0 ≤ offset && offset < 0x0E0
  | .gfmul64 => 0x0B0 ≤ offset && offset < 0x0C0
  | .gfmac64 => 0x0B0 ≤ offset && offset < 0x0C0
  | .gfmul128 => 0x0B0 ≤ offset && offset < 0x0C0
  | .gfmac128 => 0x0B0 ≤ offset && offset < 0x0C0
  | .mgmSeal => 0x070 ≤ offset && offset < 0x080
  | .mgmOpen => false
  | .acpkmDerive => 0x0E0 ≤ offset && offset < 0x100
  | .acpkmDeriveLoad => (0x0E0 ≤ offset && offset < 0x100) || (0x040 ≤ offset && offset < 0x060)
  | .ctrAcpkm => false
  | .acpkmMaster => false

/-- The write set on a register word does not depend on the state. -/
theorem writeSet_register (i : Instr) (s : State) {loc : Loc} (h : isDbufWord loc = false) :
    writeSet i s loc = writeSet i State.reset loc := by
  cases loc <;> first | (cases i <;> rfl) | cases h

theorem writeSet_reserved (i : Instr) (s : State) : writeSet i s .reserved = false := by cases i <;> rfl

theorem writeSet_registerAt (i : Instr) (s : State) {offset : Nat} (h : offset < 0x1000) (h4 : offset % 4 = 0) :
    writeSet i s (locate offset) = registerWritten i offset := by
  by_cases h1 : offset < 0x100
  · have hd : isDbufWord (locate offset) = false := by rw [locate_register h]; exact isDbufWord_registerAt offset
    rw [writeSet_register i s hd]
    exact forall_register_word (p := fun offset => writeSet i State.reset (locate offset) = registerWritten i offset)
      (by cases i <;> decide) h1 h4
  · rw [locate_reserved (by omega) h, writeSet_reserved]
    cases i <;> simp only [registerWritten] <;> simp <;> omega

/-- The words of a write set are those that share an octet with it. -/
theorem writeSet_iff (i : Instr) (s : State) {offset : Nat} (h4 : offset % 4 = 0) :
    writeSet i s (locate offset) = true ↔ wordWritten i s offset := by
  by_cases h1 : offset < 0x1000
  · rw [writeSet_registerAt i s h1 h4]
    cases i <;> simp only [registerWritten, wordWritten, writesAt, Bool.and_eq_true, Bool.or_eq_true, decide_eq_true_eq]
    case nop => simp
    case tagcmp => simp
    case mgmSeal =>
      constructor
      · intro h; exact ⟨offset, by omega, by omega, .inl h⟩
      · rintro ⟨x, h2, h3, h5⟩; omega
    case acpkmDeriveLoad =>
      constructor
      · intro h; exact ⟨offset, by omega, by omega, h⟩
      · rintro ⟨x, h2, h3, h5⟩; omega
    case mgmOpen => rw [word_meets_region]; exact ⟨fun h => absurd h (by decide), fun h => by omega⟩
    case ctrAcpkm => rw [word_meets_region]; exact ⟨fun h => absurd h (by decide), fun h => by omega⟩
    case acpkmMaster => rw [word_meets_region]; exact ⟨fun h => absurd h (by decide), fun h => by omega⟩
    all_goals rw [word_meets_group (by rfl) (by rfl) h4]
  · obtain ⟨k, rfl⟩ : ∃ k, offset = 0x1000 + k := ⟨offset - 0x1000, by omega⟩
    rw [locate_dbuf]
    cases i <;>
      simp only [writeSet, wordWritten, writesAt, wordInRegion, overlap, Bool.and_eq_true, decide_eq_true_eq]
    case mgmSeal =>
      constructor
      · intro h
        obtain ⟨x, hx⟩ := (word_meets_region (a := s.arg 4) (l := s.arg 3 + s.ctrl.tagOctets s.ctrl.bs.toNat)
          (offset := 0x1000 + k)).mpr (by omega)
        exact ⟨x, hx.1, hx.2.1, .inr hx.2.2⟩
      · rintro ⟨x, h2, h3, h5⟩; omega
    case mgmOpen => rw [word_meets_region]; omega
    case ctrAcpkm => rw [word_meets_region]; omega
    case acpkmMaster => rw [word_meets_region]; omega
    all_goals
      constructor
      · intro h; cases h
      · rintro ⟨x, h2, h3, h5⟩
        first | exact h5.elim | omega

/-- The write-only words are CMD and those of KEY (R25, R31): by offset. -/
theorem writeOnly_iff {offset : Nat} (h4 : offset % 4 = 0) :
    writeOnly (locate offset) = true ↔ offset = 0x008 ∨ (0x040 ≤ offset ∧ offset < 0x060) := by
  by_cases h : offset < 0x100
  · exact forall_register_word
      (p := fun offset => writeOnly (locate offset) = true ↔ offset = 0x008 ∨ (0x040 ≤ offset ∧ offset < 0x060))
      (by decide) h h4
  · by_cases h1 : offset < 0x1000
    · rw [locate_reserved (by omega) h1]
      simp [writeOnly]; omega
    · obtain ⟨k, rfl⟩ : ∃ k, offset = 0x1000 + k := ⟨offset - 0x1000, by omega⟩
      rw [locate_dbuf]
      simp [writeOnly]; omega

/-- A read races exactly when some octet of its word is in the write set of the running command, but for KEY, which reads
0 whatever it holds (R31, R258). -/
theorem readRaces_iff {s : State} {i : Instr} (hb : s.status.busy = true) (hd : decode s.pcmd = .ok i) {offset : Nat}
    (h4 : offset % 4 = 0) :
    readRaces s (locate offset) = true ↔ wordWritten i s offset ∧ ¬ (0x040 ≤ offset ∧ offset < 0x060) := by
  have hcmd : wordWritten i s offset → offset ≠ 0x008 := by
    rw [← writeSet_iff i s h4]
    rintro h rfl
    cases i <;> cases h
  have hw := writeOnly_iff h4
  rw [← writeSet_iff i s h4] at hcmd ⊢
  simp only [readRaces, hb, hd, Bool.true_and, Bool.and_eq_true, Bool.not_eq_true', ← Bool.not_eq_true, hw]
  constructor
  · rintro ⟨h1, h2⟩
    exact ⟨h2, fun h => h1 (.inr h)⟩
  · rintro ⟨h1, h2⟩
    exact ⟨fun h => h.elim (hcmd h1) h2, h1⟩

/-- While an illegal word is latched no read races (R86). -/
theorem readRaces_illegal {s : State} {e : IllegalWord} (hd : decode s.pcmd = .error e) (loc : Loc) :
    readRaces s loc = false := by
  simp [readRaces, hd]

/-! ### The invariant -/

theorem coherent_accepted : Status.accepted.coherent := by
  simp [Status.coherent, Status.accepted]

theorem coherent_wign {t : Status} (h : t.coherent) (v : Bool) : ({ t with wign := v } : Status).coherent := h

theorem errCode_code_bounds (c : ErrCode) : c.code ≠ 0#4 ∧ c.code.toNat ≤ 7 := by cases c <;> decide

/-- A completion of a running command leaves coherent flags (R26, R101, R221). -/
theorem coherent_completed {s : State} (h : s.status.coherent) (hb : s.status.busy = true) (r : Result) :
    (finish s r).status.coherent := by
  obtain ⟨h1, h2, h3, h4, h5⟩ := h
  obtain ⟨hd, he, ha, hc⟩ := h1 hb
  cases r with
  | ok ws a => simp [Status.coherent, Status.completedOk, he, hc]
  | err c =>
    have := errCode_code_bounds c
    simp [Status.coherent, Status.completedErr, this.1, this.2]

theorem inv_finish {P : Params} {s : State} (h : s.Inv P) (hb : s.status.busy = true) (r : Result)
    (hr : ∀ ws a, r = .ok ws a → ∀ o v, Write.dbuf o v ∈ ws → v = [] ∨ o + v.length ≤ P.dbufSize) :
    (finish s r).Inv P := by
  obtain ⟨hw, hl, hc⟩ := h
  refine ⟨?_, ?_, coherent_completed hc hb r⟩
  · cases r with
    | ok ws a => exact (applyWrites_memory ws s (hr ws a rfl) ⟨hw, hl⟩).1
    | err c => exact hw
  · cases r with
    | ok ws a => exact (applyWrites_memory ws s (hr ws a rfl) ⟨hw, hl⟩).2
    | err c => exact hl

theorem inv_storeWord {P : Params} {s : State} (h : s.Inv P) (loc : Loc) (w : Word)
    (hl : ∀ a, loc = .dbuf a → a + 4 ≤ P.dbufSize) : (storeWord s loc w).Inv P := by
  obtain ⟨hw, hm, hc⟩ := h
  cases loc with
  | dbuf a =>
    have := hl a rfl
    exact ⟨Memory.wf_writeOctets hw a _, Memory.below_writeOctets hm _ (.inr (by simpa using this)), hc⟩
  | cmd => exact ⟨hw, hm, coherent_accepted⟩
  | _ => exact ⟨hw, hm, hc⟩

theorem inv_hostWrite {P : Params} {s : State} (h : s.Inv P) (loc : Loc) (w : Word)
    (hl : ∀ a, loc = .dbuf a → a + 4 ≤ P.dbufSize) : (hostWrite s loc w).Inv P := by
  unfold hostWrite
  split
  · exact ⟨h.1, h.2.1, coherent_wign h.2.2 true⟩
  · exact inv_storeWord h loc w hl

theorem inv_applyAccess {P : Params} {s : State} (h : s.Inv P) {a : Access} (ha : accessLegal P a) :
    (applyAccess P s a).Inv P := by
  cases a with
  | read width offset =>
    obtain ⟨w, n, he⟩ := hostRead_eq P s (locate offset)
    rw [applyAccess, he]
    exact h
  | write width offset w => exact inv_hostWrite h (locate offset) w (fun o ho => legal_dbuf_fits ha ho)

theorem inv_resetEngine {P : Params} (s : State) : (resetEngine s).Inv P := by
  refine ⟨Memory.wf_nil, by simp [State.reset], ?_⟩
  simp [Status.coherent, State.reset]

end Sys2Proof.Machine
end

