-- ==== Sys2Proof/Laws/Decode.lean ====
section
/-! SUPPORT. The fields of a command word, and what the opcode map gives. -/

namespace Sys2Proof

/-- No bit of a word is lost in its fields (R80, R81). -/
theorem packFields_fieldsOf (w : Word) : packFields (fieldsOf w) = w := by
  apply BitVec.eq_of_getLsbD_eq
  intro i hi
  simp only [packFields, fieldsOf]
  rw [BitVec.getLsbD_append, BitVec.getLsbD_append]
  simp only [BitVec.getLsbD_extractLsb']
  by_cases h9 : i < 9
  · by_cases h8 : i < 8
    · simp [h9, h8]
    · have : i = 8 := by omega
      subst this
      simp
  · simp [h9, show i - 9 < 23 by omega, show 9 + (i - 9) = i by omega]

/-- The fields of a packed word are the fields packed. -/
theorem fieldsOf_packFields (c : CommandWord) : fieldsOf (packFields c) = c := by
  obtain ⟨opc, flag, rsv⟩ := c
  simp only [packFields, fieldsOf, CommandWord.mk.injEq]
  refine ⟨?_, ?_, ?_⟩
  · apply BitVec.eq_of_getLsbD_eq
    intro i hi
    rw [BitVec.getLsbD_extractLsb', BitVec.getLsbD_append, BitVec.getLsbD_append]
    simp [hi, show i < 9 by omega]
  · rw [BitVec.getLsbD_append, BitVec.getLsbD_append]
    simp
  · apply BitVec.eq_of_getLsbD_eq
    intro i hi
    rw [BitVec.getLsbD_extractLsb', BitVec.getLsbD_append]
    simp [hi]

/-- The map gives a command exactly for its own OPC and F (R84). -/
theorem commandOf_eq_some (opc : BitVec 8) (flag : Bool) (i : Instr) :
    commandOf opc flag = some i ↔ opc = opcOf i ∧ flag = flagOf i := by
  have rows : ∀ row ∈ opcodeMap, row.1 = (opcOf row.2.2).toNat ∧ row.2.1 = flagOf row.2.2 := by decide
  constructor
  · intro h
    obtain ⟨row, hrow, rfl⟩ := Option.map_eq_some_iff.mp h
    obtain ⟨h1, h2⟩ := rows row (List.mem_of_find?_eq_some hrow)
    have hp := List.find?_some hrow
    simp only [Bool.and_eq_true, beq_iff_eq] at hp
    exact ⟨BitVec.eq_of_toNat_eq (by omega), by rw [← hp.2, h2]⟩
  · rintro ⟨rfl, rfl⟩
    cases i <;> decide

/-- Each command has one row (R84). -/
theorem opcodeMap_nodup : (opcodeMap.map fun row => (row.1, row.2.1)).Nodup := by decide

/-- A command's fields are legal. -/
theorem Instr.wellFormed_eq_true (i : Instr) : i.wellFormed = true := by cases i <;> decide

end Sys2Proof
end

