-- ==== Sys2Proof/Laws/PerInstr.lean ====
section
/-! SUPPORT. The family DecodeEncode: what holds of each instruction's word. -/

namespace Sys2Proof.Laws.DecodeEncode

/-- The instruction's word is legal and decodes to the instruction (R84, R87). -/
def Statement (i : Instr) : Prop := decode (encode i) = .ok i ∧ i.wellFormed = true

theorem nop : Statement .nop := ⟨rfl, rfl⟩

theorem gfmul64 : Statement .gfmul64 := ⟨rfl, rfl⟩

theorem gfmac64 : Statement .gfmac64 := ⟨rfl, rfl⟩

theorem gfmul128 : Statement .gfmul128 := ⟨rfl, rfl⟩

theorem gfmac128 : Statement .gfmac128 := ⟨rfl, rfl⟩

theorem incrL : Statement .incrL := ⟨rfl, rfl⟩

theorem incrR : Statement .incrR := ⟨rfl, rfl⟩

theorem noncePrep : Statement .noncePrep := ⟨rfl, rfl⟩

theorem encblk : Statement .encblk := ⟨rfl, rfl⟩

theorem tagcmp : Statement .tagcmp := ⟨rfl, rfl⟩

theorem mgmSeal : Statement .mgmSeal := ⟨rfl, rfl⟩

theorem mgmOpen : Statement .mgmOpen := ⟨rfl, rfl⟩

theorem acpkmDerive : Statement .acpkmDerive := ⟨rfl, rfl⟩

theorem acpkmDeriveLoad : Statement .acpkmDeriveLoad := ⟨rfl, rfl⟩

theorem ctrAcpkm : Statement .ctrAcpkm := ⟨rfl, rfl⟩

theorem acpkmMaster : Statement .acpkmMaster := ⟨rfl, rfl⟩

end Sys2Proof.Laws.DecodeEncode
end

