-- ==== Sys2Proof/Laws/Step.lean ====
section
/-! SUPPORT. What one step does, said once: which event it takes, and the completion step (R101, R103). -/

namespace Sys2Proof.Machine

/-! ### The completion step -/

theorem complete_idle {s : State} (h : s.status.busy = false) : complete s = .next s := by
  simp [complete, h]

theorem complete_legal {s : State} {i : Instr} (h : s.status.busy = true) (hd : decode s.pcmd = .ok i) :
    complete s = exec i s := by
  simp [complete, h, hd]

theorem complete_illegal {s : State} {e : IllegalWord} (h : s.status.busy = true) (hd : decode s.pcmd = .error e) :
    complete s = .next (s.fail 1#4) := by
  simp [complete, h, hd, finish_err_eq_fail, ErrCode.code]

/-- The completion step always answers a next state: the state itself where the engine is idle, else a completion whose
DBUF writes lie inside DBUF. -/
theorem complete_cases (s : State) :
    (s.status.busy = false ∧ complete s = .next s) ∨
    (s.status.busy = true ∧ ∃ r, complete s = .next (finish s r) ∧
      ∀ ws a, r = .ok ws a → ∀ o v, Write.dbuf o v ∈ ws → v = [] ∨ o + v.length ≤ Config.engine.dbufSize) := by
  cases hb : s.status.busy with
  | false => exact .inl ⟨rfl, complete_idle hb⟩
  | true =>
    refine .inr ⟨rfl, ?_⟩
    cases hd : decode s.pcmd with
    | ok i =>
      refine ⟨commandResult Config.engine i s, by rw [complete_legal hb hd, exec_eq], ?_⟩
      intro ws a hr o v hw
      exact commandResult_dbuf_fits hr hw
    | error e =>
      refine ⟨.err .illegalCmd, by simp [complete, hb, hd], ?_⟩
      intro ws a hr
      cases hr

theorem complete_next_idle (s : State) : ∃ t, complete s = .next t ∧ t.status.busy = false := by
  rcases complete_cases s with ⟨hb, h⟩ | ⟨-, r, h, -⟩
  · exact ⟨s, h, hb⟩
  · exact ⟨_, h, (finish_flags s r).1⟩

/-- The completion step leaves the events still to come and the latched word alone. -/
theorem complete_keeps {s t : State} (h : complete s = .next t) : t.events = s.events ∧ t.pcmd = s.pcmd := by
  rcases complete_cases s with ⟨-, he⟩ | ⟨-, r, he, -⟩
  · rw [he] at h; cases h; exact ⟨rfl, rfl⟩
  · rw [he] at h; cases h; exact ⟨finish_events s r, finish_pcmd s r⟩

/-- Where a command runs, the completion step clears BUSY and sets DONE and CMPL. -/
theorem complete_busy {s : State} (h : s.status.busy = true) :
    ∃ t, complete s = .next t ∧ t.status.busy = false ∧ t.status.done = true ∧ t.irqStatus.cmpl = true := by
  rcases complete_cases s with ⟨hb, -⟩ | ⟨-, r, he, -⟩
  · rw [h] at hb; cases hb
  · have := finish_flags s r
    exact ⟨_, he, this.1, this.2.1, this.2.2.1⟩

theorem inv_complete {s t : State} (h : s.Inv Config.engine) (hs : complete s = .next t) : t.Inv Config.engine := by
  rcases complete_cases s with ⟨-, he⟩ | ⟨hb, r, he, hr⟩
  · rw [he] at hs; cases hs; exact h
  · rw [he] at hs; cases hs; exact inv_finish h hb r hr

/-! ### One step -/

theorem step_nil {s : State} (h : s.events = []) : step s = complete { s with reply := .none } := by
  simp [step, runNext, h]

theorem step_cons {s : State} {e : Event} {rest : List Event} (h : s.events = e :: rest) :
    step s = handle { s with events := rest, reply := .none } e := by
  simp [step, runNext, h]

theorem handle_access (s : State) (a : Access) : handle s (.access a) = serve Config.engine s a := rfl

theorem handle_completion (s : State) : handle s .completion = complete s := rfl

theorem handle_reset (s : State) : handle s .reset = .next (resetEngine s) := rfl

/-- An access and a completion in one step: the access first, then the completion (R27, R227). -/
theorem handle_both_busy {s : State} (h : s.status.busy = true) {a : Access} (ha : accessLegal Config.engine a) :
    handle s (.accessWithCompletion a) = complete (applyAccess Config.engine s a) := by
  simp [handle, serveAndComplete, h, serve_legal ha]

theorem handle_both_idle {s : State} (h : s.status.busy = false) (a : Access) :
    handle s (.accessWithCompletion a) = serve Config.engine s a := by
  simp [handle, serveAndComplete, h]

theorem inv_handle {s t : State} (h : s.Inv Config.engine) (e : Event) (hs : handle s e = .next t) :
    t.Inv Config.engine := by
  cases e with
  | access a =>
    obtain ⟨ha, rfl⟩ := serve_eq_next hs
    exact inv_applyAccess h ha
  | completion => exact inv_complete h hs
  | reset => cases hs; exact inv_resetEngine s
  | accessWithCompletion a =>
    cases hb : s.status.busy with
    | false =>
      rw [handle_both_idle hb] at hs
      obtain ⟨ha, rfl⟩ := serve_eq_next hs
      exact inv_applyAccess h ha
    | true =>
      simp only [handle, serveAndComplete, hb, if_true] at hs
      split at hs
      · rename_i u hu
        obtain ⟨ha, rfl⟩ := serve_eq_next hu
        exact inv_complete (inv_applyAccess h ha) hs
      · cases hs
      · cases hs

end Sys2Proof.Machine
end

