-- ==== Sys2Proof/Tests/Slice0.lean ====
section
/-! SUPPORT. Tests of the model. The expected results are the rules' own examples, or the vectors of
spec/95_test_vectors.md, which the spec derives from its rules by hand; each test names its vector. The second half
shows, for every statement with hypotheses, a state and operands that meet them. -/

namespace Sys2Proof.Tests

open Sys2Proof.Machine

set_option maxRecDepth 20000

/-! ### Ill-formed command words -/

/-- RSV = 1: bit 9 of the word is set. -/
theorem test_reserved_bit_is_ill_formed :
    (CommandWord.mk 0x00#8 false 1#23).rsvClear = false ∧ (CommandWord.mk 0x00#8 false 1#23).wellFormed = false := by
  decide

/-- OPC = 0x08 is not in the map. -/
theorem test_unassigned_opcode_is_ill_formed :
    (CommandWord.mk 0x08#8 false 0#23).opcAssigned = false ∧ (CommandWord.mk 0x08#8 false 0#23).wellFormed = false := by
  decide

/-- F = 1 on OPC = 0x10, which has no such row. -/
theorem test_flag_on_seal_is_ill_formed :
    (CommandWord.mk 0x10#8 true 0#23).flagAllowed = false ∧ (CommandWord.mk 0x10#8 true 0#23).wellFormed = false := by
  decide

/-- F = 1 on OPC = 0x20 is ACPKM_DERIVE_LOAD. -/
theorem test_flag_on_derive_is_well_formed : (CommandWord.mk 0x20#8 true 0#23).wellFormed = true := by decide

/-! ### Decoding: the words of R84 written out as RSV, F, OPC -/

theorem test_decode_utility_words :
    decode 0b00000000000000000000000_0_00000000#32 = .ok .nop ∧
    decode 0b00000000000000000000000_0_00000011#32 = .ok .incrL ∧
    decode 0b00000000000000000000000_0_00000100#32 = .ok .incrR ∧
    decode 0b00000000000000000000000_0_00000101#32 = .ok .noncePrep ∧
    decode 0b00000000000000000000000_0_00000110#32 = .ok .encblk ∧
    decode 0b00000000000000000000000_0_00000111#32 = .ok .tagcmp := by decide

theorem test_decode_multiplier_words :
    decode 0b00000000000000000000000_0_00000001#32 = .ok .gfmul64 ∧
    decode 0b00000000000000000000000_1_00000001#32 = .ok .gfmac64 ∧
    decode 0b00000000000000000000000_0_00000010#32 = .ok .gfmul128 ∧
    decode 0b00000000000000000000000_1_00000010#32 = .ok .gfmac128 := by decide

theorem test_decode_mgm_words :
    decode 0b00000000000000000000000_0_00010000#32 = .ok .mgmSeal ∧
    decode 0b00000000000000000000000_0_00010001#32 = .ok .mgmOpen := by decide

theorem test_decode_acpkm_words :
    decode 0b00000000000000000000000_0_00100000#32 = .ok .acpkmDerive ∧
    decode 0b00000000000000000000000_1_00100000#32 = .ok .acpkmDeriveLoad ∧
    decode 0b00000000000000000000000_0_00100001#32 = .ok .ctrAcpkm ∧
    decode 0b00000000000000000000000_0_00100010#32 = .ok .acpkmMaster := by decide

/-- Reserved bit 9 and bit 31, an unassigned OPC, and F where it is not allowed (R86). -/
theorem test_decode_illegal_words :
    decode 0b00000000000000000000001_0_00000000#32 = .error .reservedBits ∧
    decode 0b10000000000000000000000_0_00000001#32 = .error .reservedBits ∧
    decode 0b00000000000000000000000_0_00001000#32 = .error .unassignedOpcode ∧
    decode 0b00000000000000000000000_0_00100011#32 = .error .unassignedOpcode ∧
    decode 0b00000000000000000000000_1_00000000#32 = .error .flagNotAllowed ∧
    decode 0b00000000000000000000000_1_00100001#32 = .error .flagNotAllowed := by decide

/-- The host's view of the decoder takes the word as it stands. -/
theorem test_decode_table_word : decodeTableWord 32 0x120 = some .acpkmDeriveLoad ∧ decodeTableWord 32 0x320 = none := by
  decide

/-! ### Helpers: the toy cipher of the spec's vectors, and small states -/

/-- TOYX, the block XORed with the first bs octets of the key, and DBUF_SIZE = 4096. -/
def toyX : Params where
  bc8 := fun k x => x ^^^ k.extractLsb' 192 64
  bc16 := fun k x => x ^^^ k.extractLsb' 128 128
  dbufUnits := 255#24
  dbufInit := fun _ _ => 0xCC#8
  raceWord := fun k => BitVec.ofNat 32 k

/-- TOYID, the identity. -/
def toyId : Params := { toyX with bc8 := fun _ x => x, bc16 := fun _ x => x }

/-- The vectors' key 00..1F. -/
def testKey : Key := 0x000102030405060708090A0B0C0D0E0F101112131415161718191A1B1C1D1E1F#256

/-- The reset state with the given CTRL fields, the vectors' key and ARG0..ARG4. -/
def sample (bs ts : BitVec 8) (a0 a1 a2 a3 a4 : Word) : State :=
  { State.reset with
    ctrl := { bs := bs, tagsize := ts }
    key := testKey
    args := #v[a0, a1, a2, a3, a4, 0#32, 0#32, 0#32] }

/-- The state while the command word runs. -/
def running (w : Word) (s : State) : State := { s with pcmd := w, status := Status.accepted }

/-- What a command leaves, where it ends in a next state. -/
def after : Host.Outcome State Fault Refusal → Option State
  | .next t => some t
  | .fault _ => none
  | .refused _ => none

/-! ### Utility commands -/

/-- U6: NOP right after reset: STATUS 0x00000002, IRQ_STATUS 0x00000001. -/
theorem test_nop_flags : (after (exec .nop (running 0#32 State.reset))).map (fun t => (t.status.toWord, t.irqStatus.toWord)) =
    some (0x00000002#32, 0x00000001#32) := by decide

/-- I3: only the right half wraps; octets 8..15 are cleared. -/
theorem test_incr_l_short_block :
    (after (exec .incrL { sample 8#8 0#8 0#32 0#32 0#32 0#32 0#32 with cnt := 0x12345678FFFFFFFF7777777777777777#128 })).map
      State.cnt = some 0x12345679FFFFFFFF0000000000000000#128 := by decide

/-- I6: a carry across the 32-bit boundary inside the left half. -/
theorem test_incr_l_long_block :
    (after (exec .incrL { sample 16#8 0#8 0#32 0#32 0#32 0#32 0#32 with cnt := 0x00000000FFFFFFFFFFFFFFFFFFFFFFFF#128 })).map
      State.cnt = some 0x0000000100000000FFFFFFFFFFFFFFFF#128 := by decide

/-- I3: the right half wraps without a carry into the left one. -/
theorem test_incr_r_short_block :
    (after (exec .incrR { sample 8#8 0#8 0#32 0#32 0#32 0#32 0#32 with cnt := 0x12345678FFFFFFFF7777777777777777#128 })).map
      State.cnt = some 0x12345678000000000000000000000000#128 := by decide

/-- I6. -/
theorem test_incr_r_long_block :
    (after (exec .incrR { sample 16#8 0#8 0#32 0#32 0#32 0#32 0#32 with cnt := 0x00000000FFFFFFFFFFFFFFFFFFFFFFFF#128 })).map
      State.cnt = some 0x00000000FFFFFFFF0000000000000000#128 := by decide

/-- CTRL.BS = 12: STATUS 0x00000206 and CNT unchanged. -/
theorem test_incr_r_illegal_block_size :
    (after (exec .incrR (sample 12#8 0#8 0#32 0#32 0#32 0#32 0#32))).map (fun t => (t.status.toWord, t.cnt)) =
      some (0x00000206#32, 0#128) := by decide

/-- U1, with CTRL = 0, which NONCE_PREP does not read. -/
theorem test_nonce_prep :
    (after (exec .noncePrep { sample 0#8 0#8 0#32 0#32 0#32 0#32 0#32 with nonce := 0x9122334455667700FFEEDDCCBBAA9988#128 })).map
      (fun t => (t.nonce, t.status.toWord)) = some (0x1122334455667700FFEEDDCCBBAA9988#128, 0x00000002#32) := by decide

/-- U3. -/
theorem test_encblk_long_block :
    (finish State.reset (encblkResult toyX { sample 16#8 0#8 0#32 0#32 0#32 0#32 0#32 with
      blk := 0xFFFFFFFFFFFFFFFFFFFFFFFFFFFFFFFF#128 })).blk = 0xFFFEFDFCFBFAF9F8F7F6F5F4F3F2F1F0#128 := by decide

/-- U4. -/
theorem test_encblk_short_block :
    (finish State.reset (encblkResult toyX { sample 8#8 0#8 0#32 0#32 0#32 0#32 0#32 with
      blk := 0xFFFFFFFFFFFFFFFF7777777777777777#128 })).blk = 0xFFFEFDFCFBFAF9F80000000000000000#128 := by decide

/-- C1: T = 4, the rest differs. -/
theorem test_tagcmp_equal_prefix :
    (after (exec .tagcmp { sample 16#8 4#8 0#32 0#32 0#32 0#32 0#32 with
      tag := 0xB39B256E000000000000000000000000#128, tagin := 0xB39B256EFF00000000000000000000FF#128 })).map
      (fun t => t.status.toWord) = some 0x0000000A#32 := by decide

/-- C4: T = 16, octet 15 differs. -/
theorem test_tagcmp_last_octet :
    (after (exec .tagcmp { sample 16#8 0#8 0#32 0#32 0#32 0#32 0#32 with
      tag := 0xB39B256E000000000000000000000000#128, tagin := 0xB39B256E000000000000000000000001#128 })).map
      (fun t => t.status.toWord) = some 0x00000706#32 := by decide

/-! ### The multiplier -/

/-- G6. -/
theorem test_gfmul64 :
    (after (exec .gfmul64 { State.reset with
      gfa := 0x80000000000000000000000000000007#128, gfb := 0x80000000000000000000000000000009#128, gfz := 5#128 })).map
      State.gfz = some 0xC00000000000005A0000000000000000#128 := by decide

/-- M1. -/
theorem test_gfmac64 :
    (after (exec .gfmac64 { State.reset with
      gfz := 0x11111111111111112222222222222222#128
      gfa := 0x0123456789ABCDEF0000000000000000#128, gfb := 0xFEDCBA98765432100000000000000000#128 })).map
      State.gfz = some 0x59936BA44C867EB10000000000000000#128 := by decide

/-- H6. -/
theorem test_gfmul128 :
    (after (exec .gfmul128 { State.reset with
      gfa := 0x0123456789ABCDEFFEDCBA9876543210#128, gfb := 0x00112233445566778899AABBCCDDEEFF#128 })).map
      State.gfz = some 0x78718A5A6FDD9DE6E04C89C3C0D7A948#128 := by decide

/-- M2. -/
theorem test_gfmac128 :
    (after (exec .gfmac128 { State.reset with
      gfz := 0x11111111111111111111111111111111#128
      gfa := 0x0123456789ABCDEFFEDCBA9876543210#128, gfb := 0x00112233445566778899AABBCCDDEEFF#128 })).map
      State.gfz = some 0x69609B4B7ECC8CF7F15D98D2D1C6B859#128 := by decide

/-! ### MGM -/

/-- X8: 11 octets of AD at 0, 13 of plaintext at 0x20, output at 0x40. -/
def sealX8 : State :=
  memWrite (memWrite
    { sample 8#8 0#8 0#32 11#32 0x20#32 13#32 0x40#32 with nonce := 0x12DEF06B3C130A590000000000000000#128 }
    0 (List.replicate 11 0x5A#8)) 0x20 ((List.range 13).map fun i => BitVec.ofNat 8 (0x20 + i))

/-- X8, sealed, with the arguments of the open of program P3. -/
def openX8 : State :=
  { finish sealX8 (mgmSealResult toyX sealX8) with args := #v[0#32, 11#32, 0x40#32, 21#32, 0x80#32, 0#32, 0#32, 0#32] }

/-- X8: ciphertext and tag in DBUF, the tag in TAG. -/
theorem test_mgm_seal :
    ofOctets 168 (memRead toyX openX8 0x40 21) = 0x32FFD24818362C7E3AF7DA401024AA71EA5D6E1D05#168 ∧
      openX8.tag = 0x24AA71EA5D6E1D050000000000000000#128 := by decide

/-- V11: sealing in place, the tag lands on the associated data: OVERLAP. -/
theorem test_mgm_seal_overlap :
    (finish State.reset (mgmSealResult toyX (sample 16#8 0#8 0x30#32 1#32 0x20#32 16#32 0x20#32))).status.toWord =
      0x00000606#32 := by decide

/-- X8 opened: the plaintext 20..2C at 0x80, AUTH_OK. -/
theorem test_mgm_open :
    ofOctets 104 (memRead toyX (finish openX8 (mgmOpenResult toyX openX8)) 0x80 13) = 0x202122232425262728292A2B2C#104 ∧
      (finish openX8 (mgmOpenResult toyX openX8)).status.toWord = 0x0000000A#32 := by decide

/-- Program P3, the forged open: the last tag octet is 04: AUTH_FAIL, nothing written. -/
theorem test_mgm_open_forged :
    mgmOpenResult toyX (memWrite openX8 0x54 [0x04#8]) = .err .authFail := by decide

/-! ### ACPKM -/

/-- D3. -/
theorem test_acpkm_derive :
    (finish State.reset (acpkmDeriveResult toyX (sample 8#8 0#8 0#32 0#32 0#32 0#32 0#32))).kd =
      0x8080808080808080888888888888888890909090909090909898989898989898#256 := by decide

/-- D2, into KD and KEY. -/
theorem test_acpkm_derive_load :
    acpkmDeriveLoadResult toyX (sample 16#8 0#8 0#32 0#32 0#32 0#32 0#32) = .ok
      [.kd 0x8080808080808080808080808080808090909090909090909090909090909090#256,
        .key 0x8080808080808080808080808080808090909090909090909090909090909090#256] false := by decide

/-- A2, its first three blocks: two under KEY, the third under the next section key. -/
theorem test_ctr_acpkm :
    ofOctets 192 (ctrAcpkm toyX .b8 testKey [0x12#8, 0x34#8, 0x56#8, 0x78#8] 16
      ((List.range 24).map (BitVec.ofNat 8))) = 0x12345678000000001A3C5E700808080982A5C4EB94959695#192 := by decide

/-- A6g and A6e: an output that ends beyond DBUF, and a zero-length region at any offset. -/
theorem test_ctr_acpkm_range :
    ctrAcpkmResult toyX (sample 16#8 0#8 0x100#32 80#32 0xFC0#32 32#32 0#32) = .err .range ∧
    ctrAcpkmResult toyX (sample 16#8 0#8 0xFFFFFFFF#32 0#32 0xFFFFFFFF#32 16#32 0#32) =
      .ok [.dbuf 0xFFFFFFFF []] false := by decide

/-- AM2, its first three blocks. -/
theorem test_acpkm_master :
    ofOctets 192 (acpkmMaster toyX .b8 testKey 16 24) = 0xFFFEFDFC04050607FFFEFDFC040506067F7F7F7F80808082#192 := by decide

/-- AM3a: T* = 0x18 is no multiple of 16. -/
theorem test_acpkm_master_section_size :
    acpkmMasterResult toyX (sample 16#8 0#8 0#32 16#32 0#32 0x18#32 0#32) = .err .size := by decide

/-! ### Registers, the bus and the lifecycle -/

/-- B3: any value of the two fields is stored, the reserved bits read 0. -/
theorem test_ctrl_reserved_bits : (Ctrl.ofWord 0xFFFFFFFF#32).toWord = 0x0000FFFF#32 := by decide

/-- B8: write 1 to clear. -/
theorem test_irq_status_write_one_to_clear :
    (IrqStatus.clear { cmpl := true, erri := true } 0x00000002#32).toWord = 0x00000001#32 := by decide

/-- B10 and B11: the line follows the enabled pending bits. -/
theorem test_irq_line :
    ({ State.reset with irqStatus := ⟨true, false⟩, irqEnable := ⟨false, true⟩ } : State).irqLine = false ∧
    ({ State.reset with irqStatus := ⟨true, true⟩, irqEnable := ⟨false, true⟩ } : State).irqLine = true := by decide

/-- Octet 0 of a register is bits [31:24] of its first word (R21): KEY0 to KEY7 of the vectors' key. -/
theorem test_key_words_are_big_endian :
    setWordOf (setWordOf testKey 0 0xAABBCCDD#32) 7 0x11223344#32 =
      0xAABBCCDD0405060708090A0B0C0D0E0F101112131415161718191A1B11223344#256 := by decide

/-- Program P5: a write to CTRL while BUSY is ignored and sets WIGN: STATUS 0x00000011. -/
theorem test_write_while_busy :
    (applyAccess toyX (running 0x120#32 State.reset) (.write 32 0x004 0x10FF#32)).status.toWord = 0x00000011#32 ∧
    (applyAccess toyX (running 0x120#32 State.reset) (.write 32 0x004 0x10FF#32)).ctrl = State.reset.ctrl := by decide

/-- KEY reads 0 whatever its content (R31, vector B4), also while ACPKM_DERIVE_LOAD is to write it. -/
theorem test_key_reads_zero_while_loading :
    (applyAccess toyX (running 0x120#32 (sample 16#8 0#8 0#32 0#32 0#32 0#32 0#32)) (.read 32 0x040)).reply =
      .data 0#32 := by decide

/-- E1 to E4: shapes the window does not accept; and the first offset beyond a window of 4096 + 4096 octets. -/
theorem test_bus_errors :
    serve toyX State.reset (.read 32 0x002) = .fault (.busError 0x002 0#32) ∧
    serve toyX State.reset (.write 16 0x004 0#32) = .fault (.busError 0x004 0#32) ∧
    serve toyX State.reset (.read 8 0x1000) = .fault (.busError 0x1000 0#32) ∧
    serve toyX State.reset (.write 32 0x1002 0#32) = .fault (.busError 0x1002 0#32) ∧
    serve toyX State.reset (.read 32 0x2000) = .fault (.outsideWindow 0x2000) := by
  refine ⟨rfl, rfl, rfl, rfl, rfl⟩

/-- W2: the word that withFetchWord places is what the next step runs, also as the first command after reset. -/
theorem test_fetch_word_runs_next :
    (after (step (State.reset.withFetchWord 32 0x101))).map (fun t => (t.status.toWord, t.pcmd)) =
      some (0x00000002#32, 0x00000101#32) := by decide

/-! ### Witnesses: states and operands that meet the hypotheses of the statements, clause by clause -/

/-- A DBUF of the machine has at least 16 octets, so these regions fit. -/
theorem region_fits_small {o l : Nat} (h : o + l ≤ 16) : regionFits Config.engine.dbufSize o l :=
  .inr (le_trans h (dbufSize_ge _))

/-- An aligned word access to a register is one the window accepts. -/
theorem legal_register_write {offset : Nat} (h4 : offset % 4 = 0) (h : offset < 0x1000) (w : Word) :
    accessLegal Config.engine (.write 32 offset w) := ⟨rfl, h4, Nat.lt_of_lt_of_le h (Nat.le_add_right _ _)⟩

theorem legal_register_read {offset : Nat} (h4 : offset % 4 = 0) (h : offset < 0x1000) :
    accessLegal Config.engine (.read 32 offset) := ⟨rfl, h4, Nat.lt_of_lt_of_le h (Nat.le_add_right _ _)⟩

/-- The last word of DBUF is inside the window. -/
theorem legal_last_dbuf_word : (Config.engine.dbufSize - 4) % 4 = 0 ∧
    Config.engine.dbufSize - 4 + 4 ≤ Config.engine.dbufSize ∧
    0x1000 + (Config.engine.dbufSize - 4) < 0x1000 + Config.engine.dbufSize := by
  have h1 := dbufSize_ge Config.engine
  have h2 := dbufSize_mod Config.engine
  omega

theorem witness_IllegalWordsCompleteWithIllegalCmd :
    let s := { State.reset with events := [.access (.write 32 0x008 0x320#32), .completion] }
    let t := { running 0x320#32 State.reset with events := [.completion] }
    let u := { running 0x320#32 State.reset with events := [.accessWithCompletion (.read 32 0x00C)] }
    (decode 0x320#32 = .error .reservedBits ∧ decode 0x008#32 = .error .unassignedOpcode ∧
      decode 0x103#32 = .error .flagNotAllowed ∧ s.status.busy = false ∧
      s.events = .access (.write 32 0x008 0x320#32) :: .completion :: []) ∧
    (t.status.busy = true ∧ decode t.pcmd = .error .reservedBits ∧ t.events = .completion :: []) ∧
    (u.status.busy = true ∧ decode u.pcmd = .error .reservedBits ∧
      u.events = .accessWithCompletion (.read 32 0x00C) :: [] ∧ accessLegal Config.engine (.read 32 0x00C)) :=
  ⟨by decide, by decide, rfl, rfl, rfl, legal_register_read (by decide) (by decide)⟩

theorem witness_StepRunsTheDecodedCommand :
    (running 0x101#32 State.reset).status.busy = true ∧ decode (running 0x101#32 State.reset).pcmd = .ok .gfmac64 ∧
      (running 0x101#32 State.reset).events = [] ∧
      ({ running 0x101#32 State.reset with events := [.completion] } : State).events = .completion :: [] ∧
      ({ running 0x101#32 State.reset with events := [.accessWithCompletion (.read 32 0xFFC)] } : State).events =
        .accessWithCompletion (.read 32 0xFFC) :: [] ∧
      accessLegal Config.engine (.read 32 0xFFC) ∧
      (running 0x320#32 State.reset).status.busy = true ∧
      decode (running 0x320#32 State.reset).pcmd = .error .reservedBits ∧ (running 0x320#32 State.reset).events = [] :=
  ⟨rfl, rfl, rfl, rfl, rfl, legal_register_read (by decide) (by decide), rfl, rfl, rfl⟩

theorem witness_CommandWriteIsAcceptedOrDropped :
    let s := { State.reset with events := [.access (.write 32 0x008 0x010#32)] }
    let t := { running 0x120#32 State.reset with events := [.access (.write 32 0x008 0x010#32)] }
    (s.events = .access (.write 32 0x008 0x010#32) :: [] ∧ s.status.busy = false) ∧
      (t.events = .access (.write 32 0x008 0x010#32) :: [] ∧ t.status.busy = true) := by decide

theorem witness_CompletionSucceedsOrOnlyRecordsItsCode :
    (running 0x022#32 State.reset).status.busy = true ∧ (running 0x022#32 State.reset).status.coherent :=
  ⟨rfl, coherent_accepted⟩

theorem witness_EveryAcceptedCommandCompletes :
    let s := { running 0x010#32 State.reset with events := [.access (.read 32 0x00C), .completion] }
    s.status.busy = true ∧ ∀ e ∈ s.events, eventLegal Config.engine e ∧ e ≠ .reset := by
  refine ⟨rfl, ?_⟩
  intro e he
  rcases List.mem_cons.mp he with rfl | he
  · exact ⟨legal_register_read (by decide) (by decide), by decide⟩
  · obtain rfl := List.mem_singleton.mp he
    exact ⟨trivial, by decide⟩

/-- The first and the last offset of each clause. -/
theorem witness_HostWritesWhileBusy :
    let s := running 0x010#32 State.reset
    s.status.busy = true ∧
      (∀ offset ∈ [0x004, 0x008, 0x020, 0x0DC, 0x1000, 0x1000 + (Config.engine.dbufSize - 4)],
        offset % 4 = 0 ∧ offset < 0x1000 + Config.engine.dbufSize ∧
          (offset = 0x004 ∨ offset = 0x008 ∨ (0x020 ≤ offset ∧ offset < 0x0E0) ∨ 0x1000 ≤ offset)) ∧
      (∀ offset ∈ [0x010, 0x014], offset % 4 = 0 ∧ offset < 0x1000 + Config.engine.dbufSize) ∧
      (∀ offset ∈ [0x000, 0x00C, 0x018, 0x01C, 0x0E0, 0xFFC],
        offset % 4 = 0 ∧ offset < 0x1000 + Config.engine.dbufSize ∧
          (offset = 0x000 ∨ offset = 0x00C ∨ offset = 0x018 ∨ offset = 0x01C ∨ (0x0E0 ≤ offset ∧ offset < 0x1000))) := by
  have h1 := dbufSize_ge Config.engine
  have h2 := dbufSize_mod Config.engine
  refine ⟨rfl, ?_, ?_, ?_⟩ <;>
  · intro offset h
    simp only [List.mem_cons, List.not_mem_nil, or_false] at h
    omega

theorem witness_HostWritesLandInTheirRegister : State.reset.status.busy = false := rfl

/-- The first and the last word of the groups of the register map, while idle, and, while ACPKM_DERIVE_LOAD runs, CTRL,
which it does not write, and KEY, which it does. -/
theorem witness_RegisterMapReads :
    let s := running 0x120#32 State.reset
    (State.reset.status.busy = false ∧ (0x000 = 0x000 ∧ (0x34130001#32 : Word) = 0x34130001#32) ∧
      (0x020 + 4 * (0 : Fin 8).val = 0x020 ∧ 0x020 + 4 * (7 : Fin 8).val = 0x03C) ∧
      (0x060 + 4 * (0 : Fin 4).val = 0x060 ∧ 0x0D0 + 4 * (3 : Fin 4).val = 0x0DC) ∧
      (0x0E0 + 4 * (7 : Fin 8).val = 0x0FC) ∧ (0x100 ≤ 0x100 ∧ 0x100 % 4 = 0) ∧ (0xFFC < 0x1000 ∧ 0xFFC % 4 = 0)) ∧
    (s.status.busy = true ∧ decode s.pcmd = .ok .acpkmDeriveLoad ∧ ¬ wordWritten .acpkmDeriveLoad s 0x004 ∧
      (0x040 ≤ 0x05C ∧ 0x05C < 0x060 ∧ 0x05C = 0x040 + 4 * (7 : Fin 8).val)) := by
  refine ⟨by decide, rfl, rfl, ?_, by decide⟩
  rintro ⟨x, h1, h2, h3⟩
  simp only [writesAt] at h3
  omega

theorem witness_DbufWindowIsBigEndian :
    (0 % 4 = 0 ∧ 0 + 4 ≤ Config.engine.dbufSize) ∧
      ((Config.engine.dbufSize - 4) % 4 = 0 ∧ Config.engine.dbufSize - 4 + 4 ≤ Config.engine.dbufSize) ∧
      State.reset.status.busy = false ∧ (running 0x010#32 State.reset).status.busy = true :=
  ⟨⟨rfl, le_trans (by decide) (dbufSize_ge _)⟩, ⟨legal_last_dbuf_word.1, legal_last_dbuf_word.2.1⟩, rfl, rfl⟩

theorem witness_HostReadsHaveNoSideEffect :
    let s := { State.reset with events := [.access (.read 32 0x1000)] }
    s.events = .access (.read 32 0x1000) :: [] ∧ 0x1000 % 4 = 0 ∧ 0x1000 < 0x1000 + Config.engine.dbufSize ∧
      s.status.busy = false := by
  have h1 := dbufSize_ge Config.engine
  exact ⟨rfl, rfl, by omega, rfl⟩

/-- While ACPKM_DERIVE_LOAD runs: the last word of KD races, the word before the first one does not, and KEY reads 0. -/
theorem witness_ReadsOfThePendingWriteSetRace :
    let s := running 0x120#32 State.reset
    s.status.busy = true ∧ decode s.pcmd = .ok .acpkmDeriveLoad ∧
      (0x0FC % 4 = 0 ∧ 0x0FC < 0x1000 + Config.engine.dbufSize ∧ wordWritten .acpkmDeriveLoad s 0x0FC ∧
        ¬ (0x040 ≤ 0x0FC ∧ 0x0FC < 0x060)) ∧
      (0x0DC % 4 = 0 ∧ 0x0DC < 0x1000 + Config.engine.dbufSize ∧ ¬ wordWritten .acpkmDeriveLoad s 0x0DC) ∧
      (0x05C % 4 = 0 ∧ 0x05C < 0x1000 + Config.engine.dbufSize ∧ 0x040 ≤ 0x05C ∧ 0x05C < 0x060) := by
  refine ⟨rfl, rfl, ⟨rfl, by omega, ⟨0x0FC, ?_⟩, by decide⟩, ⟨rfl, by omega, ?_⟩, rfl, by omega, by decide, by decide⟩
  · simp only [writesAt]; omega
  · rintro ⟨x, h1, h2, h3⟩
    simp only [writesAt] at h3
    omega

theorem witness_StatusReadsWhileBusy :
    let s := { running 0x010#32 State.reset with events := [.access (.read 32 0x00C)] }
    s.events = .access (.read 32 0x00C) :: [] ∧ s.status.busy = true ∧ s.Inv Config.engine :=
  ⟨rfl, rfl, Memory.wf_nil, by simp [running, State.reset], coherent_accepted⟩

/-- Just outside the window, a misaligned word, an octet, and the last word inside. -/
theorem witness_OnlyAlignedWordsInTheWindowAreServed :
    (0x1000 + Config.engine.dbufSize ≤ accessOffset (.read 32 (0x1000 + Config.engine.dbufSize))) ∧
      (accessOffset (.read 32 0x002) < 0x1000 + Config.engine.dbufSize ∧ accessOffset (.read 32 0x002) % 4 ≠ 0) ∧
      (accessOffset (.write 8 0x004 0#32) < 0x1000 + Config.engine.dbufSize ∧ accessWidth (.write 8 0x004 0#32) ≠ 32) ∧
      accessLegal Config.engine (.read 32 (0x1000 + (Config.engine.dbufSize - 4))) := by
  have h1 := dbufSize_ge Config.engine
  have h2 := dbufSize_mod Config.engine
  refine ⟨le_refl _, ⟨?_, by decide⟩, ⟨?_, by decide⟩, rfl, ?_, ?_⟩ <;> simp only [accessOffset] <;> omega

theorem witness_KeyIsNotReadableByTheHost :
    let s := { State.reset with events := [.access (.read 32 0x040)] }
    s.events = .access (.read 32 0x040) :: [] ∧ accessLegal Config.engine (.read 32 0x040) :=
  ⟨rfl, legal_register_read (by decide) (by decide)⟩

/-- NOP with ERRI pending, which succeeds; INCR_L with an illegal block size, which ends in an error; the two clearing
writes in the same step as a completion that succeeds and as one that ends in an error. -/
theorem witness_CompletionSetsPendingBitsLast :
    let s := { running 0#32 State.reset with irqStatus := ⟨true, true⟩ }
    let e := running 0x003#32 (sample 12#8 0#8 0#32 0#32 0#32 0#32 0#32)
    let w : Event := .accessWithCompletion (.write 32 0x010 3#32)
    (∃ t, exec .nop s = .next t ∧ s.irqStatus.erri = true ∧ t.status.err = false) ∧
      (∃ t, exec .incrL e = .next t ∧ e.status.err = false ∧ t.status.err = true) ∧
      (∃ t, step { s with events := [w] } = .next t ∧ s.status.busy = true ∧ t.status.err = false) ∧
      (∃ t, step { e with events := [w] } = .next t ∧ e.status.busy = true ∧ e.status.err = false ∧
        t.status.err = true) := by
  have hl : accessLegal Config.engine (.write 32 0x010 3#32) := legal_register_write (by decide) (by decide) _
  refine ⟨⟨_, rfl, rfl, rfl⟩, ⟨_, rfl, rfl, rfl⟩,
    ⟨finish { running 0#32 State.reset with reply := .ack, irqStatus := ⟨false, false⟩ } nopResult, ?_, rfl, rfl⟩,
    finish { running 0x003#32 (sample 12#8 0#8 0#32 0#32 0#32 0#32 0#32) with reply := .ack, irqStatus := ⟨false, false⟩ }
      (.err .invalidBlockSize), ?_, rfl, rfl, rfl⟩ <;>
  · rw [step_cons (e := .accessWithCompletion (.write 32 0x010 3#32)) (rest := []) rfl, handle_both_busy rfl hl]; rfl

theorem witness_ResetInputRestoresTheResetState :
    let s := { running 0x010#32 State.reset with events := [.reset] }
    s.events = .reset :: [] := rfl

theorem witness_ResetColumnOfTheRegisterMap : (0 < 0x1000 ∧ 0 % 4 = 0) ∧ (0xFFC < 0x1000 ∧ 0xFFC % 4 = 0) := by decide

theorem witness_ReadyRightAfterReset :
    let s := { State.reset with events := [.reset, .access (.read 32 0x00C)] }
    let t := { State.reset with events := [.reset, .access (.write 32 0x008 0x010#32)] }
    (s.events = .reset :: .access (.read 32 0x00C) :: [] ∧ accessLegal Config.engine (.read 32 0x00C)) ∧
      t.events = .reset :: .access (.write 32 0x008 0x010#32) :: [] :=
  ⟨⟨rfl, legal_register_read (by decide) (by decide)⟩, rfl⟩

theorem witness_StepKeepsTheInvariant :
    State.reset.Inv Config.engine ∧ step State.reset = .next State.reset :=
  ⟨⟨Memory.wf_nil, by simp [State.reset], by simp [Status.coherent, State.reset]⟩, rfl⟩

/-- The two legal block sizes and an illegal one: the hypotheses of the statements on INCR_L, INCR_R, ENCBLK, ACPKM_DERIVE
and ACPKM_DERIVE_LOAD. -/
theorem witness_block_sizes :
    (sample 16#8 0#8 0#32 0#32 0#32 0#32 0#32).hasBlockSize .b16 ∧
      (sample 8#8 0#8 0#32 0#32 0#32 0#32 0#32).hasBlockSize .b8 ∧
      (sample 12#8 0#8 0#32 0#32 0#32 0#32 0#32).ctrl.bs.toNat ∉ [8, 16] := ⟨rfl, rfl, by decide⟩

theorem witness_NoncePrepClearsTheTopBit :
    (∃ t, exec .mgmSeal State.reset = .next t) ∧ (∃ t, exec .mgmOpen State.reset = .next t) :=
  ⟨⟨_, exec_eq _ _⟩, _, exec_eq _ _⟩

/-- BS = 12; TAGSIZE = 3; T = 4 with the rest of TAG and TAGIN different; T = 16 with only octet 15 different. -/
theorem witness_TagcmpComparesTheFirstOctets :
    let top := fun (r : Block) (T : Nat) => r >>> (128 - 8 * T)
    let s := { sample 16#8 4#8 0#32 0#32 0#32 0#32 0#32 with tagin := 1#128 }
    let t := { sample 16#8 0#8 0#32 0#32 0#32 0#32 0#32 with tagin := 1#128 }
    let u := sample 16#8 3#8 0#32 0#32 0#32 0#32 0#32
    (sample 12#8 0#8 0#32 0#32 0#32 0#32 0#32).ctrl.bs.toNat ∉ [8, 16] ∧
      (u.hasBlockSize .b16 ∧ ¬ ∃ T, u.hasTagSize .b16 T) ∧
      (s.hasBlockSize .b16 ∧ s.hasTagSize .b16 4 ∧ top s.tag 4 = top s.tagin 4) ∧
      (t.hasBlockSize .b16 ∧ t.hasTagSize .b16 16 ∧ top t.tag 16 ≠ top t.tagin 16) := by
  refine ⟨by decide, ⟨rfl, ?_⟩, ⟨rfl, ⟨rfl, by decide, by decide⟩, by decide⟩, rfl, ⟨rfl, by decide, by decide⟩, by decide⟩
  rintro ⟨T, rfl, h, -⟩
  revert h
  decide

theorem witness_IllegalBlockSizeIsReportedFirst :
    let s := sample 12#8 0#8 0#32 0#32 0#32 0#32 0#32
    s.ctrl.bs.toNat ≠ 8 ∧ s.ctrl.bs.toNat ≠ 16 := by decide

/-- TAGSIZE 3, below every legal size, and 9, above the block of 8. -/
theorem witness_IllegalTagSizeIsReportedNext :
    let s := sample 16#8 3#8 0#32 0#32 0#32 0#32 0#32
    let t := sample 8#8 9#8 0#32 0#32 0#32 0#32 0#32
    (s.hasBlockSize .b16 ∧ s.ctrl.tagsize ≠ 0#8 ∧ s.ctrl.tagsize.toNat < 4) ∧
      (t.hasBlockSize .b8 ∧ t.ctrl.tagsize ≠ 0#8 ∧ blockOctets .b8 < t.ctrl.tagsize.toNat) :=
  ⟨⟨rfl, by decide, by decide⟩, rfl, by decide, by decide⟩

/-- An empty message; one octet more than the limit; a region beyond the address range; a tag that lands on the AD. -/
theorem witness_MgmSealReportsItsErrorsInOrder :
    let s := fun a0 a1 a2 a3 a4 => sample 8#8 0#8 a0 a1 a2 a3 a4
    (∀ a0 a1 a2 a3 a4, (s a0 a1 a2 a3 a4).hasBlockSize .b8 ∧ (s a0 a1 a2 a3 a4).hasTagSize .b8 8) ∧
      (s 0 0 0 0 0).arg 1 + (s 0 0 0 0 0).arg 3 = 0 ∧
      2 ^ (4 * blockOctets .b8) - 1 < (s 0 0xFFFFFFFF 0 1 0).arg 1 + (s 0 0xFFFFFFFF 0 1 0).arg 3 ∧
      (0 < (s 0 0xFFFFFFFE 0 1 0).arg 1 + (s 0 0xFFFFFFFE 0 1 0).arg 3 ∧
        (s 0 0xFFFFFFFE 0 1 0).arg 1 + (s 0 0xFFFFFFFE 0 1 0).arg 3 ≤ 2 ^ (4 * blockOctets .b8) - 1 ∧
        ¬ regionFits Config.engine.dbufSize ((s 0 0xFFFFFFFE 0 1 0).arg 0) ((s 0 0xFFFFFFFE 0 1 0).arg 1)) ∧
      (regionFits Config.engine.dbufSize ((s 8 1 0 8 0).arg 0) ((s 8 1 0 8 0).arg 1) ∧
        regionFits Config.engine.dbufSize ((s 8 1 0 8 0).arg 2) ((s 8 1 0 8 0).arg 3) ∧
        regionFits Config.engine.dbufSize ((s 8 1 0 8 0).arg 4) ((s 8 1 0 8 0).arg 3 + 8) ∧
        ¬ regionsApart ((s 8 1 0 8 0).arg 4) ((s 8 1 0 8 0).arg 3 + 8) ((s 8 1 0 8 0).arg 0) ((s 8 1 0 8 0).arg 1)) := by
  refine ⟨fun a0 a1 a2 a3 a4 => ⟨rfl, rfl, by decide, by decide⟩, by decide, by decide, ⟨by decide, by decide, ?_⟩,
    region_fits_small (by decide), region_fits_small (by decide), region_fits_small (by decide), ?_⟩
  · have h1 := dbufSize_le Config.engine
    rintro (h | h)
    · exact absurd h (by decide)
    · exact absurd (le_trans h h1) (by decide)
  · unfold regionsApart; decide

/-- An input shorter than its tag; an empty body without AD; a region beyond DBUF; an output shifted against its input. -/
theorem witness_MgmOpenReportsItsErrorsInOrder :
    let s := fun a0 a1 a2 a3 a4 => sample 8#8 4#8 a0 a1 a2 a3 a4
    (∀ a0 a1 a2 a3 a4, (s a0 a1 a2 a3 a4).hasBlockSize .b8 ∧ (s a0 a1 a2 a3 a4).hasTagSize .b8 4) ∧
      (s 0 0 0 3 0).arg 3 < 4 ∧
      ((s 0 0 0 4 0).arg 3 = 0 + 4 ∧ (s 0 0 0 4 0).arg 1 + 0 = 0) ∧
      ((s 0 0 0 8 0xFFFFFFFF).arg 3 = 4 + 4 ∧ 0 < (s 0 0 0 8 0xFFFFFFFF).arg 1 + 4 ∧
        (s 0 0 0 8 0xFFFFFFFF).arg 1 + 4 ≤ 2 ^ (4 * blockOctets .b8) - 1 ∧
        ¬ regionFits Config.engine.dbufSize ((s 0 0 0 8 0xFFFFFFFF).arg 4) 4) ∧
      (regionFits Config.engine.dbufSize ((s 0 0 0 8 1).arg 0) ((s 0 0 0 8 1).arg 1) ∧
        regionFits Config.engine.dbufSize ((s 0 0 0 8 1).arg 2) ((s 0 0 0 8 1).arg 3) ∧
        regionFits Config.engine.dbufSize ((s 0 0 0 8 1).arg 4) 4 ∧
        ¬ ((s 0 0 0 8 1).arg 4 = (s 0 0 0 8 1).arg 2 ∨
          regionsApart ((s 0 0 0 8 1).arg 4) 4 ((s 0 0 0 8 1).arg 2) ((s 0 0 0 8 1).arg 3))) := by
  refine ⟨fun a0 a1 a2 a3 a4 => ⟨rfl, rfl, by decide, by decide⟩, by decide, ⟨by decide, by decide⟩,
    ⟨by decide, by decide, by decide, ?_⟩,
    region_fits_small (by decide), region_fits_small (by decide), region_fits_small (by decide), ?_⟩
  · have h1 := dbufSize_le Config.engine
    rintro (h | h)
    · exact absurd h (by decide)
    · exact absurd (le_trans h h1) (by decide)
  · unfold regionsApart; decide

/-- N = 0 and N = 12; an output beyond DBUF; an output one octet after its input. -/
theorem witness_AcpkmStreamsReportTheirErrorsInOrder :
    let s := fun a0 a1 a2 a3 => sample 8#8 0#8 a0 a1 a2 a3 0#32
    (∀ a0 a1 a2 a3, (s a0 a1 a2 a3).hasBlockSize .b8) ∧ (s 0 8 0 0).arg 3 = 0 ∧
      (s 0 8 0 12).arg 3 % blockOctets .b8 ≠ 0 ∧
      (0 < (s 0 8 0xFFFFFFFF 8).arg 3 ∧ (s 0 8 0xFFFFFFFF 8).arg 3 % blockOctets .b8 = 0 ∧
        ¬ regionFits Config.engine.dbufSize ((s 0 8 0xFFFFFFFF 8).arg 2) ((s 0 8 0xFFFFFFFF 8).arg 1)) ∧
      (regionFits Config.engine.dbufSize ((s 0 8 1 8).arg 0) ((s 0 8 1 8).arg 1) ∧
        regionFits Config.engine.dbufSize ((s 0 8 1 8).arg 2) ((s 0 8 1 8).arg 1) ∧
        ¬ ((s 0 8 1 8).arg 2 = (s 0 8 1 8).arg 0 ∨
          regionsApart ((s 0 8 1 8).arg 2) ((s 0 8 1 8).arg 1) ((s 0 8 1 8).arg 0) ((s 0 8 1 8).arg 1))) := by
  refine ⟨fun _ _ _ _ => rfl, by decide, by decide, ⟨by decide, by decide, ?_⟩,
    region_fits_small (by decide), region_fits_small (by decide), ?_⟩
  · have h1 := dbufSize_le Config.engine
    rintro (h | h)
    · exact absurd h (by decide)
    · exact absurd (le_trans h h1) (by decide)
  · unfold regionsApart; decide

/-- CTR_ACPKM and ACPKM_MASTER over 16 octets in place, with sections of 8. -/
def ctrSample : State := sample 8#8 0#8 0#32 16#32 0#32 8#32 0#32

/-- The checks of CTR_ACPKM pass; those of ACPKM_MASTER are among them. -/
def ctrChecksPass (s : State) (b : BlockSize) : Prop :=
  s.hasBlockSize b ∧ 0 < s.arg 3 ∧ s.arg 3 % blockOctets b = 0 ∧
    regionFits Config.engine.dbufSize (s.arg 0) (s.arg 1) ∧ regionFits Config.engine.dbufSize (s.arg 2) (s.arg 1) ∧
    (s.arg 2 = s.arg 0 ∨ regionsApart (s.arg 2) (s.arg 1) (s.arg 0) (s.arg 1))

/-- The hypotheses of `CtrAcpkmAddsTheKeystream` and of `AcpkmMasterWritesTheKeystream`. -/
theorem witness_ctr_checks_pass : ctrChecksPass ctrSample .b8 :=
  ⟨rfl, by decide, by decide, region_fits_small (by decide), region_fits_small (by decide), .inl (by decide)⟩

theorem witness_CtrAcpkmWithOneSectionIsPlainCtr :
    0 < 24 ∧ 24 % blockOctets .b8 = 0 ∧ ([0#8, 1#8, 2#8] : Octets).length ≤ 24 := by decide

/-- The output of `ctrSample` decrypted in place: the state right after it. -/
theorem witness_CtrAcpkmTwiceGivesBackTheInput :
    ctrChecksPass ctrSample .b8 ∧ ∃ t, exec .ctrAcpkm ctrSample = .next t ∧ t.key = ctrSample.key ∧
      t.nonce = ctrSample.nonce ∧ t.ctrl = ctrSample.ctrl ∧ t.arg 3 = ctrSample.arg 3 ∧ t.arg 1 = ctrSample.arg 1 ∧
      memRead Config.engine t (t.arg 0) (t.arg 1) = memRead Config.engine t (ctrSample.arg 2) (ctrSample.arg 1) ∧
      ctrChecksPass t .b8 := by
  have hc := witness_ctr_checks_pass
  obtain ⟨hb, h3, h4, h5, h6, h7⟩ := hc
  have hr := (ctrAcpkmResult_eq_ok (P := Config.engine)).mpr ⟨.b8, hb, ⟨h3, h4⟩, ⟨h5, h6⟩, h7.symm, rfl, rfl⟩
  refine ⟨witness_ctr_checks_pass, _, exec_eq _ _, ?_⟩
  rw [commandResult, hr]
  exact ⟨rfl, rfl, rfl, rfl, rfl, rfl, hb, h3, h4, h5, h6, h7⟩

/-- MGM_SEAL of 8 octets in place, T = 8, without AD: the output is all of the smallest DBUF. -/
def sealSample : State := sample 8#8 0#8 0#32 0#32 0#32 8#32 0#32

theorem witness_MgmSealWritesCiphertextAndTag :
    sealSample.hasBlockSize .b8 ∧ sealSample.hasTagSize .b8 8 ∧ 0 < sealSample.arg 1 + sealSample.arg 3 ∧
      sealSample.arg 1 + sealSample.arg 3 ≤ 2 ^ (4 * blockOctets .b8) - 1 ∧
      regionFits Config.engine.dbufSize (sealSample.arg 0) (sealSample.arg 1) ∧
      regionFits Config.engine.dbufSize (sealSample.arg 2) (sealSample.arg 3) ∧
      regionFits Config.engine.dbufSize (sealSample.arg 4) (sealSample.arg 3 + 8) ∧
      regionsApart (sealSample.arg 4) (sealSample.arg 3 + 8) (sealSample.arg 0) (sealSample.arg 1) ∧
      sealSample.arg 4 = sealSample.arg 2 :=
  ⟨rfl, ⟨rfl, by decide, by decide⟩, by decide, by decide, region_fits_small (by decide), region_fits_small (by decide),
    region_fits_small (by decide), .inr (.inl (by decide)), by decide⟩

/-- What MGM_SEAL gives on `sealSample`. -/
theorem sealSample_result :
    mgmSealResult Config.engine sealSample = .ok
      [.dbuf (sealSample.arg 4) (mgmCrypt Config.engine .b8 sealSample.key (blockOf .b8 sealSample.nonce)
          (memRead Config.engine sealSample (sealSample.arg 2) (sealSample.arg 3)) ++
          mgmTag Config.engine .b8 sealSample.key (blockOf .b8 sealSample.nonce)
            (memRead Config.engine sealSample (sealSample.arg 0) (sealSample.arg 1))
            (mgmCrypt Config.engine .b8 sealSample.key (blockOf .b8 sealSample.nonce)
              (memRead Config.engine sealSample (sealSample.arg 2) (sealSample.arg 3))) 8),
        .tag (setTag (mgmTag Config.engine .b8 sealSample.key (blockOf .b8 sealSample.nonce)
            (memRead Config.engine sealSample (sealSample.arg 0) (sealSample.arg 1))
            (mgmCrypt Config.engine .b8 sealSample.key (blockOf .b8 sealSample.nonce)
              (memRead Config.engine sealSample (sealSample.arg 2) (sealSample.arg 3))) 8) 8)] false := by
  obtain ⟨hb, hT, h1, h2, h3, h4, h5, h6, h7⟩ := witness_MgmSealWritesCiphertextAndTag
  exact mgmSealResult_eq_ok.mpr ⟨.b8, hb, 8, hT, ⟨h1, h2⟩, ⟨⟨h3, h4⟩, h5⟩, ⟨h6, .inr h7⟩, rfl, rfl⟩

/-- The arguments of MGM_OPEN in place on the output of `sealSample`. -/
def openArgs : Vector Word 8 := #v[0#32, 0#32, 0#32, 16#32, 0#32, 0#32, 0#32, 0#32]

theorem witness_OpenInvertsSeal :
    sealSample.status.err = false ∧ ∃ t, exec .mgmSeal sealSample = .next t ∧ t.status.err = false ∧
      ∃ u : State, u = { t with args := openArgs } ∧ u.key = sealSample.key ∧ u.nonce = sealSample.nonce ∧
      u.ctrl = sealSample.ctrl ∧ u.arg 1 = sealSample.arg 1 ∧ u.arg 3 = sealSample.arg 3 + 8 ∧
      memRead Config.engine u (u.arg 0) (u.arg 1) = memRead Config.engine sealSample (sealSample.arg 0) (sealSample.arg 1) ∧
      memRead Config.engine u (u.arg 2) (u.arg 3) = memRead Config.engine t (sealSample.arg 4) (sealSample.arg 3 + 8) ∧
      regionFits Config.engine.dbufSize (u.arg 0) (u.arg 1) ∧ regionFits Config.engine.dbufSize (u.arg 2) (u.arg 3) ∧
      regionFits Config.engine.dbufSize (u.arg 4) (sealSample.arg 3) ∧
      regionsApart (u.arg 4) (sealSample.arg 3) (u.arg 0) (u.arg 1) ∧ u.arg 4 = u.arg 2 := by
  refine ⟨rfl, _, exec_eq _ _, ?_⟩
  rw [commandResult, sealSample_result]
  refine ⟨rfl, _, rfl, rfl, rfl, rfl, rfl, rfl, rfl, rfl, region_fits_small (by decide), region_fits_small (by decide),
    region_fits_small (by decide), .inr (.inl (by decide)), rfl⟩

/-- An open whose received tag is the recomputed one, and one whose received tag differs in its first octet. -/
def openSample (tag : Octets) : State :=
  memWrite { sealSample with args := openArgs } 0 (zeros 8 ++ tag)

/-- The tag of eight zero octets under the key and nonce of `sealSample`. -/
def openTag : Octets := mgmTag Config.engine .b8 sealSample.key (blockOf .b8 sealSample.nonce) [] (zeros 8) 8

/-- `openTag` with bit 0 of its first octet flipped. -/
def forgedTag : Octets := xorOctets openTag (1#8 :: zeros 7)

theorem openSample_reads {tag : Octets} (h : tag.length = 8) :
    memRead Config.engine (openSample tag) 0 8 = zeros 8 ∧ memRead Config.engine (openSample tag) 8 8 = tag := by
  have whole := memRead_memWrite_same Config.engine { sealSample with args := openArgs } 0 (zeros 8 ++ tag)
  rw [show (zeros 8 ++ tag).length = 8 + 8 by simp [h], memRead, List.range_add, List.map_append] at whole
  obtain ⟨h1, h2⟩ := List.append_inj whole (by simp)
  refine ⟨h1, ?_⟩
  rw [List.map_map] at h2
  rw [← h2]
  rfl

theorem openTag_length : openTag.length = 8 := mgmTag_length _ _ _ _ _ _ (by decide)

theorem forgedTag_length : forgedTag.length = 8 := by simp [forgedTag, openTag_length]

theorem forgedTag_ne : forgedTag ≠ openTag := by
  intro h
  have h1 := congrArg (fun l => l.getD 0 0#8) h
  have h2 : 0 < openTag.length := by rw [openTag_length]; decide
  simp only [forgedTag] at h1
  rw [getD_xorOctets h2 (by decide)] at h1
  generalize openTag.getD 0 0#8 = o at h1
  revert h1
  show o ^^^ 1#8 = o → False
  revert o
  decide

/-- The hypotheses of the two statements on MGM_OPEN, but for the one on the received tag. -/
def openChecksPass (s : State) (b : BlockSize) (T B : Nat) : Prop :=
  s.hasBlockSize b ∧ s.hasTagSize b T ∧ s.arg 3 = B + T ∧ 0 < s.arg 1 + B ∧
    s.arg 1 + B ≤ 2 ^ (4 * blockOctets b) - 1 ∧
    regionFits Config.engine.dbufSize (s.arg 0) (s.arg 1) ∧ regionFits Config.engine.dbufSize (s.arg 2) (s.arg 3) ∧
    regionFits Config.engine.dbufSize (s.arg 4) B ∧ regionsApart (s.arg 4) B (s.arg 0) (s.arg 1) ∧
    (s.arg 4 = s.arg 2 ∨ regionsApart (s.arg 4) B (s.arg 2) (s.arg 3))

theorem openSample_checks_pass (tag : Octets) : openChecksPass (openSample tag) .b8 8 8 :=
  ⟨rfl, ⟨rfl, by decide, by decide⟩, rfl, show 0 < 0 + 8 by decide, show 0 + 8 ≤ 2 ^ 32 - 1 by decide,
    region_fits_small (show 0 + 0 ≤ 16 by decide), region_fits_small (show 0 + 16 ≤ 16 by decide),
    region_fits_small (show 0 + 8 ≤ 16 by decide), .inr (.inl rfl), .inl rfl⟩

theorem witness_MgmOpenDecryptsAnAuthenticBody :
    let s := openSample openTag
    openChecksPass s .b8 8 8 ∧
      mgmTag Config.engine .b8 s.key (blockOf .b8 s.nonce) (memRead Config.engine s (s.arg 0) (s.arg 1))
        (memRead Config.engine s (s.arg 2) 8) 8 = memRead Config.engine s (s.arg 2 + 8) 8 := by
  refine ⟨openSample_checks_pass _, ?_⟩
  show mgmTag _ _ _ _ _ (memRead Config.engine (openSample openTag) 0 8) 8 = memRead Config.engine (openSample openTag) 8 8
  rw [(openSample_reads openTag_length).1, (openSample_reads openTag_length).2]
  rfl

theorem witness_MgmOpenRejectsAnyOtherTag :
    let s := openSample forgedTag
    openChecksPass s .b8 8 8 ∧
      mgmTag Config.engine .b8 s.key (blockOf .b8 s.nonce) (memRead Config.engine s (s.arg 0) (s.arg 1))
        (memRead Config.engine s (s.arg 2) 8) 8 ≠ memRead Config.engine s (s.arg 2 + 8) 8 := by
  refine ⟨openSample_checks_pass _, ?_⟩
  show mgmTag _ _ _ _ _ (memRead Config.engine (openSample forgedTag) 0 8) 8 ≠
    memRead Config.engine (openSample forgedTag) 8 8
  rw [(openSample_reads forgedTag_length).1, (openSample_reads forgedTag_length).2]
  exact fun h => forgedTag_ne h.symm

/-- `sealSample` with T = 4 and with TAGSIZE = 0: both seal. -/
theorem witness_ShorterTagsAreTruncations :
    let s := { sealSample with ctrl := { bs := 8#8, tagsize := 4#8 } }
    s.hasBlockSize .b8 ∧ s.hasTagSize .b8 4 ∧ s.status.err = false ∧
      { s with ctrl := { s.ctrl with tagsize := 0x00#8 } } = sealSample ∧
      (∃ t, exec .mgmSeal s = .next t ∧ t.status.err = false) ∧
      (∃ u, exec .mgmSeal sealSample = .next u ∧ u.status.err = false) := by
  intro s
  have hr := (mgmSealResult_eq_ok (P := Config.engine) (s := s)).mpr
    ⟨.b8, rfl, 4, ⟨rfl, by decide, by decide⟩, ⟨by decide, by decide⟩,
      ⟨⟨region_fits_small (by decide), region_fits_small (by decide)⟩, region_fits_small (by decide)⟩,
      ⟨.inr (.inl (by decide)), .inr (by decide)⟩, rfl, rfl⟩
  refine ⟨rfl, ⟨rfl, by decide, by decide⟩, rfl, rfl, ⟨_, exec_eq _ _, ?_⟩, _, exec_eq _ _, ?_⟩
  · rw [commandResult, hr]; rfl
  · rw [commandResult, sealSample_result]; rfl

/-- Two nonces that differ in the top bit and in octet 8. -/
theorem witness_NonceTopBitHasNoEffect :
    sealSample.hasBlockSize .b8 ∧
      msbClear (blockOf .b8 0x8000000000000000FF00000000000000#128) = msbClear (blockOf .b8 sealSample.nonce) ∧
      (∃ t, exec .mgmSeal sealSample = .next t) ∧ (∃ t, exec .mgmOpen sealSample = .next t) :=
  ⟨rfl, by decide, ⟨_, exec_eq _ _⟩, _, exec_eq _ _⟩

theorem witness_CommandsWriteOnlyTheirRegisters :
    (∃ t, exec .mgmSeal sealSample = .next t) ∧ Instr.mgmSeal ≠ .noncePrep ∧ Instr.nop ≠ .mgmSeal ∧
      Instr.mgmSeal ∉ [Instr.gfmul64, .gfmac64, .gfmul128, .gfmac128] ∧
      Instr.nop ∉ [Instr.mgmSeal, .mgmOpen, .ctrAcpkm, .acpkmMaster] :=
  ⟨⟨_, exec_eq _ _⟩, by decide⟩

/-- Octet 16 of DBUF is the first one after each output region. -/
theorem witness_CommandsStoreOnlyInTheirOutputRegion :
    (sealSample.hasBlockSize .b8 ∧ sealSample.hasTagSize .b8 8 ∧ (∃ t, exec .mgmSeal sealSample = .next t) ∧
      sealSample.arg 4 + (sealSample.arg 3 + 8) ≤ 16) ∧
    (sealSample.hasBlockSize .b8 ∧ sealSample.hasTagSize .b8 8 ∧ (∃ t, exec .mgmOpen sealSample = .next t) ∧
      sealSample.arg 4 + (sealSample.arg 3 - 8) ≤ 16) ∧
    ((∃ t, exec .ctrAcpkm ctrSample = .next t) ∧ (∃ t, exec .acpkmMaster ctrSample = .next t) ∧
      ctrSample.arg 2 + ctrSample.arg 1 ≤ 16) :=
  ⟨⟨rfl, ⟨rfl, by decide, by decide⟩, ⟨_, exec_eq _ _⟩, by decide⟩,
    ⟨rfl, ⟨rfl, by decide, by decide⟩, ⟨_, exec_eq _ _⟩, by decide⟩, ⟨_, exec_eq _ _⟩, ⟨_, exec_eq _ _⟩, by decide⟩

/-- The last register word, outside the write set of CTR_ACPKM. -/
theorem witness_WriteSetsAreComplete :
    (∃ t, exec .ctrAcpkm ctrSample = .next t) ∧ 0x0FC % 4 = 0 ∧ 0x0FC < 0x1000 + Config.engine.dbufSize ∧
      0x0FC ≠ 0x00C ∧ 0x0FC ≠ 0x010 ∧ ¬ wordWritten .ctrAcpkm ctrSample 0x0FC := by
  refine ⟨⟨_, exec_eq _ _⟩, rfl, by omega, by decide, by decide, ?_⟩
  rintro ⟨x, h1, h2, h3, h4⟩
  omega

/-- KEY changes by a host write and by the reset input; what ACPKM_DERIVE_LOAD writes is up to the cipher. -/
theorem witness_KeyChangesOnlyByItsThreeWriters :
    let s := { State.reset with events := [.access (.write 32 0x05C 1#32)] }
    let u := { sample 16#8 0#8 0#32 0#32 0#32 0#32 0#32 with events := [.reset] }
    (∃ t, step s = .next t ∧ t.key ≠ s.key) ∧ (∃ t, step u = .next t ∧ t.key ≠ u.key) := by
  refine ⟨⟨applyAccess Config.engine { State.reset with reply := .none } (.write 32 0x05C 1#32), ?_, by decide⟩,
    _, rfl, by decide⟩
  rw [step_cons (e := .access (.write 32 0x05C 1#32)) (rest := []) rfl, handle_access,
    serve_legal (legal_register_write (by decide) (by decide) _)]
  rfl

end Sys2Proof.Tests
end

section
/-! PROOFS. The DBUF window as the host reads and writes it (R63). -/

namespace Sys2Proof.Machine

/-! ### The octets of a word (R21, R63) -/

theorem ofOctets_singleton (x : Byte) : ofOctets 8 [x] = x := by simp [ofOctets, fromBe]

/-- The last octet of a string is the lowest one of its register. -/
theorem ofOctets_concat {m : Nat} {v : Octets} (hv : v.length = m) (x : Byte) :
    ofOctets (8 * m + 8) (v ++ [x]) = ofOctets (8 * m) v ++ x :=
  (ofOctets_append (n := 1) hv rfl).trans (congrArg (ofOctets (8 * m) v ++ ·) (ofOctets_singleton x))

/-- Four octets as a word: the first one in the top bits. -/
theorem ofOctets_four (x y z u : Byte) : ofOctets 32 [x, y, z, u] = (x ++ y ++ z ++ u : BitVec (8 + 8 + 8 + 8)) := by
  have two : ofOctets 16 [x, y] = ofOctets 8 [x] ++ y := ofOctets_concat (v := [x]) rfl y
  have three : ofOctets 24 [x, y, z] = ofOctets 16 [x, y] ++ z := ofOctets_concat (v := [x, y]) rfl z
  have four : ofOctets 32 [x, y, z, u] = ofOctets 24 [x, y, z] ++ u := ofOctets_concat (v := [x, y, z]) rfl u
  rw [four, three, two, ofOctets_singleton]

theorem dbufWord_eq (P : Params) (s : State) (a : Nat) :
    dbufWord P s a =
      (s.octet P a ++ s.octet P (a + 1) ++ s.octet P (a + 2) ++ s.octet P (a + 3) : BitVec (8 + 8 + 8 + 8)) :=
  ofOctets_four _ _ _ _

theorem octetsOf_word_getElem (w : Word) {i : Nat} (h : i < (octetsOf w).length) :
    (octetsOf w)[i] = w.extractLsb' (24 - 8 * i) 8 := by
  rw [octetsOf_getElem (m := 4) w i h, show 8 * (4 - 1 - i) = 24 - 8 * i by omega]

/-! ### One served access -/

/-- A step that serves an access the window accepts. -/
theorem step_access {s : State} {a : Access} {rest : List Event} (he : s.events = .access a :: rest)
    (ha : accessLegal Config.engine a) :
    step s = .next (applyAccess Config.engine { s with events := rest, reply := .none } a) := by
  rw [step_cons he, handle_access, serve_legal ha]

/-- A read of a word outside the write set of the running command, if one runs, does not race (R258). -/
theorem readRaces_unwritten {s : State} {offset : Nat} (h4 : offset % 4 = 0)
    (h : s.status.busy = true → ∀ i, decode s.pcmd = .ok i → ¬ wordWritten i s offset) :
    readRaces s (locate offset) = false := by
  cases hb : s.status.busy with
  | false => exact readRaces_idle hb _
  | true =>
    cases hd : decode s.pcmd with
    | error e => exact readRaces_illegal hd _
    | ok i =>
      rw [← Bool.not_eq_true, readRaces_iff hb hd h4]
      exact fun hw => h hb i hd hw.1

/-! ### The accesses to a DBUF word: a read, a write, a write while BUSY (R63, R256) -/

section
variable {s : State} {a : Nat} {rest : List Event} (h4 : a % 4 = 0) (hfit : a + 4 ≤ Config.engine.dbufSize)
include h4 hfit

theorem step_dbufRead (he : s.events = .access (.read 32 (0x1000 + a)) :: rest)
    (hw : s.status.busy = true → ∀ i, decode s.pcmd = .ok i → ¬ wordWritten i s (0x1000 + a)) :
    step s = .next { s with events := rest, reply := .data (dbufWord Config.engine s a) } := by
  have legal : accessLegal Config.engine (.read 32 (0x1000 + a)) := ⟨rfl, by simp only [accessOffset]; omega⟩
  have calm : readRaces { s with events := rest, reply := .none } (locate (0x1000 + a)) = false :=
    readRaces_unwritten (by omega) hw
  rw [step_access he legal, applyAccess, hostRead_calm calm, locate_dbuf]
  rfl

theorem step_dbufWrite {w : Word} (he : s.events = .access (.write 32 (0x1000 + a) w) :: rest) :
    step s = .next { hostWrite { s with events := rest, reply := .none } (.dbuf a) w with reply := .ack } := by
  have legal : accessLegal Config.engine (.write 32 (0x1000 + a) w) := ⟨rfl, by simp only [accessOffset]; omega⟩
  rw [step_access he legal, applyAccess, locate_dbuf]

theorem step_dbufWrite_idle {w : Word} (he : s.events = .access (.write 32 (0x1000 + a) w) :: rest)
    (hb : s.status.busy = false) :
    step s = .next { memWrite s a (octetsOf w) with events := rest, reply := .ack } := by
  rw [step_dbufWrite h4 hfit he, hostWrite_idle (s := { s with events := rest, reply := .none }) hb]
  rfl

theorem step_dbufWrite_busy {w : Word} (he : s.events = .access (.write 32 (0x1000 + a) w) :: rest)
    (hb : s.status.busy = true) :
    step s = .next { s with events := rest, reply := .ack, status := { s.status with wign := true } } := by
  rw [step_dbufWrite h4 hfit he, hostWrite_locked (s := { s with events := rest, reply := .none }) hb rfl]

end

/-- Settles O11: each access is served, and its word is read or written octet by octet, octet `a` in the top bits. -/
theorem dbufWindowIsBigEndian : Obligations.DbufWindowIsBigEndian := by
  intro s a h4 hfit
  refine ⟨fun hw => ?read, fun w hb => ?idle, fun w hb => ?busy⟩
  case read =>
    rw [← dbufWord_eq]
    exact step_dbufRead h4 hfit rfl hw
  case idle =>
    refine ⟨_, step_dbufWrite_idle h4 hfit rfl hb, rfl, fun i hi => ?inside, fun x hx => ?outside⟩
    case inside =>
      have hlen : i < (octetsOf w).length := by rwa [octetsOf_word_length]
      exact (octet_memWrite_inside _ s a _ hlen).trans (octetsOf_word_getElem w hlen)
    case outside => exact octet_memWrite_outside _ s a _ (by rwa [octetsOf_word_length])
  case busy => exact step_dbufWrite_busy h4 hfit rfl hb

end Sys2Proof.Machine
end

section
/-! PROOFS. Decoding and encoding agree, and which command words are illegal (R84, R86, R87). -/

namespace Sys2Proof

/-! ### Words and their fields (R80, R81) -/

theorem eq_packFields_iff (w : Word) (c : CommandWord) : w = packFields c ↔ fieldsOf w = c := by
  constructor
  · rintro rfl; exact fieldsOf_packFields c
  · rintro rfl; exact (packFields_fieldsOf w).symm

theorem eq_fields_iff (c : CommandWord) (i : Instr) :
    c = i.fields ↔ c.opc = opcOf i ∧ c.flag = flagOf i ∧ c.rsv = 0#23 := by
  cases c
  simp [Instr.fields]

/-! ### The decoder by way of the map (R84, R87) -/

theorem decode_eq_ok_iff (w : Word) (i : Instr) :
    decode w = .ok i ↔ (fieldsOf w).rsv = 0#23 ∧ commandOf (fieldsOf w).opc (fieldsOf w).flag = some i := by
  unfold decode
  split
  case isTrue hrsv => simp [hrsv]
  case isFalse hrsv =>
    rw [Decidable.not_not] at hrsv
    split
    case h_1 j hj => simp [hrsv, hj]
    case h_2 hnone => split <;> simp [hnone]

/-- A word decodes to a command exactly when its fields are that command's. -/
theorem decode_eq_ok_iff_fields (w : Word) (i : Instr) : decode w = .ok i ↔ fieldsOf w = i.fields := by
  rw [decode_eq_ok_iff, commandOf_eq_some, eq_fields_iff]
  tauto

/-- Settles O2: packing loses no field, and the map has one row for each command's OPC and F. -/
theorem decodeExactlyTheEncodedWords : Obligations.DecodeExactlyTheEncodedWords := by
  intro w i
  rw [decode_eq_ok_iff_fields, encode, eq_packFields_iff]

/-! ### Illegal words (R86) -/

/-- Some row of the map has this OPC and this F exactly when OPC is assigned and F is allowed with it. -/
theorem commandOf_isSome_iff (c : CommandWord) :
    (commandOf c.opc c.flag).isSome = true ↔ c.opcAssigned = true ∧ c.flagAllowed = true := by
  have rows : (commandOf c.opc c.flag).isSome = true ↔ ∃ row ∈ opcodeMap, row.1 = c.opc.toNat ∧ row.2.1 = c.flag := by
    simp [commandOf, List.find?_isSome]
  rw [rows]
  simp only [opcodeMap, List.mem_cons, List.not_mem_nil, or_false, exists_eq_or_imp, ↓existsAndEq, true_and,
    CommandWord.opcAssigned, CommandWord.flagAllowed, Bool.or_eq_true, decide_eq_true_eq, beq_iff_eq]
  cases c.flag with
  | false => simp only [Bool.true_eq_false, Bool.not_false, and_true, and_false, true_or, false_or]; omega
  | true => simp only [Bool.false_eq_true, Bool.not_true, and_true, and_false, false_or, or_false]; omega

/-- The legal fields are those of the sixteen commands. -/
theorem wellFormed_iff_exists_fields (c : CommandWord) : c.wellFormed = true ↔ ∃ i : Instr, c = i.fields := by
  constructor
  · intro h
    simp only [CommandWord.wellFormed, CommandWord.rsvClear, Bool.and_eq_true, beq_iff_eq] at h
    obtain ⟨⟨hrsv, hopc⟩, hflag⟩ := h
    obtain ⟨i, hi⟩ := Option.isSome_iff_exists.mp ((commandOf_isSome_iff c).mpr ⟨hopc, hflag⟩)
    obtain ⟨h1, h2⟩ := (commandOf_eq_some _ _ i).mp hi
    exact ⟨i, (eq_fields_iff c i).mpr ⟨h1, h2, hrsv⟩⟩
  · rintro ⟨i, rfl⟩
    exact i.wellFormed_eq_true

/-- A word is illegal exactly when its fields are not legal. -/
theorem decode_isError_iff (w : Word) : (∃ e, decode w = .error e) ↔ (fieldsOf w).wellFormed = false := by
  rw [← Bool.not_eq_true, wellFormed_iff_exists_fields]
  simp only [← decode_eq_ok_iff_fields]
  cases decode w <;> simp

theorem wellFormed_eq_false_iff (c : CommandWord) :
    c.wellFormed = false ↔
      c.rsv ≠ 0#23 ∨
        c.opc.toNat ∉ [0x00, 0x01, 0x02, 0x03, 0x04, 0x05, 0x06, 0x07, 0x10, 0x11, 0x20, 0x21, 0x22] ∨
        (c.flag = true ∧ c.opc.toNat ∉ [0x01, 0x02, 0x20]) := by
  have rsv : c.rsvClear = false ↔ c.rsv ≠ 0#23 := by simp [CommandWord.rsvClear]
  have opc : c.opcAssigned = false ↔
      c.opc.toNat ∉ [0x00, 0x01, 0x02, 0x03, 0x04, 0x05, 0x06, 0x07, 0x10, 0x11, 0x20, 0x21, 0x22] := by
    simp only [CommandWord.opcAssigned, Bool.or_eq_false_iff, decide_eq_false_iff_not, beq_eq_false_iff_ne,
      List.mem_cons, List.not_mem_nil, or_false]
    omega
  have flag : c.flagAllowed = false ↔ c.flag = true ∧ c.opc.toNat ∉ [0x01, 0x02, 0x20] := by
    simp only [CommandWord.flagAllowed, Bool.or_eq_false_iff, Bool.not_eq_false', beq_eq_false_iff_ne,
      List.mem_cons, List.not_mem_nil]
    tauto
  simp only [CommandWord.wellFormed, Bool.and_eq_false_iff, rsv, opc, flag, or_assoc]

end Sys2Proof
end

section
/-! PROOFS. An illegal command word is accepted like any other and completes with ILLEGAL_CMD alone (R86, R100). -/

namespace Sys2Proof.Machine

theorem run_succ_of_step {M : Host.Core} {s t : M.State} (h : M.step s = .next t) (k : Nat) :
    M.run (k + 1) s = M.run k t := by
  rw [Host.Core.run, h]

theorem core_run_succ {s t : State} (h : step s = .next t) (k : Nat) : core.run (k + 1) s = core.run k t :=
  run_succ_of_step (M := core) h k

/-- The step that accepts a command word (R100). -/
theorem step_cmdWrite_idle {s : State} {w : Word} {rest : List Event}
    (he : s.events = .access (.write 32 0x008 w) :: rest) (hb : s.status.busy = false) :
    step s = .next { acceptCommand s w with events := rest, reply := .ack } := by
  have legal : accessLegal Config.engine (.write 32 0x008 w) :=
    ⟨rfl, by simp [accessOffset], by simp only [accessOffset]; omega⟩
  have hcmd : locate 0x008 = .cmd := rfl
  rw [step_access he legal, applyAccess, hcmd, hostWrite_idle (s := { s with events := rest, reply := .none }) hb]
  rfl

section
variable {s : State} {e : IllegalWord} {rest : List Event} (hb : s.status.busy = true)
  (hd : decode s.pcmd = .error e)
include hb hd

theorem step_completion_illegal (he : s.events = .completion :: rest) :
    step s = .next (State.fail { s with events := rest, reply := .none } 1#4) := by
  rw [step_cons he, handle_completion]
  exact complete_illegal hb hd

theorem handle_both_illegal {a : Access} (ha : accessLegal Config.engine a) :
    handle s (.accessWithCompletion a) = .next (State.fail (applyAccess Config.engine s a) 1#4) := by
  obtain ⟨hpcmd, hstatus⟩ := applyAccess_busy hb Config.engine a
  rw [handle_both_busy hb ha]
  exact complete_illegal (by rw [hstatus]; exact hb) (by rw [hpcmd]; exact hd)

theorem step_both_illegal {a : Access} (he : s.events = .accessWithCompletion a :: rest)
    (ha : accessLegal Config.engine a) :
    step s = .next (State.fail (applyAccess Config.engine { s with events := rest, reply := .none } a) 1#4) := by
  rw [step_cons he]
  exact handle_both_illegal (s := { s with events := rest, reply := .none }) hb hd ha

end

/-- Settles O3: the illegal words are those whose fields are not legal, and the completion step answers each with the
error record alone. -/
theorem illegalWordsCompleteWithIllegalCmd : Obligations.IllegalWordsCompleteWithIllegalCmd := by
  refine ⟨fun w => ⟨?which, ?written⟩, fun s e hb hd => ⟨fun rest he => ?alone, fun a rest he ha => ?both⟩⟩
  case which =>
    rw [decode_isError_iff, wellFormed_eq_false_iff]
    rfl
  case written =>
    rintro ⟨e, hd⟩ s rest hb he
    have accepted := step_cmdWrite_idle he hb
    have completed := step_completion_illegal
      (s := { acceptCommand s w with events := .completion :: rest, reply := .ack }) rfl hd rfl
    exact (core_run_succ accepted 1).trans (core_run_succ completed 0)
  case alone => exact step_completion_illegal hb hd he
  case both => exact step_both_illegal hb hd he ha

end Sys2Proof.Machine
end

section
/-! PROOFS. A command word written while a command runs is dropped (R100, R257). -/

namespace Sys2Proof.Machine

/-- A step that serves a write to a word of the register map. -/
theorem step_registerWrite {s : State} {offset : Nat} {w : Word} {rest : List Event} (h4 : offset % 4 = 0)
    (hreg : offset < 0x1000) (he : s.events = .access (.write 32 offset w) :: rest) :
    step s = .next { hostWrite { s with events := rest, reply := .none } (locate offset) w with reply := .ack } := by
  have legal : accessLegal Config.engine (.write 32 offset w) := ⟨rfl, h4, by simp only [accessOffset]; omega⟩
  rw [step_access he legal, applyAccess]

/-- The step that drops a command word: WIGN alone tells of it (R100, R257). -/
theorem step_cmdWrite_busy {s : State} {w : Word} {rest : List Event}
    (he : s.events = .access (.write 32 0x008 w) :: rest) (hb : s.status.busy = true) :
    step s = .next { s with events := rest, reply := .ack, status := { s.status with wign := true } } := by
  have locked : lockedWhileBusy (locate 0x008) = true := rfl
  rw [step_registerWrite (by decide) (by decide) he,
    hostWrite_locked (s := { s with events := rest, reply := .none }) hb locked]

/-- Settles O5: while idle the write is the acceptance of the word, and while busy CMD is locked. -/
theorem commandWriteIsAcceptedOrDropped : Obligations.CommandWriteIsAcceptedOrDropped := by
  intro s w rest he
  refine ⟨fun hb => ?idle, fun hb => ?busy⟩
  case idle => exact step_cmdWrite_idle he hb
  case busy => exact step_cmdWrite_busy he hb

end Sys2Proof.Machine
end

section
/-! PROOFS. The utility commands: NOP, NONCE_PREP, INCR_L, INCR_R, ENCBLK, TAGCMP (R130–R135). -/

namespace Sys2Proof.Machine

/-! ### A command by way of its block-size check (R104) -/

/-- A command that checks CTRL.BS first goes on with the legal block size it finds there. -/
theorem exec_of_blockSize {i : Instr} {s : State} {b : BlockSize} {rest : BlockSize → Result}
    (hr : commandResult Config.engine i s = withBlockSize s.ctrl rest) (hb : s.hasBlockSize b) :
    exec i s = .next (finish s (rest b)) := by
  rw [exec_eq, hr, withBlockSize_of hb]

/-- A command that checks CTRL.BS first reports any other block size. -/
theorem exec_of_illegal_blockSize {i : Instr} {s : State} {rest : BlockSize → Result}
    (hr : commandResult Config.engine i s = withBlockSize s.ctrl rest) (hb : s.ctrl.bs.toNat ∉ [8, 16]) :
    exec i s = .next (s.fail 2#4) := by
  obtain ⟨h8, h16⟩ : s.ctrl.bs.toNat ≠ 8 ∧ s.ctrl.bs.toNat ≠ 16 := by simpa using hb
  rw [exec_eq, hr, withBlockSize_illegal h8 h16]
  rfl

theorem withBlockSize_congr {s : State} {f g : BlockSize → Result} (h : ∀ b, s.hasBlockSize b → f b = g b) :
    withBlockSize s.ctrl f = withBlockSize s.ctrl g := by
  cases hc : s.ctrl.blockSize with
  | none => simp only [withBlockSize, hc]
  | some b =>
    have hb : s.hasBlockSize b := blockSize_eq_some.mp hc
    rw [withBlockSize_of hb, withBlockSize_of hb, h b hb]

/-! ### NOP (R130) -/

/-- Settles O23: the word of NOP is 0, and its result is a success without a write. -/
theorem nopOnlyCompletes : Obligations.NopOnlyCompletes :=
  ⟨fun w => decodeExactlyTheEncodedWords w .nop, fun s => exec_eq .nop s⟩

/-! ### The counters (R114, R115, R132, R133) -/

section
variable (r : Block)

theorem blockOf_b16_halves :
    blockOf .b16 r = octetsOf (r.extractLsb' 64 64 ++ r.extractLsb' 0 64 : BitVec (64 + 64)) := by
  conv_lhs => rw [blockOf_b16, block_split r]

theorem blockOf_b8_halves :
    blockOf .b8 r = octetsOf (r.extractLsb' 96 32 ++ r.extractLsb' 64 32 : BitVec (32 + 32)) := by
  have halves : r.extractLsb' 96 32 ++ r.extractLsb' 64 32 = r.extractLsb' 64 (32 + 32) :=
    BitVec.extractLsb'_append_extractLsb'_eq_extractLsb' rfl
  rw [blockOf_b8, halves]

theorem setBlock_incrLeft_b16 : setBlock .b16 (incrLeft .b16 (blockOf .b16 r)) =
    ((r.extractLsb' 64 64 + 1#64) ++ r.extractLsb' 0 64 : BitVec (64 + 64)) := by
  rw [blockOf_b16_halves, incrLeft_octetsOf (m := 8) rfl]
  exact setBlock_b16 _

theorem setBlock_incrLeft_b8 : setBlock .b8 (incrLeft .b8 (blockOf .b8 r)) =
    ((r.extractLsb' 96 32 + 1#32) ++ r.extractLsb' 64 32 ++ 0#64 : BitVec (32 + 32 + 64)) := by
  rw [blockOf_b8_halves, incrLeft_octetsOf (m := 4) rfl]
  exact setBlock_b8 _

theorem setBlock_incrRight_b16 : setBlock .b16 (incrRight .b16 (blockOf .b16 r)) =
    (r.extractLsb' 64 64 ++ (r.extractLsb' 0 64 + 1#64) : BitVec (64 + 64)) := by
  rw [blockOf_b16_halves, incrRight_octetsOf (m := 8) rfl]
  exact setBlock_b16 _

theorem setBlock_incrRight_b8 : setBlock .b8 (incrRight .b8 (blockOf .b8 r)) =
    (r.extractLsb' 96 32 ++ (r.extractLsb' 64 32 + 1#32) ++ 0#64 : BitVec (32 + 32 + 64)) := by
  rw [blockOf_b8_halves, incrRight_octetsOf (m := 4) rfl]
  exact setBlock_b8 _

end

theorem exec_incrL {s : State} {b : BlockSize} (hb : s.hasBlockSize b) : exec .incrL s =
    .next (State.succeed { s with cnt := setBlock b (incrLeft b (blockOf b s.cnt)) } false) := by
  rw [exec_of_blockSize (i := .incrL) rfl hb]
  rfl

theorem exec_incrR {s : State} {b : BlockSize} (hb : s.hasBlockSize b) : exec .incrR s =
    .next (State.succeed { s with cnt := setBlock b (incrRight b (blockOf b s.cnt)) } false) := by
  rw [exec_of_blockSize (i := .incrR) rfl hb]
  rfl

/-- Settles O25: with each block size the block in CNT is its two halves, of which INCR_L steps the left one. -/
theorem incrLStepsTheLeftHalf : Obligations.IncrLStepsTheLeftHalf := by
  refine ⟨Laws.DecodeEncode.incrL.1, fun s => ⟨fun hb => ?long, fun hb => ?short, exec_of_illegal_blockSize rfl⟩⟩
  case long => rw [exec_incrL hb, setBlock_incrLeft_b16]
  case short => rw [exec_incrL hb, setBlock_incrLeft_b8]

/-- Settles O26: with each block size the block in CNT is its two halves, of which INCR_R steps the right one. -/
theorem incrRStepsTheRightHalf : Obligations.IncrRStepsTheRightHalf := by
  refine ⟨Laws.DecodeEncode.incrR.1, fun s => ⟨fun hb => ?long, fun hb => ?short, exec_of_illegal_blockSize rfl⟩⟩
  case long => rw [exec_incrR hb, setBlock_incrRight_b16]
  case short => rw [exec_incrR hb, setBlock_incrRight_b8]

/-! ### ENCBLK (R134) -/

theorem exec_encblk {s : State} {b : BlockSize} (hb : s.hasBlockSize b) : exec .encblk s =
    .next (State.succeed { s with blk := setBlock b (bc Config.engine b s.key (blockOf b s.blk)) } false) := by
  rw [exec_of_blockSize (i := .encblk) rfl hb]
  rfl

/-- Settles O27: with each block size the octets given to the cipher and those it answers are registers of that size. -/
theorem encblkPassesTheBlockThroughTheCipher : Obligations.EncblkPassesTheBlockThroughTheCipher := by
  refine ⟨Laws.DecodeEncode.encblk.1, fun s => ⟨fun hb => ?long, fun hb => ?short, exec_of_illegal_blockSize rfl⟩⟩
  case long =>
    rw [exec_encblk hb, blockOf_b16, bc_b16, setBlock_b16]
    rfl
  case short =>
    rw [exec_encblk hb, blockOf_b8, bc_b8, setBlock_b8]
    rfl

/-! ### TAGCMP (R116, R135) -/

/-- The first T octets of a register are its top 8·T bits. -/
theorem take_octetsOf {m T : Nat} (hT : T ≤ m) (x : BitVec (8 * m)) :
    (octetsOf x).take T = toBe (x >>> (8 * m - 8 * T)).toNat T := by
  have hpow : 256 ^ (m - T) = 2 ^ (8 * m - 8 * T) := by rw [show 256 = 2 ^ 8 from rfl, ← pow_mul, Nat.mul_sub]
  have split : octetsOf x = toBe (x.toNat / 256 ^ (m - T)) T ++ toBe x.toNat (m - T) := by
    rw [← toBe_append, octetsOf, Nat.mul_div_cancel_left m (by decide), Nat.add_sub_cancel' hT]
  rw [split, List.take_left' (toBe_length _ _), BitVec.toNat_ushiftRight, Nat.shiftRight_eq_div_pow, hpow]

theorem toNat_ushiftRight_lt {m T : Nat} (hT : T ≤ m) (x : BitVec (8 * m)) :
    (x >>> (8 * m - 8 * T)).toNat < 256 ^ T := by
  have hpow : 2 ^ (8 * m - 8 * T) * 256 ^ T = 2 ^ (8 * m) := by
    rw [show 256 = 2 ^ 8 from rfl, ← pow_mul, ← pow_add]
    congr 1
    omega
  rw [BitVec.toNat_ushiftRight, Nat.shiftRight_eq_div_pow]
  exact Nat.div_lt_of_lt_mul (hpow ▸ x.isLt)

theorem toBe_inj {u v L : Nat} (hu : u < 256 ^ L) (hv : v < 256 ^ L) : toBe u L = toBe v L ↔ u = v := by
  refine ⟨fun h => ?_, congrArg (toBe · L)⟩
  have := congrArg fromBe h
  rwa [fromBe_toBe, fromBe_toBe, Nat.mod_eq_of_lt hu, Nat.mod_eq_of_lt hv] at this

theorem take_octetsOf_eq_iff {m T : Nat} (hT : T ≤ m) (x y : BitVec (8 * m)) :
    (octetsOf x).take T = (octetsOf y).take T ↔ x >>> (8 * m - 8 * T) = y >>> (8 * m - 8 * T) := by
  rw [take_octetsOf hT, take_octetsOf hT, toBe_inj (toNat_ushiftRight_lt hT x) (toNat_ushiftRight_lt hT y),
    BitVec.toNat_inj]

theorem ctEqual_octetsOf_iff {T : Nat} (hT : T ≤ 16) (x y : Block) :
    ctEqual (octetsOf x) (octetsOf y) T = true ↔ x >>> (128 - 8 * T) = y >>> (128 - 8 * T) := by
  rw [ctEqual_iff_take _ _ _ (by simpa using hT) (by simpa using hT)]
  exact take_octetsOf_eq_iff (m := 16) hT x y

theorem withTagSize_illegal {s : State} {b : BlockSize} (h : ¬ ∃ T, s.hasTagSize b T) (rest : Nat → Result) :
    withTagSize s.ctrl b rest = .err .invalidTagSize := by
  refine require_eq_err.mpr (.inl ⟨Bool.eq_false_iff.mpr fun hT => h ⟨_, rfl, ?_⟩, rfl⟩)
  rwa [Bool.and_eq_true, decide_eq_true_eq, decide_eq_true_eq] at hT

theorem exec_tagcmp_illegal_tagSize {s : State} {b : BlockSize} (hb : s.hasBlockSize b)
    (hT : ¬ ∃ T, s.hasTagSize b T) : exec .tagcmp s = .next (s.fail 3#4) := by
  rw [exec_of_blockSize (i := .tagcmp) rfl hb, withTagSize_illegal hT]
  rfl

theorem exec_tagcmp {s : State} {b : BlockSize} {T : Nat} (hb : s.hasBlockSize b) (hT : s.hasTagSize b T) :
    exec .tagcmp s =
      .next (if s.tag >>> (128 - 8 * T) = s.tagin >>> (128 - 8 * T) then s.succeed true else s.fail 7#4) := by
  obtain ⟨-, -, hbs⟩ := id hT
  have hle : T ≤ 16 := hbs.trans (blockOctets_le b)
  rw [exec_of_blockSize (i := .tagcmp) rfl hb, withTagSize_of hT]
  split
  case isTrue h => rw [(ctEqual_octetsOf_iff hle _ _).mpr h]; rfl
  case isFalse h => rw [Bool.eq_false_iff.mpr (mt (ctEqual_octetsOf_iff hle _ _).mp h)]; rfl

/-- Settles O28: the checks in their order, then the comparison of T octets as one of the top 8·T bits. -/
theorem tagcmpComparesTheFirstOctets : Obligations.TagcmpComparesTheFirstOctets := by
  refine ⟨Laws.DecodeEncode.tagcmp.1, fun s => exec_of_illegal_blockSize rfl,
    fun s b => exec_tagcmp_illegal_tagSize, fun s b T hb hT => ⟨fun h => ?equal, fun h => ?different⟩⟩
  case equal => rw [exec_tagcmp hb hT, if_pos h]
  case different => rw [exec_tagcmp hb hT, if_neg h]

end Sys2Proof.Machine
end

section
/-! PROOFS. NONCE_PREP, and that the top bit of NONCE reaches no result of MGM (R113, R131, R190). -/

namespace Sys2Proof.Machine

/-! ### The top bit of an octet string (R113) -/

theorem msbClear_msbClear (s : Octets) : msbClear (msbClear s) = msbClear s := by
  cases s with
  | nil => rfl
  | cons o s => simp [msbClear, BitVec.and_assoc]

theorem msbSet_msbClear (s : Octets) : msbSet (msbClear s) = msbSet s := by
  have octet : ∀ o : Byte, o &&& 0x7F#8 ||| 0x80#8 = o ||| 0x80#8 := by decide
  cases s with
  | nil => rfl
  | cons o s => simp [msbClear, msbSet, octet]

theorem msbSet_congr {s t : Octets} (h : msbClear s = msbClear t) : msbSet s = msbSet t := by
  rw [← msbSet_msbClear s, h, msbSet_msbClear]

theorem msbClear_take (s : Octets) (k : Nat) : msbClear (s.take k) = (msbClear s).take k := by
  cases s with
  | nil => simp [msbClear]
  | cons o s => cases k <;> simp [msbClear]

theorem octetsOf_byte (x : Byte) : octetsOf x = [x] := by simp [octetsOf, toBe]

theorem octetsOf_octet_append (x : Byte) (y : BitVec 120) :
    octetsOf (x ++ y : BitVec (8 + 120)) = x :: octetsOf y := by
  rw [octetsOf_append (m := 1) (n := 15) x y, octetsOf_byte]
  rfl

theorem block_split_octet (r : Block) : r = (r.extractLsb' 120 8 ++ r.extractLsb' 0 120 : BitVec (8 + 120)) := by
  have octets : r.extractLsb' 120 8 ++ r.extractLsb' 0 120 = r.extractLsb' 0 (8 + 120) :=
    BitVec.extractLsb'_append_extractLsb'_eq_extractLsb' rfl
  rw [octets]
  exact BitVec.extractLsb'_eq_self.symm

/-- Clearing the top bit of octet 0 is one mask over the whole register. -/
theorem msbClear_octetsOf (r : Block) :
    msbClear (octetsOf r) = octetsOf (r &&& 0x7FFFFFFFFFFFFFFFFFFFFFFFFFFFFFFF#128) := by
  have mask : 0x7FFFFFFFFFFFFFFFFFFFFFFFFFFFFFFF#128 = (0x7F#8 ++ BitVec.allOnes 120 : BitVec (8 + 120)) := by decide
  rw [block_split_octet r, mask, BitVec.and_append, BitVec.and_allOnes, octetsOf_octet_append, octetsOf_octet_append]
  rfl

theorem msbClear_blockOf_mask (b : BlockSize) (r : Block) :
    msbClear (blockOf b (r &&& 0x7FFFFFFFFFFFFFFFFFFFFFFFFFFFFFFF#128)) = msbClear (blockOf b r) := by
  simp only [blockOf, slice_zero, msbClear_take, ← msbClear_octetsOf, msbClear_msbClear]

/-! ### MGM reads the nonce without its top bit (R190–R195) -/

section
variable {x y : Octets} (h : msbClear x = msbClear y) (P : Params) (b : BlockSize) (k : Key)
include h

theorem mgmCrypt_congr (d : Octets) : mgmCrypt P b k x d = mgmCrypt P b k y d := by
  rw [mgmCrypt, mgmCrypt, mgmY0, mgmY0, h]

theorem mgmTag_congr (ad ct : Octets) (T : Nat) : mgmTag P b k x ad ct T = mgmTag P b k y ad ct T := by
  rw [mgmTag, mgmTag, mgmSum, mgmSum, mgmZ0, mgmZ0, msbSet_congr h]

end

section
variable {P : Params} {s : State} {n : Block}
  (h : ∀ b, s.hasBlockSize b → msbClear (blockOf b n) = msbClear (blockOf b s.nonce))
include h

theorem mgmSealResult_nonce_congr : mgmSealResult P { s with nonce := n } = mgmSealResult P s := by
  refine withBlockSize_congr (s := s) fun b hb => ?_
  simp only [mgmCrypt_congr (h b hb), mgmTag_congr (h b hb)]
  rfl

theorem mgmOpenResult_nonce_congr : mgmOpenResult P { s with nonce := n } = mgmOpenResult P s := by
  refine withBlockSize_congr (s := s) fun b hb => ?_
  simp only [mgmCrypt_congr (h b hb), mgmTag_congr (h b hb)]
  rfl

theorem commandResult_mgm_nonce_congr {i : Instr} (hi : i ∈ [Instr.mgmSeal, .mgmOpen]) :
    commandResult P i { s with nonce := n } = commandResult P i s := by
  obtain rfl | rfl : i = .mgmSeal ∨ i = .mgmOpen := by simpa using hi
  · exact mgmSealResult_nonce_congr h
  · exact mgmOpenResult_nonce_congr h

end

/-! ### A command that does not write NONCE leaves another NONCE there (R46) -/

theorem applyWrite_nonce_comm {w : Write} (hw : ∀ v, w ≠ .nonce v) (s : State) (n : Block) :
    applyWrite { s with nonce := n } w = { applyWrite s w with nonce := n } := by
  cases w with
  | nonce v => exact absurd rfl (hw v)
  | _ => rfl

theorem applyWrites_nonce_comm {ws : List Write} (hw : ∀ v, Write.nonce v ∉ ws) (s : State) (n : Block) :
    applyWrites { s with nonce := n } ws = { applyWrites s ws with nonce := n } := by
  induction ws generalizing s with
  | nil => rfl
  | cons w ws ih =>
    have head : ∀ v, w ≠ .nonce v := fun v hv => hw v (hv ▸ List.mem_cons_self)
    rw [applyWrites_cons, applyWrites_cons, applyWrite_nonce_comm head,
      ih fun v hv => hw v (List.mem_cons_of_mem _ hv)]

theorem finish_nonce_comm {i : Instr} (hi : i ≠ .noncePrep) (P : Params) (s : State) (n : Block) :
    finish { s with nonce := n } (commandResult P i s) = { finish s (commandResult P i s) with nonce := n } := by
  cases hr : commandResult P i s with
  | err c => rfl
  | ok ws a =>
    obtain ⟨own, -⟩ := commandResult_writes hr
    have unwritten : ∀ v, Write.nonce v ∉ ws := fun v hv => hi (by simpa [makesWrite] using own _ hv)
    rw [finish, finish, applyWrites_nonce_comm unwritten]

/-- Two nonces that differ in the top bit alone give MGM_SEAL and MGM_OPEN the same next state, but for NONCE (R198). -/
theorem exec_mgm_nonce_congr {s t : State} {n : Block}
    (h : ∀ b, s.hasBlockSize b → msbClear (blockOf b n) = msbClear (blockOf b s.nonce)) {i : Instr}
    (hi : i ∈ [Instr.mgmSeal, .mgmOpen]) (ht : exec i s = .next t) :
    exec i { s with nonce := n } = .next { t with nonce := n } := by
  have other : i ≠ .noncePrep := by rintro rfl; revert hi; decide
  obtain rfl := (exec_eq_next_iff i s t).mp ht
  rw [exec_eq, commandResult_mgm_nonce_congr h hi, finish_nonce_comm other]

theorem exec_noncePrep (s : State) : exec .noncePrep s =
    .next (State.succeed { s with nonce := s.nonce &&& 0x7FFFFFFFFFFFFFFFFFFFFFFFFFFFFFFF#128 } false) := by
  have nonce : ofOctets 128 (msbClear (octetsOf s.nonce)) = s.nonce &&& 0x7FFFFFFFFFFFFFFFFFFFFFFFFFFFFFFF#128 := by
    rw [msbClear_octetsOf]
    exact ofOctets_octetsOf (m := 16) _
  rw [← nonce]
  exact exec_eq .noncePrep s

/-- Settles O24: the mask clears the top bit alone, which MGM clears or sets itself before it reads the nonce. -/
theorem noncePrepClearsTheTopBit : Obligations.NoncePrepClearsTheTopBit := by
  refine ⟨Laws.DecodeEncode.noncePrep.1, fun s => ⟨_, rfl, exec_noncePrep s, fun i hi t ht => ?_⟩⟩
  exact exec_mgm_nonce_congr (fun b _ => msbClear_blockOf_mask b s.nonce) hi ht

end Sys2Proof.Machine
end

section
/-! PROOFS. ACPKM_DERIVE: the constant schedule, and the key made of its cipher blocks (R150, R153). -/

namespace Sys2Proof.Machine

/-! ### The blocks of the constant schedule, as registers (R150) -/

theorem acpkmBlocks_b16 :
    acpkmBlock .b16 0 = octetsOf 0x808182838485868788898A8B8C8D8E8F#128 ∧
      acpkmBlock .b16 1 = octetsOf 0x909192939495969798999A9B9C9D9E9F#128 := by
  decide

theorem acpkmBlocks_b8 :
    acpkmBlock .b8 0 = octetsOf 0x8081828384858687#64 ∧ acpkmBlock .b8 1 = octetsOf 0x88898A8B8C8D8E8F#64 ∧
      acpkmBlock .b8 2 = octetsOf 0x9091929394959697#64 ∧ acpkmBlock .b8 3 = octetsOf 0x98999A9B9C9D9E9F#64 := by
  decide

/-! ### The derived key, as the register of its cipher blocks -/

section
variable (P : Params) (k : Key)

theorem acpkmDeriveOctets_b16 : acpkmDeriveOctets P .b16 k =
    octetsOf (P.bc16 k 0x808182838485868788898A8B8C8D8E8F#128) ++
      octetsOf (P.bc16 k 0x909192939495969798999A9B9C9D9E9F#128) := by
  obtain ⟨block0, block1⟩ := acpkmBlocks_b16
  have blocks : acpkmDeriveOctets P .b16 k =
      bc P .b16 k (acpkmBlock .b16 0) ++ (bc P .b16 k (acpkmBlock .b16 1) ++ []) := rfl
  rw [blocks, block0, block1, bc_b16, bc_b16, List.append_nil]

theorem acpkmDeriveOctets_b8 : acpkmDeriveOctets P .b8 k =
    octetsOf (P.bc8 k 0x8081828384858687#64) ++ octetsOf (P.bc8 k 0x88898A8B8C8D8E8F#64) ++
      octetsOf (P.bc8 k 0x9091929394959697#64) ++ octetsOf (P.bc8 k 0x98999A9B9C9D9E9F#64) := by
  obtain ⟨block0, block1, block2, block3⟩ := acpkmBlocks_b8
  have blocks : acpkmDeriveOctets P .b8 k = bc P .b8 k (acpkmBlock .b8 0) ++ (bc P .b8 k (acpkmBlock .b8 1) ++
      (bc P .b8 k (acpkmBlock .b8 2) ++ (bc P .b8 k (acpkmBlock .b8 3) ++ []))) := rfl
  rw [blocks, block0, block1, block2, block3, bc_b8, bc_b8, bc_b8, bc_b8, List.append_nil, List.append_assoc,
    List.append_assoc]

theorem acpkmDerive_b16 : acpkmDerive P .b16 k =
    (P.bc16 k 0x808182838485868788898A8B8C8D8E8F#128 ++ P.bc16 k 0x909192939495969798999A9B9C9D9E9F#128 :
      BitVec (128 + 128)) := by
  rw [acpkmDerive, acpkmDeriveOctets_b16, ← octetsOf_append (m := 16) (n := 16)]
  exact ofOctets_octetsOf (m := 32) _

theorem acpkmDerive_b8 : acpkmDerive P .b8 k =
    (P.bc8 k 0x8081828384858687#64 ++ P.bc8 k 0x88898A8B8C8D8E8F#64 ++ P.bc8 k 0x9091929394959697#64 ++
      P.bc8 k 0x98999A9B9C9D9E9F#64 : BitVec (64 + 64 + 64 + 64)) := by
  rw [acpkmDerive, acpkmDeriveOctets_b8, ← octetsOf_append (m := 8) (n := 8), ← octetsOf_append (m := 16) (n := 8),
    ← octetsOf_append (m := 24) (n := 8)]
  exact ofOctets_octetsOf (m := 32) _

end

theorem exec_acpkmDerive {s : State} {b : BlockSize} (hb : s.hasBlockSize b) : exec .acpkmDerive s =
    .next (State.succeed { s with kd := acpkmDerive Config.engine b s.key } false) := by
  rw [exec_of_blockSize (i := .acpkmDerive) rfl hb]
  rfl

/-- Settles O38: with each block size the cipher blocks of the constant schedule, put together, are the derived key. -/
theorem acpkmDeriveEnciphersTheConstants : Obligations.AcpkmDeriveEnciphersTheConstants := by
  refine ⟨Laws.DecodeEncode.acpkmDerive.1, fun s => ⟨fun hb => ?long, fun hb => ?short, exec_of_illegal_blockSize rfl⟩⟩
  case long =>
    rw [exec_acpkmDerive hb, acpkmDerive_b16]
    rfl
  case short =>
    rw [exec_acpkmDerive hb, acpkmDerive_b8]
    rfl

end Sys2Proof.Machine
end

section
/-! PROOFS. The four multiplier commands, from octet strings to registers (R173–R176). -/

namespace Sys2Proof.Machine

/-! ### What each command writes into GFZ, as a register -/

section
variable (s : State)

theorem gfProduct_b16 : gfProduct .b16 s = octetsOf (gfmul128 s.gfa s.gfb) := by
  rw [gfProduct, blockOf_b16, blockOf_b16, gfmulOctets_b16]

theorem gfProduct_b8 :
    gfProduct .b8 s = octetsOf (gfmul64 (s.gfa.extractLsb' 64 64) (s.gfb.extractLsb' 64 64)) := by
  rw [gfProduct, blockOf_b8, blockOf_b8, gfmulOctets_b8]

theorem gfmulResult_b16 : gfmulResult .b16 s = .ok [.gfz (gfmul128 s.gfa s.gfb)] false := by
  rw [gfmulResult, gfProduct_b16, setBlock_b16]

theorem gfmulResult_b8 : gfmulResult .b8 s = .ok
    [.gfz (gfmul64 (s.gfa.extractLsb' 64 64) (s.gfb.extractLsb' 64 64) ++ 0#64 : BitVec (64 + 64))] false := by
  rw [gfmulResult, gfProduct_b8, setBlock_b8]

theorem gfmacResult_b16 : gfmacResult .b16 s = .ok [.gfz (s.gfz ^^^ gfmul128 s.gfa s.gfb)] false := by
  rw [gfmacResult, gfProduct_b16, blockOf_b16, xorOctets_octetsOf (m := 16), setBlock_b16]

theorem gfmacResult_b8 : gfmacResult .b8 s = .ok
    [.gfz ((s.gfz.extractLsb' 64 64 ^^^ gfmul64 (s.gfa.extractLsb' 64 64) (s.gfb.extractLsb' 64 64)) ++ 0#64 :
      BitVec (64 + 64))] false := by
  rw [gfmacResult, gfProduct_b8, blockOf_b8, xorOctets_octetsOf (m := 8), setBlock_b8]

end

/-- A command whose result is one write of GFZ succeeds with that GFZ, whatever CTRL holds. -/
theorem exec_of_gfzResult {i : Instr} {s : State} {z : Block}
    (hr : commandResult Config.engine i s = .ok [.gfz z] false) :
    exec i s = .next (State.succeed { s with gfz := z } false) := by
  rw [exec_eq, hr]
  rfl

/-- Settles O34: each command's only write is GFZ, with the octet strings read as registers. -/
theorem multiplierCommandsWriteGfz : Obligations.MultiplierCommandsWriteGfz := by
  refine ⟨⟨?_, ?_, ?_, ?_⟩, fun s => ⟨?_, ?_, ?_, ?_⟩⟩
  · exact Laws.DecodeEncode.gfmul64.1
  · exact Laws.DecodeEncode.gfmac64.1
  · exact Laws.DecodeEncode.gfmul128.1
  · exact Laws.DecodeEncode.gfmac128.1
  · exact exec_of_gfzResult (gfmulResult_b8 s)
  · exact exec_of_gfzResult (gfmacResult_b8 s)
  · exact exec_of_gfzResult (gfmulResult_b16 s)
  · exact exec_of_gfzResult (gfmacResult_b16 s)

end Sys2Proof.Machine
end

section
/-! PROOFS. The multiplier loop as a product of polynomials over GF(2) (R170–R172). -/

namespace Sys2Proof.Machine

/-! ### The shift of one iteration, bit by bit (R171) -/

theorem getLsbD_shiftLeft_one_succ {n : Nat} (x : BitVec n) {i : Nat} (hi : i + 1 < n) :
    (x <<< 1).getLsbD (i + 1) = x.getLsbD i := by
  simp only [BitVec.getLsbD_shiftLeft, hi, Nat.add_sub_cancel, Nat.not_lt.mpr (Nat.le_add_left 1 i), decide_true,
    decide_false, Bool.not_false, Bool.true_and]

/-- Clearing the top bit first changes nothing: the shift drops it. -/
theorem shiftLeft_one_clear_msb {n : Nat} (x : BitVec n) :
    (x &&& BitVec.ofNat n (2 ^ (n - 1) - 1)) <<< 1 = x <<< 1 := by
  apply BitVec.eq_of_getLsbD_eq
  intro i hi
  cases i with
  | zero => simp
  | succ i =>
    have kept : (BitVec.ofNat n (2 ^ (n - 1) - 1)).getLsbD i = true := by
      simp only [BitVec.getLsbD_ofNat, Nat.testBit_two_pow_sub_one, Bool.and_eq_true, decide_eq_true_eq]
      omega
    rw [getLsbD_shiftLeft_one_succ _ hi, getLsbD_shiftLeft_one_succ _ hi, BitVec.getLsbD_and, kept, Bool.and_true]

theorem gfShift_eq {n : Nat} (r x : BitVec n) : gfShift r x = x <<< 1 ^^^ if x.msb then r else 0#n := by
  rw [gfShift, shiftLeft_one_clear_msb]
  split
  · rfl
  · exact BitVec.xor_zero.symm

/-! ### An integer as a polynomial in `t`

`bitSum X v` is the polynomial of R172, and `bitSum t v` its value at an element `t` of a ring of characteristic 2. The
loop is followed at a `t` with P_n(t) = 0, where its reduction is an equation. -/

/-- The sum of the powers of `t` that the bits of `v` name. -/
def bitSum {R : Type*} [CommRing R] {n : Nat} (t : R) (v : BitVec n) : R :=
  ∑ i ∈ Finset.range n, if v.getLsbD i then t ^ i else 0

theorem map_bitSum {R S : Type*} [CommRing R] [CommRing S] (f : R →+* S) {n : Nat} (t : R) (v : BitVec n) :
    f (bitSum t v) = bitSum (f t) v := by
  simp only [bitSum, map_sum, apply_ite f, map_pow, map_zero]

section
variable {R : Type*} [CommRing R] {n : Nat} (t : R)

@[simp] theorem bitSum_zero : bitSum t 0#n = 0 := by simp [bitSum]

theorem bitSum_twoPow {k : Nat} (hk : k < n) : bitSum t (BitVec.twoPow n k) = t ^ k := by
  simp [bitSum, BitVec.getLsbD_twoPow, hk]

/-- A left shift multiplies by `t` and loses the term of degree `n`. -/
theorem bitSum_shiftLeft_one (x : BitVec n) :
    bitSum t (x <<< 1) + (if x.msb then t ^ n else 0) = t * bitSum t x := by
  cases n with
  | zero => simp [bitSum, BitVec.msb_eq_getLsbD_last]
  | succ m =>
    rw [bitSum, bitSum, Finset.sum_range_succ', Finset.sum_range_succ, mul_add, Finset.mul_sum,
      BitVec.msb_eq_getLsbD_last]
    have low : ∀ i ∈ Finset.range m, (if (x <<< 1).getLsbD (i + 1) then t ^ (i + 1) else 0) =
        t * if x.getLsbD i then t ^ i else 0 := by
      intro i hi
      have inside : i + 1 < m + 1 := Nat.succ_lt_succ (Finset.mem_range.mp hi)
      rw [getLsbD_shiftLeft_one_succ x inside, mul_ite, mul_zero, pow_succ']
    rw [Finset.sum_congr rfl low]
    simp [pow_succ']

@[simp] theorem bitSum_xor [Module (ZMod 2) R] (x y : BitVec n) :
    bitSum t (x ^^^ y) = bitSum t x + bitSum t y := by
  simp only [bitSum, ← Finset.sum_add_distrib, BitVec.getLsbD_xor]
  refine Finset.sum_congr rfl fun i _ => ?_
  cases x.getLsbD i <;> cases y.getLsbD i <;> simp [ZModModule.add_self]

end

/-! ### The loop (R171) -/

/-- The first `k` iterations. -/
def gfLoop {n : Nat} (r x y : BitVec n) (k : Nat) : BitVec n × BitVec n :=
  (List.range k).foldl (gfStep r y) (x, 0#n)

theorem gfmul_eq_gfLoop {n : Nat} (r x y : BitVec n) : gfmul r x y = (gfLoop r x y n).2 := rfl

theorem gfLoop_zero {n : Nat} (r x y : BitVec n) : gfLoop r x y 0 = (x, 0#n) := rfl

theorem gfLoop_succ {n : Nat} (r x y : BitVec n) (k : Nat) :
    gfLoop r x y (k + 1) = gfStep r y (gfLoop r x y k) k := by
  rw [gfLoop, List.range_succ, List.foldl_append]
  rfl

section
variable {R : Type*} [CommRing R] [Module (ZMod 2) R] {n : Nat} {t : R} {r : BitVec n} (ht : t ^ n = bitSum t r)
include ht

/-- Where P_n(t) = 0, the update of x multiplies by `t`. -/
theorem bitSum_gfShift (x : BitVec n) : bitSum t (gfShift r x) = t * bitSum t x := by
  rw [gfShift_eq, bitSum_xor, ← bitSum_shiftLeft_one, apply_ite (bitSum t), bitSum_zero, ht]

/-- The loop's invariant: x has been multiplied by t^k, and z is the product with the low `k` bits of y. -/
theorem bitSum_gfLoop (x y : BitVec n) (k : Nat) :
    bitSum t (gfLoop r x y k).1 = t ^ k * bitSum t x ∧
      bitSum t (gfLoop r x y k).2 = bitSum t x * ∑ i ∈ Finset.range k, if y.getLsbD i then t ^ i else 0 := by
  induction k with
  | zero => simp [gfLoop_zero]
  | succ k ih =>
    obtain ⟨ihx, ihz⟩ := ih
    rw [gfLoop_succ, gfStep, bitSum_gfShift ht, Finset.sum_range_succ]
    refine ⟨by rw [ihx]; ring, ?_⟩
    cases y.getLsbD k with
    | false => simpa using ihz
    | true =>
      simp only [if_true, bitSum_xor, ihx, ihz]
      ring

theorem bitSum_gfmul (x y : BitVec n) : bitSum t (gfmul r x y) = bitSum t x * bitSum t y := by
  rw [gfmul_eq_gfLoop]
  exact (bitSum_gfLoop ht x y n).2

end

/-! ### The product modulo P_n -/

section
open Polynomial

theorem degree_bitSum_lt {n : Nat} (v : BitVec n) : (bitSum (X : Polynomial (ZMod 2)) v).degree < n := by
  rw [← mem_degreeLT]
  refine Submodule.sum_mem _ fun i hi => ?_
  have term : (X ^ i : Polynomial (ZMod 2)) ∈ degreeLT (ZMod 2) n := by
    rw [mem_degreeLT, degree_X_pow]
    exact_mod_cast Finset.mem_range.mp hi
  split
  · exact term
  · exact Submodule.zero_mem _

/-- With P_n = t^n + r(t), the loop computes the remainder of the product: its result is the product in the quotient
ring, and its degree is below n. -/
theorem bitSum_gfmul_eq_modByMonic {n : Nat} {r : BitVec n} {P : Polynomial (ZMod 2)} (hP : P = X ^ n + bitSum X r)
    (x y : BitVec n) : bitSum X (gfmul r x y) = (bitSum X x * bitSum X y) %ₘ P := by
  have monic : P.Monic := hP ▸ monic_X_pow_add (degree_bitSum_lt r)
  have degree : (bitSum (X : Polynomial (ZMod 2)) (gfmul r x y)).degree < P.degree := by
    rw [hP, degree_add_eq_left_of_degree_lt (by rw [degree_X_pow]; exact degree_bitSum_lt r), degree_X_pow]
    exact degree_bitSum_lt _
  have root : AdjoinRoot.root P ^ n = bitSum (AdjoinRoot.root P) r := by
    have zero : AdjoinRoot.mk P (X ^ n + bitSum X r) = 0 := AdjoinRoot.mk_eq_zero.mpr (dvd_of_eq hP)
    rw [map_add, map_pow, map_bitSum, AdjoinRoot.mk_X] at zero
    rw [eq_neg_of_add_eq_zero_left zero, ZModModule.neg_eq_self]
  have product : P ∣ bitSum X (gfmul r x y) - bitSum X x * bitSum X y := by
    rw [← AdjoinRoot.mk_eq_mk, map_mul, map_bitSum, map_bitSum, map_bitSum, AdjoinRoot.mk_X, bitSum_gfmul root]
  rw [← modByMonic_eq_of_dvd_sub monic product, (modByMonic_eq_self_iff monic).mpr degree]

/-- P_64 is t^64 + r for r = 0x1B (R170). -/
theorem modulus64_eq : (X ^ 64 + X ^ 4 + X ^ 3 + X + 1 : Polynomial (ZMod 2)) = X ^ 64 + bitSum X 0x1B#64 := by
  have bits : 0x1B#64 = BitVec.twoPow 64 4 ^^^ BitVec.twoPow 64 3 ^^^ BitVec.twoPow 64 1 ^^^ BitVec.twoPow 64 0 := by
    decide
  rw [bits]
  simp [bitSum_twoPow, add_assoc]

/-- P_128 is t^128 + r for r = 0x87 (R170). -/
theorem modulus128_eq : (X ^ 128 + X ^ 7 + X ^ 2 + X + 1 : Polynomial (ZMod 2)) = X ^ 128 + bitSum X 0x87#128 := by
  have bits : 0x87#128 =
      BitVec.twoPow 128 7 ^^^ BitVec.twoPow 128 2 ^^^ BitVec.twoPow 128 1 ^^^ BitVec.twoPow 128 0 := by
    decide
  rw [bits]
  simp [bitSum_twoPow, add_assoc]

end

/-- Settles O35: the statement's sum over the bits is `bitSum X`, and the loop computes the remainder at both widths. -/
theorem fieldProductIsThePolynomialProduct : Obligations.FieldProductIsThePolynomialProduct :=
  ⟨bitSum_gfmul_eq_modByMonic modulus64_eq, bitSum_gfmul_eq_modByMonic modulus128_eq⟩

end Sys2Proof.Machine
end

section
/-! PROOFS. Neither the top bit of NONCE nor its octets bs..15 reach any result of MGM (R198, R200 (e)). -/

namespace Sys2Proof.Machine

/-- Settles O49: CTRL selects one block size, and MGM reads the nonce at that size only, without its top bit. -/
theorem nonceTopBitHasNoEffect : Obligations.NonceTopBitHasNoEffect := by
  intro s t b nonce hb hn i hi ht
  have agree : ∀ b', s.hasBlockSize b' → msbClear (blockOf b' nonce) = msbClear (blockOf b' s.nonce) := by
    intro b' hb'
    obtain rfl := hasBlockSize_unique hb hb'
    exact hn
  exact exec_mgm_nonce_congr agree hi ht

end Sys2Proof.Machine
end

section
/-! PROOFS. The engine serves the host right after reset (R253). -/

namespace Sys2Proof.Machine

/-- The step in which the reset input is asserted (R250). -/
theorem step_reset {s : State} {rest : List Event} (he : s.events = .reset :: rest) :
    step s = .next (resetEngine { s with events := rest }) := by
  rw [step_cons he, handle_reset]
  rfl

/-- A served access is answered: a read with data, a write with an acknowledgement (R61). -/
theorem applyAccess_reply_ne_none (P : Params) (s : State) (a : Access) : (applyAccess P s a).reply ≠ .none := by
  cases a with
  | read width offset =>
    obtain ⟨w, n, h⟩ := hostRead_eq P s (locate offset)
    rw [applyAccess, h]
    nofun
  | write width offset w => nofun

/-- Settles O20: the state after reset is idle, so the step after it serves any legal access and accepts a command. -/
theorem readyRightAfterReset : Obligations.ReadyRightAfterReset := by
  refine ⟨fun s a rest he ha => ?served, fun s w rest he => ?accepted⟩
  case served =>
    have served := step_access (s := resetEngine { s with events := .access a :: rest }) rfl ha
    exact ⟨_, (core_run_succ (step_reset he) 1).trans (core_run_succ served 0),
      applyAccess_events _ _ _, applyAccess_reply_ne_none _ _ _⟩
  case accepted =>
    have idle : State.reset.status.busy = false := rfl
    have accepted := step_cmdWrite_idle
      (s := resetEngine { s with events := .access (.write 32 0x008 w) :: rest }) rfl idle
    exact ⟨_, (core_run_succ (step_reset he) 1).trans (core_run_succ accepted 0), rfl, rfl, rfl, rfl⟩

end Sys2Proof.Machine
end

section
/-! PROOFS. The invariant holds after reset and every step keeps it (R22, R26, R102, R106, R220, R221). -/

namespace Sys2Proof.Machine

/-- Settles O21: DBUF's list is empty, and no flag is set. -/
theorem resetStateMeetsTheInvariant : Obligations.ResetStateMeetsTheInvariant := by
  refine ⟨reset_memory_wf, by simp [State.reset], ?_⟩
  simp [Status.coherent, State.reset]

/-- Settles O22: a step is the oldest event, or the completion where none is left, and each of them keeps the invariant. -/
theorem stepKeepsTheInvariant : Obligations.StepKeepsTheInvariant := by
  intro s t hinv hstep
  cases he : s.events with
  | nil =>
    rw [step_nil he] at hstep
    exact inv_complete (s := { s with reply := .none }) hinv hstep
  | cons e rest =>
    rw [step_cons he] at hstep
    exact inv_handle (s := { s with events := rest, reply := .none }) hinv e hstep

end Sys2Proof.Machine
end

section
/-! PROOFS. The opcode map, word by word (R84). -/

namespace Sys2Proof

open Laws

/-- Settles O1: each row's word is the encoding of its command. -/
theorem opcodeMapWordsDecode : Obligations.OpcodeMapWordsDecode :=
  ⟨DecodeEncode.nop.1, DecodeEncode.gfmul64.1, DecodeEncode.gfmac64.1, DecodeEncode.gfmul128.1,
    DecodeEncode.gfmac128.1, DecodeEncode.incrL.1, DecodeEncode.incrR.1, DecodeEncode.noncePrep.1,
    DecodeEncode.encblk.1, DecodeEncode.tagcmp.1, DecodeEncode.mgmSeal.1, DecodeEncode.mgmOpen.1,
    DecodeEncode.acpkmDerive.1, DecodeEncode.acpkmDeriveLoad.1, DecodeEncode.ctrAcpkm.1, DecodeEncode.acpkmMaster.1⟩

end Sys2Proof
end

section
/-! PROOFS. The completion of a running command: when it comes, and what it records (R101–R103, R221, R226, R227, R260). -/

namespace Sys2Proof.Machine

/-! ### The step that completes (R101, R103) -/

/-- A host access leaves the running command as it is. -/
theorem applyAccess_keeps_command {s : State} (hb : s.status.busy = true) (P : Params) (a : Access) :
    (applyAccess P s a).status.busy = true ∧ (applyAccess P s a).pcmd = s.pcmd := by
  obtain ⟨hpcmd, hstatus⟩ := applyAccess_busy hb P a
  exact ⟨by rw [hstatus]; exact hb, hpcmd⟩

theorem step_completion {s : State} {rest : List Event} (he : s.events = .completion :: rest) :
    step s = complete { s with events := rest, reply := .none } := by
  rw [step_cons he, handle_completion]

theorem step_both_busy {s : State} {a : Access} {rest : List Event} (he : s.events = .accessWithCompletion a :: rest)
    (hb : s.status.busy = true) (ha : accessLegal Config.engine a) :
    step s = complete (applyAccess Config.engine { s with events := rest, reply := .none } a) := by
  rw [step_cons he]
  exact handle_both_busy (s := { s with events := rest, reply := .none }) hb ha

/-- Settles O4: the completion step runs the decoded command, and an access before it leaves the latched word alone. -/
theorem stepRunsTheDecodedCommand : Obligations.StepRunsTheDecodedCommand := by
  refine ⟨fun s i hb hd => ⟨fun he => ?last, fun rest he => ?alone, fun a rest he ha => ?both⟩,
    fun s e hb hd he => ?illegal⟩
  case last =>
    rw [step_nil he]
    exact complete_legal hb hd
  case alone =>
    rw [step_completion he]
    exact complete_legal hb hd
  case both =>
    obtain ⟨busy, pcmd⟩ := applyAccess_keeps_command (s := { s with events := rest, reply := .none }) hb Config.engine a
    rw [step_both_busy he hb ha, complete_legal busy (by rw [pcmd]; exact hd)]
  case illegal =>
    rw [step_nil he]
    exact complete_illegal hb hd

/-! ### What a completion records (R101, R102, R221) -/

/-- Settles O6: the result of a command is a list of writes, none of them to a flag, or an error, which is all that is
recorded. -/
theorem completionSucceedsOrOnlyRecordsItsCode : Obligations.CompletionSucceedsOrOnlyRecordsItsCode := by
  intro i s _ _
  refine ⟨_, exec_eq i s, ?_⟩
  cases commandResult Config.engine i s with
  | ok ws a => exact .inl ⟨rfl, rfl⟩
  | err c =>
    obtain ⟨hne, hle⟩ := errCode_code_bounds c
    have hpos : c.code.toNat ≠ 0 := fun h => hne (BitVec.eq_of_toNat_eq h)
    exact .inr ⟨c.code, by omega, hle, finish_err_eq_fail s c⟩

/-! ### Every accepted command completes (R260) -/

/-- While a command runs, one step completes it, or serves an access and leaves one event less. -/
theorem step_busy_cases {s : State} (hb : s.status.busy = true)
    (hev : ∀ e ∈ s.events, eventLegal Config.engine e ∧ e ≠ .reset) :
    (∃ t, step s = .next t ∧ t.status.busy = false ∧ t.status.done = true ∧ t.pcmd = s.pcmd) ∨
    (∃ e t, step s = .next t ∧ t.status.busy = true ∧ t.pcmd = s.pcmd ∧ s.events = e :: t.events) := by
  have completes : ∀ u : State, u.status.busy = true → u.pcmd = s.pcmd →
      ∃ t, complete u = .next t ∧ t.status.busy = false ∧ t.status.done = true ∧ t.pcmd = s.pcmd := by
    intro u hu hpcmd
    obtain ⟨t, ht, hidle, hdone, -⟩ := complete_busy hu
    exact ⟨t, ht, hidle, hdone, (complete_keeps ht).2.trans hpcmd⟩
  cases he : s.events with
  | nil =>
    rw [step_nil he]
    exact .inl (completes _ hb rfl)
  | cons e rest =>
    obtain ⟨legal, noReset⟩ := hev e (he ▸ List.mem_cons_self)
    have kept := applyAccess_keeps_command (s := { s with events := rest, reply := .none }) hb Config.engine
    cases e with
    | access a => exact .inr ⟨_, _, step_access he legal, (kept a).1, (kept a).2, by rw [applyAccess_events]⟩
    | completion =>
      rw [step_completion he]
      exact .inl (completes _ hb rfl)
    | accessWithCompletion a =>
      rw [step_both_busy he hb legal]
      exact .inl (completes _ (kept a).1 (kept a).2)
    | reset => exact absurd rfl noReset

/-- Settles O7: by induction on the events still to come, each of which completes the command or is served before it. -/
theorem everyAcceptedCommandCompletes : Obligations.EveryAcceptedCommandCompletes := by
  intro s hb hev
  induction hn : s.events.length generalizing s with
  | zero =>
    rcases step_busy_cases hb hev with ⟨t, ht, done⟩ | ⟨e, t, -, -, -, he⟩
    · exact ⟨1, t, by omega, core_run_succ ht 0, done⟩
    · simp [he] at hn
  | succ n ih =>
    rcases step_busy_cases hb hev with ⟨t, ht, done⟩ | ⟨e, t, ht, busy, pcmd, he⟩
    · exact ⟨1, t, by omega, core_run_succ ht 0, done⟩
    · have later : ∀ e ∈ t.events, eventLegal Config.engine e ∧ e ≠ .reset :=
        fun e' h' => hev e' (he ▸ List.mem_cons_of_mem _ h')
      obtain ⟨k, v, hk, hrun, idle, done, hv⟩ := ih t busy later (by simpa [he] using hn)
      exact ⟨k + 1, v, by omega, (core_run_succ ht k).trans hrun, idle, done, hv.trans pcmd⟩

/-! ### Pending bits and the line (R27, R44, R226, R227) -/

/-- A completion sets CMPL, sets ERRI exactly where it ends in an error, and leaves the enables. -/
theorem finish_pending (s : State) (r : Result) :
    (finish s r).irqStatus.cmpl = true ∧
      (s.irqStatus.erri = true → (finish s r).irqStatus.erri = true) ∧
      (s.status.err = false → (finish s r).status.err = true → (finish s r).irqStatus.erri = true) ∧
      ((finish s r).status.err = false → (finish s r).irqStatus.erri = s.irqStatus.erri) ∧
      (finish s r).irqLine = (s.irqEnable.cmple || ((finish s r).irqStatus.erri && s.irqEnable.erre)) := by
  have line : (finish s r).irqLine = (s.irqEnable.cmple || ((finish s r).irqStatus.erri && s.irqEnable.erre)) := by
    simp only [State.irqLine, (finish_flags s r).2.2.1, finish_irqEnable, Bool.true_and]
  cases r with
  | ok ws a =>
    refine ⟨rfl, fun h => h, fun h0 h1 => ?_, fun _ => rfl, line⟩
    exact absurd (h0.symm.trans h1) Bool.false_ne_true
  | err c => exact ⟨rfl, fun _ => rfl, fun _ _ => rfl, nofun, line⟩

/-- The completion of a running command: its flags, and its pending bits against those before it. -/
theorem complete_pending {s : State} (hb : s.status.busy = true) :
    ∃ t, complete s = .next t ∧ t.irqStatus.cmpl = true ∧ t.status.busy = false ∧ t.status.done = true ∧
      (s.status.err = false → t.status.err = true → t.irqStatus.erri = true) ∧
      (t.status.err = false → t.irqStatus.erri = s.irqStatus.erri) ∧
      t.irqLine = (s.irqEnable.cmple || (t.irqStatus.erri && s.irqEnable.erre)) := by
  rcases complete_cases s with ⟨idle, -⟩ | ⟨-, r, hr, -⟩
  · exact absurd (hb.symm.trans idle) (by decide)
  · obtain ⟨cmpl, -, error, success, line⟩ := finish_pending s r
    obtain ⟨idle, done, -, -⟩ := finish_flags s r
    exact ⟨_, hr, cmpl, idle, done, error, success, line⟩

/-- Settles O17: the completion comes last, so a clearing write in the same step acts on the bits before it. -/
theorem completionSetsPendingBitsLast : Obligations.CompletionSetsPendingBitsLast := by
  refine ⟨fun s => rfl, fun i s t ht => ?alone, fun s w rest hb he => ?both⟩
  case alone =>
    obtain rfl := (exec_eq_next_iff i s t).mp ht
    obtain ⟨cmpl, kept, error, success, line⟩ := finish_pending s (commandResult Config.engine i s)
    exact ⟨cmpl, finish_irqEnable s _, kept, error, success, line⟩
  case both =>
    have legal : accessLegal Config.engine (.write 32 0x010 w) :=
      ⟨rfl, by simp [accessOffset], by simp only [accessOffset]; omega⟩
    have cleared : applyAccess Config.engine { s with events := rest, reply := .none } (.write 32 0x010 w) =
        { s with events := rest, reply := .ack, irqStatus := s.irqStatus.clear w } := by
      have hirq : locate 0x010 = .irqStatus := rfl
      rw [applyAccess, hirq, hostWrite_open rfl]
      rfl
    rw [step_both_busy he hb legal, cleared]
    exact complete_pending (s := { s with events := rest, reply := .ack, irqStatus := s.irqStatus.clear w }) hb

end Sys2Proof.Machine
end

section
/-! PROOFS. Host writes (R21, R22, R24, R30, R31, R67, R256, R257). -/

namespace Sys2Proof.Machine

/-! ### A write of a word, by where it lands -/

section
variable {s : State} {offset : Nat} {w : Word} {rest : List Event}
  (he : s.events = .access (.write 32 offset w) :: rest) (h4 : offset % 4 = 0)
include he h4

theorem step_write (hin : offset < 0x1000 + Config.engine.dbufSize) :
    step s = .next { hostWrite { s with events := rest, reply := .none } (locate offset) w with reply := .ack } := by
  have legal : accessLegal Config.engine (.write 32 offset w) := ⟨rfl, h4, hin⟩
  rw [step_access he legal, applyAccess]

/-- A write to a word that is locked while a command runs (R256). -/
theorem step_write_locked (hin : offset < 0x1000 + Config.engine.dbufSize) (hb : s.status.busy = true)
    (hl : lockedWhileBusy (locate offset) = true) :
    step s = .next { s with events := rest, reply := .ack, status := { s.status with wign := true } } := by
  rw [step_write he h4 hin, hostWrite_locked (s := { s with events := rest, reply := .none }) hb hl]

/-- A write to a register that no running command locks (R256). -/
theorem step_write_open (hreg : offset < 0x1000) {loc : Loc} (hloc : locate offset = loc)
    (hl : lockedWhileBusy loc = false) :
    step s = .next { storeWord { s with events := rest, reply := .none } loc w with reply := .ack } := by
  rw [step_registerWrite h4 hreg he, hloc, hostWrite_open hl]

/-- A write to a register while no command runs. -/
theorem step_write_idle (hb : s.status.busy = false) (hreg : offset < 0x1000) {loc : Loc} (hloc : locate offset = loc) :
    step s = .next { storeWord { s with events := rest, reply := .none } loc w with reply := .ack } := by
  rw [step_registerWrite h4 hreg he, hloc, hostWrite_idle (s := { s with events := rest, reply := .none }) hb]

end

/-- The words that a write never changes (R22, R40, R66). -/
def readOnly : Loc → Bool
  | .id | .status | .cap | .reserved | .kd _ => true
  | _ => false

theorem storeWord_readOnly {loc : Loc} (h : readOnly loc = true) (s : State) (w : Word) : storeWord s loc w = s := by
  cases loc with
  | id | status | cap | reserved | kd k => rfl
  | _ => cases h

theorem lockedWhileBusy_readOnly {loc : Loc} (h : readOnly loc = true) : lockedWhileBusy loc = false := by
  cases loc with
  | id | status | cap | reserved | kd k => rfl
  | _ => cases h

theorem readOnly_locate {offset : Nat} (h4 : offset % 4 = 0)
    (h : offset = 0x000 ∨ offset = 0x00C ∨ offset = 0x018 ∨ offset = 0x01C ∨ (0x0E0 ≤ offset ∧ offset < 0x1000)) :
    readOnly (locate offset) = true := by
  by_cases h1 : offset < 0x100
  · exact forall_register_word
      (p := fun offset => (offset = 0x000 ∨ offset = 0x00C ∨ offset = 0x018 ∨ offset = 0x01C ∨
        (0x0E0 ≤ offset ∧ offset < 0x1000)) → readOnly (locate offset) = true) (by decide) h1 h4 h
  · rw [locate_reserved (by omega) (by omega)]
    rfl

theorem lockedWhileBusy_locate {offset : Nat} (h4 : offset % 4 = 0)
    (h : offset = 0x004 ∨ offset = 0x008 ∨ (0x020 ≤ offset ∧ offset < 0x0E0) ∨ 0x1000 ≤ offset) :
    lockedWhileBusy (locate offset) = true := by
  by_cases h1 : offset < 0x1000
  · exact (lockedWhileBusy_register (by omega) h4).mpr (by omega)
  · obtain ⟨a, rfl⟩ : ∃ a, offset = 0x1000 + a := ⟨offset - 0x1000, by omega⟩
    rw [locate_dbuf]
    rfl

/-- Settles O8: each offset of the window names a locked word, one of the two interrupt registers, or a word that no
write changes. -/
theorem hostWritesWhileBusy : Obligations.HostWritesWhileBusy := by
  intro s offset w rest he h4 hin
  refine ⟨fun hb h => ?locked, ?status, ?enable, fun h => ?readOnly⟩
  case locked => exact step_write_locked he h4 hin hb (lockedWhileBusy_locate h4 h)
  case status =>
    rintro rfl
    exact step_write_open (loc := .irqStatus) he h4 (by decide) rfl rfl
  case enable =>
    rintro rfl
    exact step_write_open (loc := .irqEnable) he h4 (by decide) rfl rfl
  case readOnly =>
    have ro := readOnly_locate h4 h
    rw [step_write_open he h4 (by omega) rfl (lockedWhileBusy_readOnly ro), storeWord_readOnly ro]

/-! ### A register by its words (R21, R67) -/

/-- A register is determined by its words. -/
theorem eq_of_wordOf {m : Nat} {x y : BitVec (32 * m)} (h : ∀ k < m, wordOf x k = wordOf y k) : x = y := by
  apply BitVec.eq_of_getLsbD_eq
  intro i hi
  have bit := congrArg (fun w : Word => w.getLsbD (i % 32)) (h (m - 1 - i / 32) (by omega))
  simp only [wordOf, BitVec.getLsbD_extractLsb', Nat.mod_lt i (show 0 < 32 by decide), decide_true, Bool.true_and] at bit
  rwa [show 32 * m - 32 * (m - 1 - i / 32 + 1) + i % 32 = i by omega] at bit

/-- The last word of a register with one word appended is that word. -/
theorem wordOf_append_last {m : Nat} (x : BitVec (32 * m)) (w : Word) : wordOf (x ++ w) m = w := by
  apply BitVec.eq_of_getLsbD_eq
  intro i hi
  simp [wordOf, BitVec.getLsbD_append, hi, show 32 * m + 32 - 32 * (m + 1) = 0 by omega]

/-- Every other word of it is that of the register. -/
theorem wordOf_append_of_lt {m k : Nat} (hk : k < m) (x : BitVec (32 * m)) (w : Word) :
    wordOf (x ++ w) k = wordOf x k := by
  apply BitVec.eq_of_getLsbD_eq
  intro i hi
  simp only [wordOf, BitVec.getLsbD_extractLsb', BitVec.getLsbD_append]
  rw [if_neg (by omega), show 32 * m + 32 - 32 * (k + 1) + i - 32 = 32 * m - 32 * (k + 1) + i by omega]

/-- The register with its words from word `j` on replaced, one after the other. -/
def setWords {n : Nat} (r : BitVec n) : Nat → List Word → BitVec n
  | _, [] => r
  | j, w :: ws => setWords (setWordOf r j w) (j + 1) ws

theorem wordOf_setWords_before {m : Nat} (r : BitVec (32 * m)) {j k : Nat} {ws : List Word}
    (hfit : j + ws.length ≤ m) (hk : k < j) : wordOf (setWords r j ws) k = wordOf r k := by
  induction ws generalizing r j with
  | nil => rfl
  | cons w ws ih =>
    rw [List.length_cons] at hfit
    rw [setWords, ih _ (by omega) (by omega), wordOf_setWordOf_other (by omega) (by omega) (by omega)]

theorem wordOf_setWords {m : Nat} (r : BitVec (32 * m)) {j i : Nat} {ws : List Word} (hfit : j + ws.length ≤ m)
    (hi : i < ws.length) : wordOf (setWords r j ws) (j + i) = ws[i] := by
  induction ws generalizing r j i with
  | nil => nomatch hi
  | cons w ws ih =>
    rw [List.length_cons] at hfit
    rw [setWords]
    cases i with
    | zero =>
      rw [wordOf_setWords_before _ (by omega) (by omega)]
      exact wordOf_setWordOf_same (by omega) r w
    | succ i =>
      rw [show j + (i + 1) = j + 1 + i by omega]
      exact ih _ (by omega) (Nat.lt_of_succ_lt_succ hi)

/-- Once every word is replaced, the register is its words one after the other, word 0 in the top bits. -/
theorem setWords_append {m : Nat} {ws : List Word} (hm : ws.length = m) {r x : BitVec (32 * m)}
    (hx : setWords r 0 ws = x) (r' : BitVec (32 * (m + 1))) (w : Word) : setWords r' 0 (ws ++ [w]) = x ++ w := by
  subst hx
  refine eq_of_wordOf (m := m + 1) fun k hk => ?_
  have left := wordOf_setWords r' (j := 0) (i := k) (ws := ws ++ [w]) (by simp; omega) (by simp; omega)
  rw [Nat.zero_add] at left
  rw [left]
  by_cases hlast : k < m
  · have right := wordOf_setWords r (j := 0) (i := k) (ws := ws) (by omega) (by omega)
    rw [Nat.zero_add] at right
    rw [List.getElem_append_left (by omega), ← right]
    exact (wordOf_append_of_lt hlast _ w).symm
  · obtain rfl : k = m := by omega
    subst hm
    rw [List.getElem_append_right (Nat.le_refl _)]
    simpa using (wordOf_append_last (setWords r 0 ws) w).symm

theorem setWords_one (r : BitVec (32 * 1)) (w : Word) : setWords r 0 [w] = w := by
  refine eq_of_wordOf (m := 1) fun k hk => ?_
  obtain rfl : k = 0 := by omega
  exact (wordOf_setWordOf_same (by decide) r w).trans (by simp [wordOf])

theorem setWords_four (r : Block) (w0 w1 w2 w3 : Word) :
    setWords r 0 [w0, w1, w2, w3] = (w0 ++ w1 ++ w2 ++ w3 : BitVec (32 + 32 + 32 + 32)) := by
  have two := setWords_append (m := 1) rfl (setWords_one 0 w0) 0 w1
  have three := setWords_append (m := 2) rfl two 0 w2
  exact setWords_append (m := 3) rfl three r w3

theorem setWords_eight (r : Key) (w0 w1 w2 w3 w4 w5 w6 w7 : Word) :
    setWords r 0 [w0, w1, w2, w3, w4, w5, w6, w7] =
      (w0 ++ w1 ++ w2 ++ w3 ++ w4 ++ w5 ++ w6 ++ w7 : BitVec (32 + 32 + 32 + 32 + 32 + 32 + 32 + 32)) := by
  have five := setWords_append (m := 4) rfl (setWords_four 0 w0 w1 w2 w3) 0 w4
  have six := setWords_append (m := 5) rfl five 0 w5
  have seven := setWords_append (m := 6) rfl six 0 w6
  exact setWords_append (m := 7) rfl seven r w7

/-! ### The registers that the host writes word by word -/

/-- A register of `m` words in the window, given by how it is read from the state and put into it. -/
structure WordRegister (m : Nat) where
  base : Nat
  get : State → BitVec (32 * m)
  set : State → BitVec (32 * m) → State
  loc : Fin m → Loc
  inside : base % 4 = 0 ∧ base + 4 * m ≤ 0x1000 := by decide
  locate_eq : ∀ k : Fin m, locate (base + 4 * k.val) = loc k
  store : ∀ (s : State) (k : Fin m) (w : Word), storeWord s (loc k) w = set s (setWordOf (get s) k w) := by intros; rfl
  get_set : ∀ (s : State) (v : BitVec (32 * m)), get (set s v) = v := by intros; rfl
  set_get : ∀ s : State, set s (get s) = s := by intros; rfl
  set_set : ∀ (s : State) (v v' : BitVec (32 * m)), set (set s v) v' = set s v' := by intros; rfl
  frame : ∀ (s : State) (v : BitVec (32 * m)) (es : List Event) (r : BusReply),
    ({ set s v with events := es, reply := r } : State) = set { s with events := es, reply := r } v := by intros; rfl
  frame_reply : ∀ (s : State) (v : BitVec (32 * m)) (r : BusReply),
    ({ set s v with reply := r } : State) = set { s with reply := r } v := by intros; rfl
  get_frame : ∀ (s : State) (es : List Event) (r : BusReply), get { s with events := es, reply := r } = get s := by
    intros; rfl
  status_set : ∀ (s : State) (v : BitVec (32 * m)), (set s v).status = s.status := by intros; rfl

namespace WordRegister

def nonce : WordRegister 4 where
  base := 0x060
  get := State.nonce
  set := fun s v => { s with nonce := v }
  loc := .nonce
  locate_eq := locate_nonce

def tag : WordRegister 4 where
  base := 0x070
  get := State.tag
  set := fun s v => { s with tag := v }
  loc := .tag
  locate_eq := locate_tag

def tagin : WordRegister 4 where
  base := 0x080
  get := State.tagin
  set := fun s v => { s with tagin := v }
  loc := .tagin
  locate_eq := locate_tagin

def gfa : WordRegister 4 where
  base := 0x090
  get := State.gfa
  set := fun s v => { s with gfa := v }
  loc := .gfa
  locate_eq := locate_gfa

def gfb : WordRegister 4 where
  base := 0x0A0
  get := State.gfb
  set := fun s v => { s with gfb := v }
  loc := .gfb
  locate_eq := locate_gfb

def gfz : WordRegister 4 where
  base := 0x0B0
  get := State.gfz
  set := fun s v => { s with gfz := v }
  loc := .gfz
  locate_eq := locate_gfz

def cnt : WordRegister 4 where
  base := 0x0C0
  get := State.cnt
  set := fun s v => { s with cnt := v }
  loc := .cnt
  locate_eq := locate_cnt

def blk : WordRegister 4 where
  base := 0x0D0
  get := State.blk
  set := fun s v => { s with blk := v }
  loc := .blk
  locate_eq := locate_blk

def key : WordRegister 8 where
  base := 0x040
  get := State.key
  set := fun s v => { s with key := v }
  loc := .key
  locate_eq := locate_key

section
variable {m : Nat} (R : WordRegister m) {s : State} (hb : s.status.busy = false)
include hb

/-- The step that serves a write of one word while no command runs. -/
theorem step_write {k : Nat} (hk : k < m) {w : Word} {rest : List Event}
    (he : s.events = .access (.write 32 (R.base + 4 * k) w) :: rest) :
    step s = .next (R.set { s with events := rest, reply := .ack } (setWordOf (R.get s) k w)) := by
  have := R.inside
  rw [step_write_idle he (by omega) hb (by omega) (R.locate_eq ⟨k, hk⟩), R.store, R.get_frame]
  exact congrArg _ (R.frame_reply _ _ .ack)

/-- One word is written and every other one kept. -/
theorem step_write_word (k : Fin m) (w : Word) : ∃ v : BitVec (32 * m),
    step { s with events := [.access (.write 32 (R.base + 4 * k.val) w)] } =
      .next (R.set { s with events := [], reply := .ack } v) ∧
    wordOf v k = w ∧ ∀ j : Fin m, j ≠ k → wordOf v j = wordOf (R.get s) j := by
  refine ⟨setWordOf (R.get s) k w, ?step, wordOf_setWordOf_same (by omega) _ w, fun j hj => ?other⟩
  case step =>
    have served := R.step_write (s := { s with events := [.access (.write 32 (R.base + 4 * k.val) w)] }) hb k.isLt rfl
    rwa [show R.get { s with events := [.access (.write 32 (R.base + 4 * k.val) w)] } = R.get s from
      R.get_frame s _ s.reply] at served
  case other => exact wordOf_setWordOf_other (by omega) (by omega) (fun h => hj (Fin.ext h)) _ w

end

/-- The host's writes of the words of a register, from word `j` on. -/
def writes (base : Nat) : Nat → List Word → List Event
  | _, [] => []
  | j, w :: ws => .access (.write 32 (base + 4 * j) w) :: writes base (j + 1) ws

theorem run_writes {m : Nat} (R : WordRegister m) {s : State} (hb : s.status.busy = false) {j : Nat} {ws : List Word}
    (hfit : j + ws.length ≤ m) :
    core.run ws.length { s with events := writes R.base j ws, reply := .ack } =
      .next (R.set { s with events := [], reply := .ack } (setWords (R.get s) j ws)) := by
  induction ws generalizing s j with
  | nil =>
    have same := R.set_get { s with events := [], reply := .ack }
    rw [R.get_frame] at same
    exact congrArg _ same.symm
  | cons w ws ih =>
    rw [List.length_cons] at hfit
    have served := R.step_write (s := { s with events := writes R.base j (w :: ws), reply := .ack }) hb (k := j)
      (by omega) rfl
    rw [List.length_cons, core_run_succ served, R.get_frame]
    have rest := ih (s := R.set { s with events := writes R.base (j + 1) ws, reply := .ack } (setWordOf (R.get s) j w))
      (j := j + 1) (by rw [R.status_set]; exact hb) (by omega)
    rw [R.frame, R.frame, R.set_set, R.get_set] at rest
    exact rest

/-- The two ways in which the host writes a block register while no command runs: one word, or its four words in order. -/
theorem block_written (R : WordRegister 4) {s : State} (hb : s.status.busy = false) :
    (∀ (k : Fin 4) (w : Word), ∃ v : Block,
      step { s with events := [.access (.write 32 (R.base + 4 * k.val) w)] } =
        .next (R.set { s with events := [], reply := .ack } v) ∧
      v.extractLsb' (96 - 32 * k.val) 32 = w ∧
      ∀ j : Fin 4, j ≠ k → v.extractLsb' (96 - 32 * j.val) 32 = (R.get s : Block).extractLsb' (96 - 32 * j.val) 32) ∧
    ∀ w0 w1 w2 w3 : Word, core.run 4
      { s with
        events := [.access (.write 32 R.base w0), .access (.write 32 (R.base + 4) w1),
          .access (.write 32 (R.base + 8) w2), .access (.write 32 (R.base + 12) w3)] } =
      .next (R.set { s with events := [], reply := .ack } (w0 ++ w1 ++ w2 ++ w3 : BitVec (32 + 32 + 32 + 32))) := by
  have place : ∀ k : Fin 4, 96 - 32 * k.val = 32 * 4 - 32 * (k.val + 1) := fun k => by omega
  refine ⟨fun k w => ?_, fun w0 w1 w2 w3 => ?_⟩
  · simp only [place]
    exact R.step_write_word hb k w
  · rw [← setWords_four (R.get s)]
    exact R.run_writes (ws := [w0, w1, w2, w3]) hb (Nat.le_refl _)

end WordRegister

theorem step_ctrlWrite_idle {s : State} {w : Word} {rest : List Event}
    (he : s.events = .access (.write 32 0x004 w) :: rest) (hb : s.status.busy = false) :
    step s = .next { s with events := rest, reply := .ack, ctrl := Ctrl.ofWord w } :=
  step_write_idle (loc := .ctrl) he (by decide) hb (by decide) rfl

theorem step_argWrite_idle {s : State} {i : Fin 8} {w : Word} {rest : List Event}
    (he : s.events = .access (.write 32 (0x020 + 4 * i.val) w) :: rest) (hb : s.status.busy = false) :
    step s = .next { s with events := rest, reply := .ack, args := s.args.set i.val w i.isLt } :=
  step_write_idle (loc := .arg i) he (by omega) hb (by omega) (locate_arg i)

/-- Settles O9: each write is stored at the word its offset names; a register of several words is set word by word. -/
theorem hostWritesLandInTheirRegister : Obligations.HostWritesLandInTheirRegister := by
  intro s hb
  refine ⟨fun w => ?ctrl, fun i w => ?arg, ?blocks, ?keyWord, fun w => ?keyWords⟩
  case ctrl => exact step_ctrlWrite_idle rfl hb
  case arg =>
    refine ⟨_, step_argWrite_idle rfl hb, rfl, ?_, fun j hj => ?_⟩
    · simp [State.arg, Vector.get_eq_getElem]
    · have other : i.val ≠ j.val := fun h => hj (Fin.ext h.symm)
      simp [State.arg, Vector.get_eq_getElem, Vector.getElem_set_ne _ _ other]
  case blocks =>
    simp only [List.forall_mem_cons, List.not_mem_nil, false_imp_iff, implies_true, and_true]
    exact ⟨WordRegister.nonce.block_written hb, WordRegister.tag.block_written hb,
      WordRegister.tagin.block_written hb, WordRegister.gfa.block_written hb, WordRegister.gfb.block_written hb,
      WordRegister.gfz.block_written hb, WordRegister.cnt.block_written hb, WordRegister.blk.block_written hb⟩
  case keyWord =>
    have place : ∀ k : Fin 8, 224 - 32 * k.val = 32 * 8 - 32 * (k.val + 1) := fun k => by omega
    simp only [place]
    exact WordRegister.key.step_write_word hb
  case keyWords =>
    rw [← setWords_eight s.key]
    exact WordRegister.key.run_writes (ws := [w 0, w 1, w 2, w 3, w 4, w 5, w 6, w 7]) hb (Nat.le_refl _)

end Sys2Proof.Machine
end

section
/-! PROOFS. Host reads, and the accesses that are served (R22–R41, R61, R64, R65, R223, R258). -/

namespace Sys2Proof.Machine

/-! ### Which accesses are served (R61, R64, R223) -/

/-- Settles O15: the offset is looked at first, then the shape of the access, and every other access is served. -/
theorem onlyAlignedWordsInTheWindowAreServed : Obligations.OnlyAlignedWordsInTheWindowAreServed := by
  intro s a rest he
  refine ⟨fun hout => ?outside, fun hin hbad => ?malformed, fun hin hw h4 => ?served⟩
  case outside => rw [step_cons he, handle_access, serve_outside hout]
  case malformed => rw [step_cons he, handle_access, serve_busError hin hbad]
  case served => exact ⟨_, step_access he ⟨hw, h4, hin⟩, applyAccess_events _ _ _⟩

/-! ### A read of a word (R65, R258) -/

section
variable {s : State} {offset : Nat} {rest : List Event} (he : s.events = .access (.read 32 offset) :: rest)
  (h4 : offset % 4 = 0) (hin : offset < 0x1000 + Config.engine.dbufSize)
include he h4 hin

theorem step_read :
    step s = .next (hostRead Config.engine { s with events := rest, reply := .none } (locate offset)) :=
  step_access he ⟨rfl, h4, hin⟩

/-- A read that does not race returns the current value (R258). -/
theorem step_read_calm (hc : readRaces s (locate offset) = false) :
    step s = .next { s with events := rest, reply := .data (currentWord Config.engine s (locate offset)) } := by
  rw [step_read he h4 hin, hostRead_calm (s := { s with events := rest, reply := .none }) hc]
  cases locate offset <;> rfl

/-- A read that races returns the next unspecified value (R258; log entry 5). -/
theorem step_read_race (hr : readRaces s (locate offset) = true) :
    step s = .next { s with events := rest, reply := .data (Config.raceWord s.tick), tick := s.tick + 1 } := by
  have races : readRaces { s with events := rest, reply := .none } (locate offset) = true := hr
  rw [step_read he h4 hin, hostRead, if_pos races]
  rfl

end

/-- Settles O12: a read returns the current value or a free one, and only a free one advances the count. -/
theorem hostReadsHaveNoSideEffect : Obligations.HostReadsHaveNoSideEffect := by
  intro s offset rest he h4 hin
  cases hr : readRaces s (locate offset) with
  | false => exact ⟨_, s.tick, step_read_calm he h4 hin hr, fun _ => rfl⟩
  | true =>
    refine ⟨_, _, step_read_race he h4 hin hr, fun hidle => ?_⟩
    rw [readRaces_idle hidle] at hr
    exact absurd hr (by decide)

/-- A word that no running command is to write, or a word of KEY, does not race (R31, R258). -/
theorem readRaces_eq_false {s : State} {offset : Nat} (h4 : offset % 4 = 0)
    (h : s.status.busy = true → ∀ i, decode s.pcmd = .ok i →
      ¬ wordWritten i s offset ∨ (0x040 ≤ offset ∧ offset < 0x060)) :
    readRaces s (locate offset) = false := by
  cases hb : s.status.busy with
  | false => exact readRaces_idle hb _
  | true =>
    cases hd : decode s.pcmd with
    | error e => exact readRaces_illegal hd _
    | ok i =>
      rw [← Bool.not_eq_true, readRaces_iff hb hd h4]
      have := h hb i hd
      tauto

theorem currentWord_key (P : Params) (s : State) {offset : Nat} (h4 : offset % 4 = 0)
    (hkey : 0x040 ≤ offset ∧ offset < 0x060) : currentWord P s (locate offset) = 0#32 := by
  obtain ⟨i, rfl⟩ : ∃ i : Fin 8, offset = 0x040 + 4 * i.val :=
    ⟨⟨(offset - 0x040) / 4, by omega⟩, by simp only; omega⟩
  rw [locate_key]
  rfl

/-- Settles O13: a read races exactly on the words of the write set but KEY, which reads 0. -/
theorem readsOfThePendingWriteSetRace : Obligations.ReadsOfThePendingWriteSetRace := by
  intro s i offset rest he h4 hin hb hd
  refine ⟨fun hw hkey => ?race, fun hw => ?current, fun hlo hhi => ?key⟩
  case race => exact step_read_race he h4 hin ((readRaces_iff hb hd h4).mpr ⟨hw, hkey⟩)
  case current =>
    refine step_read_calm he h4 hin (Bool.eq_false_iff.mpr fun hr => hw ?_)
    exact ((readRaces_iff hb hd h4).mp hr).1
  case key =>
    have calm := readRaces_eq_false (s := s) h4 fun _ _ _ => .inr ⟨hlo, hhi⟩
    rw [step_read_calm he h4 hin calm, currentWord_key _ _ h4 ⟨hlo, hhi⟩]

/-! ### The values of the register words (R22–R41) -/

theorem toNat_append_add {m n : Nat} (x : BitVec m) (y : BitVec n) :
    (x ++ y).toNat = x.toNat * 2 ^ n + y.toNat := by
  rw [BitVec.toNat_append, ← Nat.shiftLeft_add_eq_or_of_lt y.isLt, Nat.shiftLeft_eq]

theorem toNat_ctrl_toWord (c : Ctrl) : c.toWord.toNat = c.bs.toNat + 256 * c.tagsize.toNat := by
  simp only [Ctrl.toWord, toNat_append_add, BitVec.toNat_ofNat]
  omega

theorem toNat_status_toWord (t : Status) :
    t.toWord.toNat = t.busy.toNat + 2 * t.done.toNat + 4 * t.err.toNat + 8 * t.authOk.toNat + 16 * t.wign.toNat +
      256 * t.errcode.toNat := by
  simp only [Status.toWord, toNat_append_add, BitVec.toNat_ofNat, BitVec.toNat_ofBool]
  omega

theorem toNat_irqStatus_toWord (q : IrqStatus) : q.toWord.toNat = q.cmpl.toNat + 2 * q.erri.toNat := by
  simp only [IrqStatus.toWord, toNat_append_add, BitVec.toNat_ofNat, BitVec.toNat_ofBool]
  omega

theorem toNat_irqEnable_toWord (e : IrqEnable) : e.toWord.toNat = e.cmple.toNat + 2 * e.erre.toNat := by
  simp only [IrqEnable.toWord, toNat_append_add, BitVec.toNat_ofNat, BitVec.toNat_ofBool]
  omega

/-- Settles O14: the invariant leaves BUSY and WIGN as the only flags that can be set. -/
theorem statusReadsWhileBusy : Obligations.StatusReadsWhileBusy := by
  intro s rest he hb hinv
  obtain ⟨-, -, hbusy, -⟩ := hinv
  obtain ⟨done, err, authOk, errcode⟩ := hbusy hb
  have hloc : locate 0x00C = .status := rfl
  have calm : readRaces s (locate 0x00C) = false := by
    refine Bool.eq_false_iff.mpr fun hr => ?_
    cases hd : decode s.pcmd with
    | error e => rw [readRaces_illegal hd] at hr; exact absurd hr (by decide)
    | ok i =>
      have written := (writeSet_iff i s (by decide)).mpr ((readRaces_iff hb hd (by decide)).mp hr).1
      rw [hloc] at written
      cases i <;> cases written
  have value : s.status.toWord = if s.status.wign then 0x00000011#32 else 0x00000001#32 := by
    apply BitVec.eq_of_toNat_eq
    rw [toNat_status_toWord, hb, done, err, authOk, errcode]
    cases s.status.wign <;> rfl
  rw [step_read_calm he (by decide) (by omega) calm, hloc, ← value]
  rfl

/-- The word `k` of a block register at its place in the window (R21, R22). -/
theorem currentWord_block (P : Params) (s : State) (k : Fin 4) :
    ∀ r ∈ [(0x060, s.nonce), (0x070, s.tag), (0x080, s.tagin), (0x090, s.gfa), (0x0A0, s.gfb), (0x0B0, s.gfz),
        (0x0C0, s.cnt), (0x0D0, s.blk)],
      r.1 % 4 = 0 ∧ r.1 + 16 ≤ 0x1000 ∧
        currentWord P s (locate (r.1 + 4 * k.val)) = r.2.extractLsb' (96 - 32 * k.val) 32 := by
  have place : 96 - 32 * k.val = 128 - 32 * (k.val + 1) := by omega
  rw [place]
  simp only [List.forall_mem_cons, List.not_mem_nil, false_imp_iff, implies_true, and_true]
  exact ⟨⟨trivial, by decide, congrArg _ (locate_nonce k)⟩, ⟨trivial, by decide, congrArg _ (locate_tag k)⟩,
    ⟨trivial, by decide, congrArg _ (locate_tagin k)⟩, ⟨trivial, by decide, congrArg _ (locate_gfa k)⟩,
    ⟨trivial, by decide, congrArg _ (locate_gfb k)⟩, ⟨trivial, by decide, congrArg _ (locate_gfz k)⟩,
    ⟨trivial, by decide, congrArg _ (locate_cnt k)⟩, ⟨trivial, by decide, congrArg _ (locate_blk k)⟩⟩

/-- Settles O10: none of these reads races, and the current value of each word is the one stated. -/
theorem registerMapReads : Obligations.RegisterMapReads := by
  intro s offset v hcalm hv
  suffices value : offset % 4 = 0 ∧ offset < 0x1000 ∧ currentWord Config.engine s (locate offset) = v by
    obtain ⟨h4, hreg, rfl⟩ := value
    exact step_read_calm (s := { s with events := [.access (.read 32 offset)] }) rfl h4 (by omega)
      (readRaces_eq_false h4 hcalm)
  rcases hv with ⟨rfl, rfl⟩ | ⟨rfl, hv⟩ | ⟨rfl, rfl⟩ | ⟨rfl, hv⟩ | ⟨rfl, hv⟩ | ⟨rfl, hv⟩ | ⟨rfl, hv⟩ | ⟨rfl, rfl⟩ |
    ⟨i, rfl, hv⟩ | ⟨i, rfl, rfl⟩ | ⟨k, r, hr, rfl, rfl⟩ | ⟨i, rfl, rfl⟩ | ⟨hlo, hhi, h4, rfl⟩
  · exact ⟨rfl, by decide, rfl⟩
  · exact ⟨rfl, by decide, BitVec.eq_of_toNat_eq ((toNat_ctrl_toWord _).trans hv.symm)⟩
  · exact ⟨rfl, by decide, rfl⟩
  · exact ⟨rfl, by decide, BitVec.eq_of_toNat_eq ((toNat_status_toWord _).trans hv.symm)⟩
  · exact ⟨rfl, by decide, BitVec.eq_of_toNat_eq ((toNat_irqStatus_toWord _).trans hv.symm)⟩
  · exact ⟨rfl, by decide, BitVec.eq_of_toNat_eq ((toNat_irqEnable_toWord _).trans hv.symm)⟩
  · exact ⟨rfl, by decide, (congrArg (BitVec.ofNat 32) hv.symm).trans (by simp)⟩
  · exact ⟨rfl, by decide, rfl⟩
  · exact ⟨by omega, by omega, (congrArg _ (locate_arg i)).trans (BitVec.eq_of_toNat_eq hv.symm)⟩
  · exact ⟨by omega, by omega, congrArg _ (locate_key i)⟩
  · obtain ⟨h4, hreg, value⟩ := currentWord_block Config.engine s k r hr
    exact ⟨by omega, by omega, value⟩
  · refine ⟨by omega, by omega, (congrArg _ (locate_kd i)).trans ?_⟩
    have place : 224 - 32 * i.val = 256 - 32 * (i.val + 1) := by omega
    rw [place]
    rfl
  · exact ⟨h4, hhi, congrArg _ (locate_reserved hlo hhi)⟩

/-! ### KEY cannot be read (R31, R231) -/

theorem currentWord_withKey (P : Params) (s : State) (k : Key) (loc : Loc) :
    currentWord P { s with key := k } loc = currentWord P s loc := by
  cases loc <;> rfl

theorem storeWord_withKey (s : State) (k : Key) (loc : Loc) (w : Word) :
    ∃ k', storeWord { s with key := k } loc w = { storeWord s loc w with key := k' } := by
  cases loc <;> exact ⟨_, rfl⟩

theorem hostWrite_withKey (s : State) (k : Key) (loc : Loc) (w : Word) :
    ∃ k', hostWrite { s with key := k } loc w = { hostWrite s loc w with key := k' } := by
  unfold hostWrite
  split
  · exact ⟨k, rfl⟩
  · exact storeWord_withKey s k loc w

theorem hostRead_withKey (P : Params) (s : State) (k : Key) (loc : Loc) :
    hostRead P { s with key := k } loc = { hostRead P s loc with key := k } := by
  have races : readRaces { s with key := k } loc = readRaces s loc := by
    simp only [readRaces]
    cases decode s.pcmd with
    | error e => rfl
    | ok i => cases i <;> rfl
  simp only [hostRead, races, currentWord_withKey]
  split <;> rfl

/-- An access to a state with another KEY differs in KEY alone. -/
theorem applyAccess_withKey (P : Params) (s : State) (k : Key) (a : Access) :
    ∃ k', applyAccess P { s with key := k } a = { applyAccess P s a with key := k' } := by
  cases a with
  | read width offset => exact ⟨k, hostRead_withKey P s k (locate offset)⟩
  | write width offset w =>
    obtain ⟨k', h⟩ := hostWrite_withKey s k (locate offset) w
    exact ⟨k', by rw [applyAccess, applyAccess, h]⟩

/-- Settles O16: the two accesses leave states that differ in KEY alone, and no word of the window shows KEY. -/
theorem keyIsNotReadableByTheHost : Obligations.KeyIsNotReadableByTheHost := by
  intro s k a rest he ha
  obtain ⟨k', hk⟩ := applyAccess_withKey Config.engine { s with events := rest, reply := .none } k a
  refine ⟨_, _, step_access he ha, step_access (s := { s with key := k }) he ha, ?_, fun loc => ?_⟩
  · rw [hk]
  · rw [hk]
    exact (currentWord_withKey _ _ k' loc).symm

end Sys2Proof.Machine
end

section
/-! PROOFS. The reset state and its reset column (R22, R250–R252). -/

namespace Sys2Proof.Machine

/-- Settles O18: the reset input replaces every register by its reset value and empties the list of DBUF. -/
theorem resetInputRestoresTheResetState : Obligations.ResetInputRestoresTheResetState := by
  intro s rest he
  have args : ∀ i, State.reset.arg i = 0 := by decide
  exact ⟨_, step_reset he, rfl, rfl, rfl, rfl, rfl, rfl, args, rfl, rfl, rfl, rfl, rfl, rfl, rfl, rfl, rfl, rfl,
    fun a => rfl⟩

/-- Every register word is 0 after reset but for ID, CTRL and CAP (R22). -/
theorem currentWord_reset (P : Params) {loc : Loc} (hd : isDbufWord loc = false) (hid : loc ≠ .id)
    (hctrl : loc ≠ .ctrl) (hcap : loc ≠ .cap) : currentWord P State.reset loc = 0#32 := by
  cases loc with
  | dbuf a => cases hd
  | id => exact absurd rfl hid
  | ctrl => exact absurd rfl hctrl
  | cap => exact absurd rfl hcap
  | arg i => exact (show ∀ i, State.reset.args.get i = 0#32 by decide) i
  | _ => simp [currentWord, State.reset, wordOf, Status.toWord, IrqStatus.toWord, IrqEnable.toWord]

/-- The offsets of the three registers with another reset value. -/
theorem locate_id_ctrl_cap {offset : Nat} (hreg : offset < 0x1000) (h4 : offset % 4 = 0) :
    (locate offset = .id → offset = 0x000) ∧ (locate offset = .ctrl → offset = 0x004) ∧
      (locate offset = .cap → offset = 0x018) := by
  by_cases h : offset < 0x100
  · exact forall_register_word
      (p := fun offset => (locate offset = .id → offset = 0x000) ∧ (locate offset = .ctrl → offset = 0x004) ∧
        (locate offset = .cap → offset = 0x018)) (by decide) h h4
  · rw [locate_reserved (by omega) hreg]
    exact ⟨nofun, nofun, nofun⟩

theorem currentWord_reset_register (P : Params) {offset : Nat} (hreg : offset < 0x1000) (h4 : offset % 4 = 0) :
    currentWord P State.reset (locate offset) =
      if offset = 0x000 then 0x34130001#32
      else if offset = 0x004 then 0x00000010#32
      else if offset = 0x018 then BitVec.ofNat 32 P.dbufSize
      else 0#32 := by
  split
  case isTrue h => subst h; rfl
  split
  case isTrue h => subst h; rfl
  split
  case isTrue h => subst h; rfl
  next hid hctrl hcap =>
    have register : isDbufWord (locate offset) = false := by
      rw [locate_register hreg]
      exact isDbufWord_registerAt offset
    obtain ⟨id, ctrl, cap⟩ := locate_id_ctrl_cap hreg h4
    exact currentWord_reset P register (mt id hid) (mt ctrl hctrl) (mt cap hcap)

/-- Settles O19: the engine is idle, so each read returns the current value of its word. -/
theorem resetColumnOfTheRegisterMap : Obligations.ResetColumnOfTheRegisterMap := by
  intro offset hreg h4
  rw [← currentWord_reset_register Config.engine hreg h4]
  exact step_read_calm (s := { State.reset with events := [.access (.read 32 offset)] }) rfl h4 (by omega)
    (readRaces_idle rfl _)

end Sys2Proof.Machine
end

section
/-! PROOFS. The checks of the commands, in the order of R222 (R104–R107, R110, R155, R156, R196, R197). -/

namespace Sys2Proof.Machine

/-! ### BSCHECK and TAGCHECK (R104, R105) -/

/-- Settles O29: each of the ten commands begins with BSCHECK. -/
theorem illegalBlockSizeIsReportedFirst : Obligations.IllegalBlockSizeIsReportedFirst := by
  intro s h8 h16
  have illegal : s.ctrl.bs.toNat ∉ [8, 16] := by simp [h8, h16]
  simp only [List.forall_mem_cons, List.not_mem_nil, false_imp_iff, implies_true, and_true]
  and_intros <;> exact exec_of_illegal_blockSize rfl illegal

/-- A command that goes on with TAGCHECK reports an illegal tag size. -/
theorem exec_of_illegal_tagSize {i : Instr} {s : State} {b : BlockSize} {rest : BlockSize → Nat → Result}
    (hr : commandResult Config.engine i s = withBlockSize s.ctrl fun b => withTagSize s.ctrl b (rest b))
    (hb : s.hasBlockSize b) (hT : ¬ ∃ T, s.hasTagSize b T) : exec i s = .next (s.fail 3#4) := by
  rw [exec_of_blockSize hr hb, withTagSize_illegal hT]
  rfl

/-- A command that goes on with TAGCHECK continues with the legal tag size it finds. -/
theorem exec_of_tagSize {i : Instr} {s : State} {b : BlockSize} {T : Nat} {rest : BlockSize → Nat → Result}
    (hr : commandResult Config.engine i s = withBlockSize s.ctrl fun b => withTagSize s.ctrl b (rest b))
    (hb : s.hasBlockSize b) (hT : s.hasTagSize b T) : exec i s = .next (finish s (rest b T)) := by
  rw [exec_of_blockSize hr hb, withTagSize_of hT]

/-- Settles O30: each of the three commands goes on with TAGCHECK. -/
theorem illegalTagSizeIsReportedNext : Obligations.IllegalTagSizeIsReportedNext := by
  intro s b hb hne hT
  have illegal : ¬ ∃ T, s.hasTagSize b T := by
    rintro ⟨T, rfl, hlo, hhi⟩
    rw [if_neg hne] at hlo hhi
    omega
  simp only [List.forall_mem_cons, List.not_mem_nil, false_imp_iff, implies_true, and_true]
  and_intros <;> exact exec_of_illegal_tagSize rfl hb illegal

/-! ### A chain of checks -/

theorem require_of {cond : Bool} {p : Prop} (hp : cond = true ↔ p) (h : p) (c : ErrCode) (rest : Unit → Result) :
    require cond c rest = rest () := by
  rw [hp.mpr h, require_true]

theorem require_not {cond : Bool} {p : Prop} (hp : cond = true ↔ p) (h : ¬ p) (c : ErrCode) (rest : Unit → Result) :
    require cond c rest = .err c := by
  rw [Bool.eq_false_iff.mpr fun hc => h (hp.mp hc), require_false]

/-- SIZE of MGM, for a text of `n` octets in all (R110). -/
theorem sizeCheck_iff (b : BlockSize) (n : Nat) :
    (decide (1 ≤ n) && decide (n ≤ maxSize b)) = true ↔ 0 < n ∧ n ≤ 2 ^ (4 * blockOctets b) - 1 := by
  rw [Bool.and_eq_true, decide_eq_true_iff, decide_eq_true_iff]
  rfl

/-- SIZE of the ACPKM streams: the length limit holds of any argument word (R119, R155). -/
theorem sectionCheck_iff (s : State) (b : BlockSize) :
    (decide (1 ≤ s.arg 3) && s.arg 3 % blockOctets b == 0 && decide (s.arg 1 ≤ ctrMax b)) = true ↔
      0 < s.arg 3 ∧ s.arg 3 % blockOctets b = 0 := by
  simp only [Bool.and_eq_true, decide_eq_true_iff, beq_iff_eq, arg_le_ctrMax, and_true]
  rfl

theorem rangeCheck_iff (P : Params) (o l o' l' : Nat) :
    (inRange P o l && inRange P o' l') = true ↔ regionFits P.dbufSize o l ∧ regionFits P.dbufSize o' l' := by
  rw [Bool.and_eq_true, inRange_iff, inRange_iff]

theorem rangeCheck_three_iff (P : Params) (o l o' l' o'' l'' : Nat) :
    (inRange P o l && inRange P o' l' && inRange P o'' l'') = true ↔
      regionFits P.dbufSize o l ∧ regionFits P.dbufSize o' l' ∧ regionFits P.dbufSize o'' l'' := by
  rw [Bool.and_eq_true, rangeCheck_iff, inRange_iff, and_assoc]

theorem shiftCheck_iff (o l o' l' : Nat) :
    (!shiftedOverlap o l o' l') = true ↔ o = o' ∨ regionsApart o l o' l' := by
  rw [Bool.not_eq_true', shiftedOverlap_eq_false, or_comm]

theorem overlapCheck_iff (o l o1 l1 o2 l2 : Nat) :
    (!overlap o l o1 l1 && !shiftedOverlap o l o2 l2) = true ↔
      regionsApart o l o1 l1 ∧ (o = o2 ∨ regionsApart o l o2 l2) := by
  rw [Bool.and_eq_true, shiftCheck_iff, Bool.not_eq_true', overlap_eq_false]

/-! ### MGM_SEAL and MGM_OPEN (R196, R197) -/

/-- Settles O31: the three checks of MGM_SEAL one after the other, each reached when those before it pass. -/
theorem mgmSealReportsItsErrorsInOrder : Obligations.MgmSealReportsItsErrorsInOrder := by
  intro s b T hb hT
  rw [exec_of_tagSize (i := .mgmSeal) rfl hb hT]
  refine ⟨fun h => ?size, fun hlo hhi => ⟨fun h => ?range, fun h0 h2 h4 h => ?overlap⟩⟩
  case size =>
    rw [require_not (sizeCheck_iff b _) (by omega)]
    rfl
  case range =>
    rw [require_of (sizeCheck_iff b _) ⟨hlo, hhi⟩, require_not (rangeCheck_three_iff _ _ _ _ _ _ _) h]
    rfl
  case overlap =>
    rw [require_of (sizeCheck_iff b _) ⟨hlo, hhi⟩, require_of (rangeCheck_three_iff _ _ _ _ _ _ _) ⟨h0, h2, h4⟩,
      require_not (overlapCheck_iff _ _ _ _ _ _) h]
    rfl

/-- Settles O32: the checks of MGM_OPEN one after the other, the input first measured against T. -/
theorem mgmOpenReportsItsErrorsInOrder : Obligations.MgmOpenReportsItsErrorsInOrder := by
  intro s b T hb hT
  rw [exec_of_tagSize (i := .mgmOpen) rfl hb hT]
  refine ⟨fun h => ?short, fun B hB => ?body⟩
  case short =>
    rw [require_not decide_eq_true_iff (by omega)]
    rfl
  case body =>
    obtain rfl : B = s.arg 3 - T := by omega
    rw [require_of decide_eq_true_iff (by omega)]
    refine ⟨fun h => ?size, fun hlo hhi => ⟨fun h => ?range, fun h0 h2 h4 h => ?overlap⟩⟩
    case size =>
      rw [require_not (sizeCheck_iff b _) (by omega)]
      rfl
    case range =>
      rw [require_of (sizeCheck_iff b _) ⟨hlo, hhi⟩, require_not (rangeCheck_three_iff _ _ _ _ _ _ _) h]
      rfl
    case overlap =>
      rw [require_of (sizeCheck_iff b _) ⟨hlo, hhi⟩, require_of (rangeCheck_three_iff _ _ _ _ _ _ _) ⟨h0, h2, h4⟩,
        require_not (overlapCheck_iff _ _ _ _ _ _) h]
      rfl

/-! ### CTR_ACPKM and ACPKM_MASTER (R155, R156) -/

/-- Settles O33: the checks of the two commands one after the other. -/
theorem acpkmStreamsReportTheirErrorsInOrder : Obligations.AcpkmStreamsReportTheirErrorsInOrder := by
  intro s b hb
  rw [exec_of_blockSize (i := .ctrAcpkm) rfl hb, exec_of_blockSize (i := .acpkmMaster) rfl hb]
  refine ⟨fun h => ⟨?sizeCtr, ?sizeMaster⟩,
    fun hpos hmod => ⟨fun h => ?rangeCtr, fun h => ?rangeMaster, fun h0 h2 h => ?overlap⟩⟩
  case sizeCtr =>
    rw [require_not (sectionCheck_iff s b) (by omega)]
    rfl
  case sizeMaster =>
    rw [require_not (sectionCheck_iff s b) (by omega)]
    rfl
  case rangeCtr =>
    rw [require_of (sectionCheck_iff s b) ⟨hpos, hmod⟩, require_not (rangeCheck_iff _ _ _ _ _) h]
    rfl
  case rangeMaster =>
    rw [require_of (sectionCheck_iff s b) ⟨hpos, hmod⟩, require_not (inRange_iff _ _ _) h]
    rfl
  case overlap =>
    rw [require_of (sectionCheck_iff s b) ⟨hpos, hmod⟩, require_of (rangeCheck_iff _ _ _ _ _) ⟨h0, h2⟩,
      require_not (shiftCheck_iff _ _ _ _) h]
    rfl

end Sys2Proof.Machine
end

section
/-! PROOFS. The laws of the field product, by way of the polynomial product modulo P_n (R177). -/

namespace Sys2Proof.Machine

open Polynomial

/-! ### An integer and its polynomial (R172) -/

theorem coeff_bitSum {n : Nat} (v : BitVec n) {i : Nat} (hi : i < n) :
    (bitSum (X : Polynomial (ZMod 2)) v).coeff i = if v.getLsbD i then 1 else 0 := by
  simp only [bitSum, finsetSum_coeff, apply_ite (coeff · i), coeff_X_pow, coeff_zero]
  rw [Finset.sum_eq_single_of_mem i (Finset.mem_range.mpr hi)]
  · simp
  · intro j _ hj
    simp [hj.symm]

/-- Different integers have different polynomials. -/
theorem bitSum_injective {n : Nat} {x y : BitVec n} (h : bitSum (X : Polynomial (ZMod 2)) x = bitSum X y) : x = y := by
  apply BitVec.eq_of_getLsbD_eq
  intro i hi
  have bit := congrArg (coeff · i) h
  simp only [coeff_bitSum _ hi] at bit
  cases hx : x.getLsbD i <;> cases hy : y.getLsbD i <;> simp [hx, hy] at bit ⊢

/-! ### The laws for one width -/

section
variable {n : Nat} {r : BitVec n} {P : Polynomial (ZMod 2)} (hP : P = X ^ n + bitSum X r)
include hP

theorem modulus_monic : P.Monic := hP ▸ monic_X_pow_add (degree_bitSum_lt r)

/-- An n-bit integer is its own remainder. -/
theorem bitSum_modByMonic (v : BitVec n) : bitSum X v %ₘ P = bitSum X v := by
  have degree : P.degree = n := by
    rw [hP, degree_add_eq_left_of_degree_lt (by rw [degree_X_pow]; exact degree_bitSum_lt r), degree_X_pow]
  rw [modByMonic_eq_self_iff (modulus_monic hP), degree]
  exact degree_bitSum_lt v

theorem gfmul_comm (x y : BitVec n) : gfmul r x y = gfmul r y x := by
  apply bitSum_injective
  rw [bitSum_gfmul_eq_modByMonic hP, bitSum_gfmul_eq_modByMonic hP, mul_comm]

theorem bitSum_gfmul_gfmul (x y z : BitVec n) :
    bitSum X (gfmul r (gfmul r x y) z) = (bitSum X x * bitSum X y * bitSum X z) %ₘ P := by
  calc bitSum X (gfmul r (gfmul r x y) z)
      = ((bitSum X x * bitSum X y) %ₘ P * (bitSum X z %ₘ P)) %ₘ P := by
        rw [bitSum_gfmul_eq_modByMonic hP, bitSum_gfmul_eq_modByMonic hP, bitSum_modByMonic hP]
    _ = (bitSum X x * bitSum X y * bitSum X z) %ₘ P := (mul_modByMonic _ _ _).symm

theorem gfmul_assoc (x y z : BitVec n) : gfmul r (gfmul r x y) z = gfmul r x (gfmul r y z) := by
  apply bitSum_injective
  rw [gfmul_comm hP x (gfmul r y z), bitSum_gfmul_gfmul hP, bitSum_gfmul_gfmul hP]
  ring_nf

theorem gfmul_xor (x y z : BitVec n) : gfmul r x (y ^^^ z) = gfmul r x y ^^^ gfmul r x z := by
  apply bitSum_injective
  simp only [bitSum_xor, bitSum_gfmul_eq_modByMonic hP, mul_add, add_modByMonic]

theorem gfmul_zero (x : BitVec n) : gfmul r x 0#n = 0#n := by
  apply bitSum_injective
  rw [bitSum_gfmul_eq_modByMonic hP, bitSum_zero, mul_zero, zero_modByMonic]

theorem gfmul_one (hn : 0 < n) (x : BitVec n) : gfmul r x 1#n = x := by
  have one : 1#n = BitVec.twoPow n 0 := by simp [BitVec.twoPow]
  apply bitSum_injective
  rw [bitSum_gfmul_eq_modByMonic hP, one, bitSum_twoPow _ hn, pow_zero, mul_one, bitSum_modByMonic hP]

/-- The reduction: t^(n−1)·t is r. -/
theorem gfmul_top (hn : 1 < n) : gfmul r (BitVec.twoPow n (n - 1)) (BitVec.twoPow n 1) = r := by
  have multiple : P ∣ X ^ n - bitSum X r := by rw [hP, ← ZModModule.sub_eq_add]
  apply bitSum_injective
  rw [bitSum_gfmul_eq_modByMonic hP, bitSum_twoPow _ (by omega), bitSum_twoPow _ hn, ← pow_add,
    Nat.sub_add_cancel (by omega), modByMonic_eq_of_dvd_sub (modulus_monic hP) multiple, bitSum_modByMonic hP]

end

/-- Settles O36: with P_64 and P_128 the laws hold of the loop at both widths. -/
theorem fieldProductIdentityZeroAndDistribution : Obligations.FieldProductIdentityZeroAndDistribution := by
  refine ⟨fun x => ⟨?_, ?_, ?_⟩, fun x => ⟨?_, ?_, ?_⟩, ?_, ?_⟩
  · exact gfmul_one modulus64_eq (by decide) x
  · exact gfmul_zero modulus64_eq x
  · exact gfmul_xor modulus64_eq x
  · exact gfmul_one modulus128_eq (by decide) x
  · exact gfmul_zero modulus128_eq x
  · exact gfmul_xor modulus128_eq x
  · exact gfmul_top modulus64_eq (by decide)
  · exact gfmul_top modulus128_eq (by decide)

/-- Settles O37: the polynomial product commutes and associates, and its remainder with it. -/
theorem fieldProductCommutesAndAssociates : Obligations.FieldProductCommutesAndAssociates :=
  ⟨gfmul_comm modulus64_eq, gfmul_assoc modulus64_eq, gfmul_comm modulus128_eq, gfmul_assoc modulus128_eq⟩

end Sys2Proof.Machine
end

section
/-! PROOFS. ACPKM_DERIVE_LOAD (R150, R154). -/

namespace Sys2Proof.Machine

theorem exec_acpkmDeriveLoad {s : State} {b : BlockSize} (hb : s.hasBlockSize b) : exec .acpkmDeriveLoad s =
    .next (State.succeed
      { s with kd := acpkmDerive Config.engine b s.key, key := acpkmDerive Config.engine b s.key } false) := by
  rw [exec_of_blockSize (i := .acpkmDeriveLoad) rfl hb]
  rfl

/-- Settles O39: KD and KEY take one value, derived from the KEY before the command. -/
theorem acpkmDeriveLoadAlsoLoadsKey : Obligations.AcpkmDeriveLoadAlsoLoadsKey := by
  refine ⟨Laws.DecodeEncode.acpkmDeriveLoad.1, fun s =>
    ⟨fun hb => ⟨_, ?long, exec_acpkmDeriveLoad hb⟩, fun hb => ⟨_, ?short, exec_acpkmDeriveLoad hb⟩,
      exec_of_illegal_blockSize rfl⟩⟩
  case long => exact acpkmDerive_b16 Config.engine s.key
  case short => exact acpkmDerive_b8 Config.engine s.key

end Sys2Proof.Machine
end

section
/-! PROOFS. The octets of DBUF before and after a command that writes one region of it (R71, R101). -/

namespace Sys2Proof.Machine

theorem octets_ext {x y : Octets} (hl : x.length = y.length) (h : ∀ j < x.length, x.getD j 0#8 = y.getD j 0#8) :
    x = y := by
  refine List.ext_getElem hl fun j hx hy => ?_
  rw [← List.getD_eq_getElem x 0#8 hx, ← List.getD_eq_getElem y 0#8 hy]
  exact h j hx

theorem memRead_getD (P : Params) (s : State) (a : Nat) {n j : Nat} (hj : j < n) :
    (memRead P s a n).getD j 0#8 = s.octet P (a + j) := by
  rw [List.getD_eq_getElem _ _ (by rwa [memRead_length]), memRead_getElem]

theorem octet_memWrite_getD (P : Params) (s : State) (a : Nat) {v : Octets} {j : Nat} (hj : j < v.length) :
    (memWrite s a v).octet P (a + j) = v.getD j 0#8 := by
  rw [octet_memWrite_inside P s a v hj, List.getD_eq_getElem _ _ hj]

theorem memRead_memWrite_of_length (P : Params) (s : State) (a : Nat) {v : Octets} {n : Nat} (hn : v.length = n) :
    memRead P (memWrite s a v) a n = v := by
  rw [← hn, memRead_memWrite_same]

@[simp] theorem octet_succeed (P : Params) (s : State) (ok : Bool) (a : Nat) :
    (s.succeed ok).octet P a = s.octet P a := rfl

@[simp] theorem memRead_succeed (P : Params) (s : State) (ok : Bool) (a n : Nat) :
    memRead P (s.succeed ok) a n = memRead P s a n := rfl

end Sys2Proof.Machine
end

section
/-! PROOFS. CTR_ACPKM and ACPKM_MASTER where their checks pass, and the two laws of R158 (R151, R152, R155–R158). -/

namespace Sys2Proof.Machine

/-! ### The keystream -/

/-- As long as the data fit in one section every block is enciphered under the first key. -/
theorem ctrKeystreamOctet_first_section (P : Params) {b : BlockSize} (k : Key) (iv : Octets) {N j : Nat}
    (hN : N % blockOctets b = 0) (hj : j < N) :
    ctrKeystreamOctet P b k iv N j =
      (bc P b k (iv ++ toBe (j / blockOctets b) (halfOctets b))).getD (j % blockOctets b) 0#8 := by
  have block : j / blockOctets b < N / blockOctets b :=
    Nat.div_lt_div_of_lt_of_dvd (Nat.dvd_of_mod_eq_zero hN) hj
  rw [ctrKeystreamOctet, Nat.div_eq_of_lt block, sectionKey_zero]

/-- Settles O42: block j/bs lies in section 0. -/
theorem ctrAcpkmWithOneSectionIsPlainCtr : Obligations.CtrAcpkmWithOneSectionIsPlainCtr := by
  intro P b k iv data N _ hN hlen
  refine ⟨ctrAcpkm_length P b k iv N data, fun j hj => ?_⟩
  rw [ctrAcpkm_getD P b k iv N data hj, ctrKeystreamOctet_first_section P k iv hN (hj.trans_le hlen)]

/-- The same keystream twice gives the data back. -/
theorem ctrAcpkm_ctrAcpkm (P : Params) (b : BlockSize) (k : Key) (iv : Octets) (N : Nat) (data : Octets) :
    ctrAcpkm P b k iv N (ctrAcpkm P b k iv N data) = data := by
  have length := ctrAcpkm_length P b k iv N data
  refine octets_ext (by rw [ctrAcpkm_length, length]) fun j hj => ?_
  rw [ctrAcpkm_length] at hj
  rw [ctrAcpkm_getD P b k iv N _ hj, ctrAcpkm_getD P b k iv N data (length ▸ hj), BitVec.xor_assoc, BitVec.xor_self,
    BitVec.xor_zero]

theorem acpkmMaster_getD (P : Params) (b : BlockSize) (k : Key) (tstar : Nat) {L j : Nat} (hj : j < L) :
    (acpkmMaster P b k tstar L).getD j 0#8 =
      ctrKeystreamOctet P b k (List.replicate (halfOctets b) 0xFF#8) tstar j := by
  have zero : (zeros L).getD j 0#8 = 0#8 := by
    rw [List.getD_eq_getElem _ _ (by rwa [zeros_length])]
    exact List.getElem_replicate _
  rw [acpkmMaster, ctrAcpkm_getD P b k _ tstar _ (by rwa [zeros_length]), zero, BitVec.zero_xor]

/-! ### The commands where their checks pass -/

/-- The octets that CTR_ACPKM writes (R155). -/
def ctrAcpkmOutput (P : Params) (b : BlockSize) (s : State) : Octets :=
  ctrAcpkm P b s.key ((octetsOf s.nonce).take (halfOctets b)) (s.arg 3) (memRead P s (s.arg 0) (s.arg 1))

theorem ctrAcpkmOutput_length (P : Params) (b : BlockSize) (s : State) : (ctrAcpkmOutput P b s).length = s.arg 1 := by
  rw [ctrAcpkmOutput, ctrAcpkm_length, memRead_length]

section
variable {s : State} {b : BlockSize} (hb : s.hasBlockSize b) (hpos : 0 < s.arg 3)
  (hmod : s.arg 3 % blockOctets b = 0)
include hb hpos hmod

theorem exec_ctrAcpkm (hin : regionFits Config.engine.dbufSize (s.arg 0) (s.arg 1))
    (hout : regionFits Config.engine.dbufSize (s.arg 2) (s.arg 1))
    (hshift : s.arg 2 = s.arg 0 ∨ regionsApart (s.arg 2) (s.arg 1) (s.arg 0) (s.arg 1)) :
    exec .ctrAcpkm s = .next (State.succeed (memWrite s (s.arg 2) (ctrAcpkmOutput Config.engine b s)) false) := by
  rw [exec_of_blockSize (i := .ctrAcpkm) rfl hb, require_of (sectionCheck_iff s b) ⟨hpos, hmod⟩,
    require_of (rangeCheck_iff _ _ _ _ _) ⟨hin, hout⟩, require_of (shiftCheck_iff _ _ _ _) hshift, slice_zero]
  rfl

theorem exec_acpkmMaster (hout : regionFits Config.engine.dbufSize (s.arg 2) (s.arg 1)) :
    exec .acpkmMaster s = .next (State.succeed
      (memWrite s (s.arg 2) (acpkmMaster Config.engine b s.key (s.arg 3) (s.arg 1))) false) := by
  rw [exec_of_blockSize (i := .acpkmMaster) rfl hb, require_of (sectionCheck_iff s b) ⟨hpos, hmod⟩,
    require_of (inRange_iff _ _ _) hout]
  rfl

end

/-- Settles O40: the one write is the output, whose octets are the input's with the keystream. -/
theorem ctrAcpkmAddsTheKeystream : Obligations.CtrAcpkmAddsTheKeystream := by
  intro s b hb hpos hmod hin hout hshift
  have length := ctrAcpkmOutput_length Config.engine b s
  refine ⟨_, exec_ctrAcpkm hb hpos hmod hin hout hshift, rfl, fun j hj => ?inside, fun a ha => ?outside⟩
  case inside =>
    rw [octet_succeed, octet_memWrite_getD _ _ _ (by rwa [length]), ctrAcpkmOutput,
      ctrAcpkm_getD _ _ _ _ _ _ (by rwa [memRead_length]), memRead_getD _ _ _ hj]
  case outside => rw [octet_succeed, octet_memWrite_outside _ _ _ _ (by rwa [length])]

/-- Settles O41: the one write is the keystream itself, added to zeros. -/
theorem acpkmMasterWritesTheKeystream : Obligations.AcpkmMasterWritesTheKeystream := by
  intro s b hb hpos hmod hout
  have length := acpkmMaster_length Config.engine b s.key (s.arg 3) (s.arg 1)
  refine ⟨_, exec_acpkmMaster hb hpos hmod hout, rfl, fun j hj => ?inside, fun a ha => ?outside⟩
  case inside => rw [octet_succeed, octet_memWrite_getD _ _ _ (by rwa [length]), acpkmMaster_getD _ _ _ _ hj]
  case outside => rw [octet_succeed, octet_memWrite_outside _ _ _ _ (by rwa [length])]

/-- Settles O43: the second run's input is the first one's output, and both use one keystream. -/
theorem ctrAcpkmTwiceGivesBackTheInput : Obligations.CtrAcpkmTwiceGivesBackTheInput := by
  intro s t u b hb hpos hmod hin hout hshift ht hkey hnonce hctrl hN hlen hdata huin huout hushift
  have hub : u.hasBlockSize b := by rwa [State.hasBlockSize, hctrl]
  obtain rfl := Host.Outcome.next.inj (ht.symm.trans (exec_ctrAcpkm hb hpos hmod hin hout hshift))
  refine ⟨_, exec_ctrAcpkm hub (hN ▸ hpos) (hN ▸ hmod) huin huout hushift, ?_⟩
  rw [memRead_succeed, memRead_memWrite_of_length _ _ _ (ctrAcpkmOutput_length _ _ _), ctrAcpkmOutput, hdata,
    memRead_succeed, memRead_memWrite_of_length _ _ _ (ctrAcpkmOutput_length _ _ _), ctrAcpkmOutput, hkey, hnonce, hN,
    ctrAcpkm_ctrAcpkm]

end Sys2Proof.Machine
end

section
/-! PROOFS. The accumulator and the tag of MGM in closed form (R191, R193–R195). -/

namespace Sys2Proof.Machine

/-- On a chunk, pad1 fills the block up with zeros (R112). -/
theorem pad1_chunk (b : BlockSize) {c : Octets} (hlo : 0 < c.length) (hhi : c.length ≤ blockOctets b) :
    pad1 b c = c ++ zeros (blockOctets b - c.length) := by
  rw [pad1]
  rcases Nat.lt_or_eq_of_le hhi with h | h
  · rw [Nat.mod_eq_of_lt h, Nat.mod_eq_of_lt (by omega)]
  · rw [h, Nat.mod_self, Nat.sub_zero, Nat.mod_self, Nat.sub_self]

theorem mgmBlocks_eq (b : BlockSize) (ad ct : Octets) :
    mgmBlocks b ad ct = ((chunks b ad ++ chunks b ct).map fun c => c ++ zeros (blockOctets b - c.length)) ++
      [toBe (8 * ad.length) (halfOctets b) ++ toBe (8 * ct.length) (halfOctets b)] := by
  have pads : ∀ c ∈ chunks b ad ++ chunks b ct, pad1 b c = c ++ zeros (blockOctets b - c.length) := by
    intro c hc
    have bounds : 0 < c.length ∧ c.length ≤ blockOctets b :=
      (List.mem_append.mp hc).elim (chunks_length_bounds b ad c) (chunks_length_bounds b ct c)
    exact pad1_chunk b bounds.1 bounds.2
  rw [mgmBlocks, List.map_congr_left pads, mgmLength]

/-- The loop as a sum over the block numbers, the counter stepped j times for block j. -/
theorem mgmSumLoop_eq_foldl (P : Params) (b : BlockSize) (k : Key) (z sum : Octets) (blocks : List Octets) :
    mgmSumLoop P b k z sum blocks =
      (List.range blocks.length).foldl
        (fun sum j => xorOctets sum (gfmulOctets b (bc P b k ((incrLeft b)^[j] z)) (blocks.getD j []))) sum := by
  induction blocks generalizing z sum with
  | nil => rfl
  | cons c cs ih =>
    rw [mgmSumLoop, ih, List.length_cons, List.range_succ_eq_map, List.foldl_cons, List.foldl_map]
    rfl

/-- Settles O50: the blocks are the padded chunks and the length block, and the loop sums over their numbers. -/
theorem mgmSumIsTheSumOfProducts : Obligations.MgmSumIsTheSumOfProducts := by
  intro P b k nonce ad ct blocks
  refine ⟨?sum, fun T => slice_zero _ _⟩
  case sum => rw [mgmSum, mgmBlocks_eq, mgmSumLoop_eq_foldl, mgmZ0]

end Sys2Proof.Machine
end

section
/-! PROOFS. MGM_SEAL and MGM_OPEN where their checks pass, and the laws that join them (R192, R195–R197, R199, R200). -/

namespace Sys2Proof.Machine

/-! ### Octets -/

theorem memRead_append (P : Params) (s : State) (a m n : Nat) :
    memRead P s a (m + n) = memRead P s a m ++ memRead P s (a + m) n := by
  simp [memRead, List.range_add, Nat.add_assoc]

/-- Two strings written one after the other are read one after the other. -/
theorem memRead_memWrite_append (P : Params) (s : State) (a : Nat) {v w : Octets} {m n : Nat} (hv : v.length = m)
    (hw : w.length = n) :
    memRead P (memWrite s a (v ++ w)) a m = v ∧ memRead P (memWrite s a (v ++ w)) (a + m) n = w := by
  have whole := memRead_memWrite_of_length P s a (v := v ++ w) (n := m + n) (by rw [List.length_append, hv, hw])
  rw [memRead_append] at whole
  exact List.append_inj whole (by rw [memRead_length, hv])

theorem octetsOf_setTag {v : Octets} {T : Nat} (hv : v.length = T) (hT : T ≤ 16) :
    octetsOf (setTag v T) = v ++ zeros (16 - T) :=
  octetsOf_ofOctets (m := 16) (by rw [List.length_append, zeros_length, hv, Nat.add_sub_cancel' hT])

theorem ctEqual_iff_eq {x y : Octets} {T : Nat} (hx : x.length = T) (hy : y.length = T) :
    ctEqual x y T = true ↔ x = y := by
  rw [ctEqual_iff_take x y T hx.ge hy.ge, List.take_of_length_le hx.le, List.take_of_length_le hy.le]

theorem mgmCrypt_mgmCrypt (P : Params) (b : BlockSize) (k : Key) (nonce data : Octets) :
    mgmCrypt P b k nonce (mgmCrypt P b k nonce data) = data := by
  have length := mgmCrypt_length P b k nonce data
  refine octets_ext (by rw [mgmCrypt_length, length]) fun j hj => ?_
  rw [mgmCrypt_length] at hj
  rw [mgmCrypt_getD P b k nonce _ hj, mgmCrypt_getD P b k nonce data (length ▸ hj), BitVec.xor_assoc, BitVec.xor_self,
    BitVec.xor_zero]

/-- A shorter tag is the beginning of a longer one (R195). -/
theorem take_mgmTag (P : Params) (b : BlockSize) (k : Key) (nonce ad ct : Octets) {T n : Nat} (h : T ≤ n) :
    (mgmTag P b k nonce ad ct n).take T = mgmTag P b k nonce ad ct T := by
  rw [mgmTag, mgmTag, slice_zero, slice_zero, List.take_take, Nat.min_eq_left h]

/-! ### MGM_SEAL (R196) -/

/-- The ciphertext that MGM_SEAL computes. -/
def sealCiphertext (P : Params) (b : BlockSize) (s : State) : Octets :=
  mgmCrypt P b s.key (blockOf b s.nonce) (memRead P s (s.arg 2) (s.arg 3))

/-- The tag of `T` octets that MGM_SEAL computes. -/
def sealTag (P : Params) (b : BlockSize) (s : State) (T : Nat) : Octets :=
  mgmTag P b s.key (blockOf b s.nonce) (memRead P s (s.arg 0) (s.arg 1)) (sealCiphertext P b s) T

/-- The state that a successful MGM_SEAL leaves. -/
def sealed (P : Params) (b : BlockSize) (T : Nat) (s : State) : State :=
  State.succeed
    (memWrite { s with tag := setTag (sealTag P b s T) T } (s.arg 4) (sealCiphertext P b s ++ sealTag P b s T)) false

section
variable (P : Params) (b : BlockSize) (s : State)

theorem sealCiphertext_length : (sealCiphertext P b s).length = s.arg 3 := by
  rw [sealCiphertext, mgmCrypt_length, memRead_length]

theorem sealTag_length {T : Nat} (hT : T ≤ blockOctets b) : (sealTag P b s T).length = T :=
  mgmTag_length P b _ _ _ _ hT

theorem memRead_sealed {T : Nat} (hT : T ≤ blockOctets b) :
    memRead P (sealed P b T s) (s.arg 4) (s.arg 3) = sealCiphertext P b s ∧
      memRead P (sealed P b T s) (s.arg 4 + s.arg 3) T = sealTag P b s T :=
  memRead_memWrite_append P _ (s.arg 4) (sealCiphertext_length P b s) (sealTag_length P b s hT)

theorem octetsOf_tag_sealed {T : Nat} (hT : T ≤ blockOctets b) :
    octetsOf (sealed P b T s).tag = sealTag P b s T ++ zeros (16 - T) :=
  octetsOf_setTag (sealTag_length P b s hT) (hT.trans (blockOctets_le b))

end

section
variable {s : State} {b : BlockSize} {T : Nat} (hb : s.hasBlockSize b) (hT : s.hasTagSize b T)
include hb hT

theorem exec_mgmSeal (hlo : 0 < s.arg 1 + s.arg 3) (hhi : s.arg 1 + s.arg 3 ≤ 2 ^ (4 * blockOctets b) - 1)
    (hranges : regionFits Config.engine.dbufSize (s.arg 0) (s.arg 1) ∧
      regionFits Config.engine.dbufSize (s.arg 2) (s.arg 3) ∧
      regionFits Config.engine.dbufSize (s.arg 4) (s.arg 3 + T))
    (hapart : regionsApart (s.arg 4) (s.arg 3 + T) (s.arg 0) (s.arg 1) ∧
      (s.arg 4 = s.arg 2 ∨ regionsApart (s.arg 4) (s.arg 3 + T) (s.arg 2) (s.arg 3))) :
    exec .mgmSeal s = .next (sealed Config.engine b T s) := by
  rw [exec_of_tagSize (i := .mgmSeal) rfl hb hT, require_of (sizeCheck_iff b _) ⟨hlo, hhi⟩,
    require_of (rangeCheck_three_iff _ _ _ _ _ _ _) hranges, require_of (overlapCheck_iff _ _ _ _ _ _) hapart]
  rfl

/-- A run of MGM_SEAL that reports no error has passed its checks. -/
theorem mgmSeal_success {t : State} (ht : exec .mgmSeal s = .next t) (herr : t.status.err = false) :
    (0 < s.arg 1 + s.arg 3 ∧ s.arg 1 + s.arg 3 ≤ 2 ^ (4 * blockOctets b) - 1) ∧ t = sealed Config.engine b T s := by
  obtain rfl := (exec_eq_next_iff _ _ _).mp ht
  cases hr : commandResult Config.engine .mgmSeal s with
  | err c =>
    rw [hr] at herr
    exact absurd herr (by simp [Status.completedErr])
  | ok ws a =>
    obtain ⟨b', hb', T', hT', size, -, -, rfl, rfl⟩ := mgmSealResult_eq_ok.mp hr
    obtain rfl := hasBlockSize_unique hb hb'
    obtain rfl : T = T' := hT.1.trans hT'.1.symm
    exact ⟨size, rfl⟩

end

/-- Settles O44: the command writes ciphertext and tag, one after the other, and the tag into TAG. -/
theorem mgmSealWritesCiphertextAndTag : Obligations.MgmSealWritesCiphertextAndTag := by
  intro s b T hb hT hlo hhi h0 h2 h4 had hpt
  have hbs : T ≤ blockOctets b := hT.2.2
  obtain ⟨ciphertext, tag⟩ := memRead_sealed Config.engine b s hbs
  have ctLength := sealCiphertext_length Config.engine b s
  have tagLength := sealTag_length Config.engine b s hbs
  refine ⟨_, exec_mgmSeal hb hT hlo hhi ⟨h0, h2, h4⟩ ⟨had, hpt⟩, rfl, fun j hj => ?inside, ?tagOctets, ?tagRegister,
    fun a ha => ?outside⟩
  case inside =>
    rw [← memRead_getD _ _ _ hj, ciphertext, sealCiphertext, mgmCrypt_getD _ _ _ _ _ (by rwa [memRead_length]),
      memRead_getD _ _ _ hj]
  case tagOctets => rw [tag, ciphertext, sealTag]
  case tagRegister => rw [tag, octetsOf_tag_sealed Config.engine b s hbs]
  case outside =>
    exact octet_memWrite_outside _ { s with tag := _ } _ _ (by rwa [List.length_append, ctLength, tagLength])

/-- Settles O48: the two runs seal one text, and the two tags begin one enciphered accumulator. -/
theorem shorterTagsAreTruncations : Obligations.ShorterTagsAreTruncations := by
  intro s t u b T hb hT _ ht hterr hu huerr
  have hbs : T ≤ blockOctets b := hT.2.2
  have full : State.hasTagSize { s with ctrl := { s.ctrl with tagsize := 0x00#8 } } b (blockOctets b) :=
    ⟨rfl, by cases b <;> decide, Nat.le_refl _⟩
  obtain ⟨-, rfl⟩ := mgmSeal_success hb hT ht hterr
  obtain ⟨-, rfl⟩ := mgmSeal_success (s := { s with ctrl := { s.ctrl with tagsize := 0x00#8 } }) hb full hu huerr
  constructor
  · rw [octetsOf_tag_sealed _ _ _ hbs, octetsOf_tag_sealed _ _ _ (Nat.le_refl _),
      List.take_left' (sealTag_length _ _ _ hbs),
      List.take_append_of_le_length (by rwa [sealTag_length _ _ _ (Nat.le_refl _)])]
    exact (take_mgmTag _ _ _ _ _ _ hbs).symm
  · exact (memRead_sealed _ b s hbs).1.trans
      (memRead_sealed _ b { s with ctrl := { s.ctrl with tagsize := 0x00#8 } } (Nat.le_refl _)).1.symm

/-! ### MGM_OPEN (R197) -/

/-- The tag that MGM_OPEN recomputes for a body of `B` octets. -/
def openTag (P : Params) (b : BlockSize) (s : State) (T B : Nat) : Octets :=
  mgmTag P b s.key (blockOf b s.nonce) (memRead P s (s.arg 0) (s.arg 1)) (memRead P s (s.arg 2) B) T

/-- The plaintext that MGM_OPEN computes from a body of `B` octets. -/
def openPlaintext (P : Params) (b : BlockSize) (s : State) (B : Nat) : Octets :=
  mgmCrypt P b s.key (blockOf b s.nonce) (memRead P s (s.arg 2) B)

theorem openPlaintext_length (P : Params) (b : BlockSize) (s : State) (B : Nat) :
    (openPlaintext P b s B).length = B := by
  rw [openPlaintext, mgmCrypt_length, memRead_length]

theorem openTag_compared {s : State} {b : BlockSize} {T : Nat} (hT : s.hasTagSize b T) (B : Nat) :
    ctEqual (openTag Config.engine b s T B) (memRead Config.engine s (s.arg 2 + B) T) T = true ↔
      openTag Config.engine b s T B = memRead Config.engine s (s.arg 2 + B) T :=
  ctEqual_iff_eq (mgmTag_length _ _ _ _ _ _ hT.2.2) (memRead_length _ _ _ _)

section
variable {s : State} {b : BlockSize} {T B : Nat} (hb : s.hasBlockSize b) (hT : s.hasTagSize b T)
  (hB : s.arg 3 = B + T) (hlo : 0 < s.arg 1 + B) (hhi : s.arg 1 + B ≤ 2 ^ (4 * blockOctets b) - 1)
  (hranges : regionFits Config.engine.dbufSize (s.arg 0) (s.arg 1) ∧
    regionFits Config.engine.dbufSize (s.arg 2) (s.arg 3) ∧ regionFits Config.engine.dbufSize (s.arg 4) B)
  (hapart : regionsApart (s.arg 4) B (s.arg 0) (s.arg 1) ∧
    (s.arg 4 = s.arg 2 ∨ regionsApart (s.arg 4) B (s.arg 2) (s.arg 3)))
include hb hT hB hlo hhi hranges hapart

/-- Where every check before it passes, the comparison of the tags decides. -/
theorem exec_mgmOpen_checked :
    exec .mgmOpen s = .next (finish s
      (require (ctEqual (openTag Config.engine b s T B) (memRead Config.engine s (s.arg 2 + B) T) T) .authFail fun _ =>
        .ok [.dbuf (s.arg 4) (openPlaintext Config.engine b s B)] true)) := by
  obtain rfl : B = s.arg 3 - T := by omega
  rw [exec_of_tagSize (i := .mgmOpen) rfl hb hT, require_of decide_eq_true_iff (by omega),
    require_of (sizeCheck_iff b _) ⟨hlo, hhi⟩, require_of (rangeCheck_three_iff _ _ _ _ _ _ _) hranges,
    require_of (overlapCheck_iff _ _ _ _ _ _) hapart]
  rfl

theorem exec_mgmOpen_authentic
    (htag : openTag Config.engine b s T B = memRead Config.engine s (s.arg 2 + B) T) :
    exec .mgmOpen s =
      .next (State.succeed (memWrite s (s.arg 4) (openPlaintext Config.engine b s B)) true) := by
  rw [exec_mgmOpen_checked hb hT hB hlo hhi hranges hapart,
    require_of (openTag_compared hT B) htag]
  rfl

theorem exec_mgmOpen_rejected
    (htag : openTag Config.engine b s T B ≠ memRead Config.engine s (s.arg 2 + B) T) :
    exec .mgmOpen s = .next (s.fail 7#4) := by
  rw [exec_mgmOpen_checked hb hT hB hlo hhi hranges hapart,
    require_not (openTag_compared hT B) htag]
  rfl

end

/-- Settles O45: the one write is the plaintext, whose octets are the body's with the keystream. -/
theorem mgmOpenDecryptsAnAuthenticBody : Obligations.MgmOpenDecryptsAnAuthenticBody := by
  intro s b T B hb hT hB hlo hhi h0 h2 h4 had hpt htag
  have length := openPlaintext_length Config.engine b s B
  refine ⟨_, exec_mgmOpen_authentic hb hT hB hlo hhi ⟨h0, h2, h4⟩ ⟨had, hpt⟩ htag, rfl, fun j hj => ?inside,
    fun a ha => ?outside⟩
  case inside =>
    rw [octet_succeed, octet_memWrite_getD _ _ _ (by rwa [length]), openPlaintext,
      mgmCrypt_getD _ _ _ _ _ (by rwa [memRead_length]), memRead_getD _ _ _ hj]
  case outside => rw [octet_succeed, octet_memWrite_outside _ _ _ _ (by rwa [length])]

/-- Settles O46: the comparison fails, and a failed check records its code alone. -/
theorem mgmOpenRejectsAnyOtherTag : Obligations.MgmOpenRejectsAnyOtherTag := by
  intro s b T B hb hT hB hlo hhi h0 h2 h4 had hpt htag
  exact exec_mgmOpen_rejected hb hT hB hlo hhi ⟨h0, h2, h4⟩ ⟨had, hpt⟩ htag

/-- Settles O47: the body read back is the ciphertext, so the tag recomputed is the one after it, and the keystream used
twice gives the plaintext. -/
theorem openInvertsSeal : Obligations.OpenInvertsSeal := by
  intro s t u b T hb hT _ ht hterr hkey hnonce hctrl hadLen hinLen had hin h0 h2 h4 hapart hshift
  obtain ⟨⟨hlo, hhi⟩, rfl⟩ := mgmSeal_success hb hT ht hterr
  obtain ⟨ciphertext, tag⟩ := memRead_sealed Config.engine b s hT.2.2
  have hub : u.hasBlockSize b := by rwa [State.hasBlockSize, hctrl]
  have huT : u.hasTagSize b T := by rwa [State.hasTagSize, hctrl]
  rw [hinLen, memRead_append, memRead_append, ciphertext, tag] at hin
  obtain ⟨body, received⟩ := List.append_inj hin (by rw [memRead_length, sealCiphertext_length])
  have authentic : openTag Config.engine b u T (s.arg 3) = memRead Config.engine u (u.arg 2 + s.arg 3) T := by
    rw [openTag, body, received, had, hkey, hnonce, sealTag]
  refine ⟨_, exec_mgmOpen_authentic hub huT hinLen (hadLen ▸ hlo) (hadLen ▸ hhi) ⟨h0, h2, h4⟩ ⟨hapart, hshift⟩ authentic,
    rfl, ?_⟩
  rw [memRead_succeed, memRead_memWrite_of_length _ _ _ (openPlaintext_length _ _ _ _), openPlaintext, body, hkey,
    hnonce, sealCiphertext, mgmCrypt_mgmCrypt]

end Sys2Proof.Machine
end

section
/-! PROOFS. Frames: what a command leaves unchanged, and who changes KEY (R31, R46, R157, R258). -/

namespace Sys2Proof.Machine

/-! ### One argument for every register (R46)

A part of the state that neither the flags nor any write of the command touches is as before after the command. -/

theorem applyWrites_keeps {α : Type} (f : State → α) {ws : List Write} (h : ∀ w ∈ ws, ∀ u, f (applyWrite u w) = f u)
    (s : State) : f (applyWrites s ws) = f s := by
  induction ws generalizing s with
  | nil => rfl
  | cons w ws ih =>
    rw [applyWrites_cons, ih fun w' hw' => h w' (List.mem_cons_of_mem _ hw'), h w List.mem_cons_self]

theorem exec_keeps {α : Type} (f : State → α)
    (hflags : ∀ (u : State) (st : Status) (q : IrqStatus), f { u with status := st, irqStatus := q } = f u)
    {i : Instr} {s t : State} (ht : exec i s = .next t)
    (hwrite : ∀ w, makesWrite w i = true → ∀ u, f (applyWrite u w) = f u) : f t = f s := by
  obtain rfl := (exec_eq_next_iff i s t).mp ht
  cases hr : commandResult Config.engine i s with
  | err c => exact hflags s _ _
  | ok ws a =>
    obtain ⟨own, -⟩ := commandResult_writes hr
    exact (hflags _ _ _).trans (applyWrites_keeps f (fun w hw => hwrite w (own w hw)) s)

section
variable {i : Instr} {s t : State} (ht : exec i s = .next t)
include ht

theorem exec_keeps_nonce (hi : i ≠ .noncePrep) : t.nonce = s.nonce := by
  refine exec_keeps State.nonce (fun _ _ _ => rfl) ht fun w hw u => ?_
  cases w with
  | nonce v => exact absurd (by simpa [makesWrite] using hw) hi
  | _ => rfl

theorem exec_keeps_tag (hi : i ≠ .mgmSeal) : t.tag = s.tag := by
  refine exec_keeps State.tag (fun _ _ _ => rfl) ht fun w hw u => ?_
  cases w with
  | tag v => exact absurd (by simpa [makesWrite] using hw) hi
  | _ => rfl

theorem exec_keeps_gfz (hi : i ∉ [Instr.gfmul64, .gfmac64, .gfmul128, .gfmac128]) : t.gfz = s.gfz := by
  refine exec_keeps State.gfz (fun _ _ _ => rfl) ht fun w hw u => ?_
  cases w with
  | gfz v => exact absurd (by simpa [makesWrite, or_assoc] using hw) hi
  | _ => rfl

theorem exec_keeps_cnt (hi : i ∉ [Instr.incrL, .incrR]) : t.cnt = s.cnt := by
  refine exec_keeps State.cnt (fun _ _ _ => rfl) ht fun w hw u => ?_
  cases w with
  | cnt v => exact absurd (by simpa [makesWrite] using hw) hi
  | _ => rfl

theorem exec_keeps_blk (hi : i ≠ .encblk) : t.blk = s.blk := by
  refine exec_keeps State.blk (fun _ _ _ => rfl) ht fun w hw u => ?_
  cases w with
  | blk v => exact absurd (by simpa [makesWrite] using hw) hi
  | _ => rfl

theorem exec_keeps_kd (hi : i ∉ [Instr.acpkmDerive, .acpkmDeriveLoad]) : t.kd = s.kd := by
  refine exec_keeps State.kd (fun _ _ _ => rfl) ht fun w hw u => ?_
  cases w with
  | kd v => exact absurd (by simpa [makesWrite] using hw) hi
  | _ => rfl

theorem exec_keeps_key (hi : i ≠ .acpkmDeriveLoad) : t.key = s.key := by
  refine exec_keeps State.key (fun _ _ _ => rfl) ht fun w hw u => ?_
  cases w with
  | key v => exact absurd (by simpa [makesWrite] using hw) hi
  | _ => rfl

theorem exec_keeps_dbuf (hi : i ∉ [Instr.mgmSeal, .mgmOpen, .ctrAcpkm, .acpkmMaster]) : t.dbuf = s.dbuf := by
  refine exec_keeps State.dbuf (fun _ _ _ => rfl) ht fun w hw u => ?_
  cases w with
  | dbuf a v => exact absurd (by simpa [makesWrite, or_assoc] using hw) hi
  | _ => rfl

theorem exec_keeps_epoch : t.epoch = s.epoch := by
  obtain rfl := (exec_eq_next_iff i s t).mp ht
  exact finish_epoch s _

theorem exec_authOk (hi : i ∉ [Instr.tagcmp, .mgmOpen]) : t.status.authOk = false := by
  obtain rfl := (exec_eq_next_iff i s t).mp ht
  cases hr : commandResult Config.engine i s with
  | err c => rfl
  | ok ws a =>
    obtain ⟨-, own⟩ := commandResult_writes hr
    exact Bool.eq_false_iff.mpr fun ha => hi (by simpa using own ha)

end

/-- Settles O51: a command's writes are its own registers, and the completion adds the flags. -/
theorem commandsWriteOnlyTheirRegisters : Obligations.CommandsWriteOnlyTheirRegisters := by
  intro i s t ht
  refine ⟨?_, ?_, ?_, ?_, ?_, ?_, ?_, ?_, ?_, ?_, ?_, ?_, exec_keeps_nonce ht, exec_keeps_tag ht, exec_keeps_gfz ht,
    exec_keeps_cnt ht, exec_keeps_blk ht, exec_keeps_kd ht, exec_keeps_key ht, exec_authOk ht,
    fun hi a => octet_congr _ (exec_keeps_dbuf ht hi) (exec_keeps_epoch ht) a⟩
  all_goals obtain rfl := (exec_eq_next_iff i s t).mp ht
  · exact finish_ctrl s _
  · exact finish_irqEnable s _
  · exact finish_args s _
  · exact finish_tagin s _
  · exact finish_gfa s _
  · exact finish_gfb s _
  · exact finish_pcmd s _
  · exact finish_events s _
  · exact finish_reply s _
  · exact finish_tick s _
  · exact finish_epoch s _
  · exact (finish_flags s _).2.2.2

/-! ### The octets of DBUF (R46) -/

/-- A command whose DBUF writes all lie within a region leaves every octet outside it. -/
theorem applyWrites_octet_outside (P : Params) {ws : List Write} {a : Nat}
    (h : ∀ o v, Write.dbuf o v ∈ ws → a < o ∨ o + v.length ≤ a) (s : State) :
    (applyWrites s ws).octet P a = s.octet P a := by
  refine applyWrites_keeps (fun u => u.octet P a) (fun w hw u => ?_) s
  cases w with
  | dbuf o v => exact octet_memWrite_outside P u o v (h o v hw)
  | _ => rfl

theorem tagOctets_eq {s : State} {b : BlockSize} {T : Nat} (hb : s.hasBlockSize b) (hT : s.hasTagSize b T) :
    s.ctrl.tagOctets s.ctrl.bs.toNat = T := by
  rw [State.hasBlockSize] at hb
  rw [Ctrl.tagOctets, hb]
  exact hT.1.symm

/-- A successful command's DBUF writes are within its declared write set. -/
theorem dbufWrite_within_writeSet {P : Params} {i : Instr} {s : State} {ws : List Write} {ok : Bool}
    (h : commandResult P i s = .ok ws ok) {o : Nat} {v : Octets} (hw : Write.dbuf o v ∈ ws) {a : Nat}
    (ho : o ≤ a) (ha : a < o + v.length) : writesAt i s (0x1000 + a) := by
  obtain ⟨own, -⟩ := commandResult_writes h
  have storing : i = .mgmSeal ∨ i = .mgmOpen ∨ i = .ctrAcpkm ∨ i = .acpkmMaster := by
    simpa [makesWrite, or_assoc] using own _ hw
  rcases storing with rfl | rfl | rfl | rfl
  · obtain ⟨b, hb, T, hT, -, -, -, rfl, -⟩ := mgmSealResult_eq_ok.mp h
    obtain ⟨rfl, rfl⟩ : o = _ ∧ v = _ := by simpa using hw
    rw [List.length_append, mgmCrypt_length, memRead_length, mgmTag_length _ _ _ _ _ _ hT.2.2] at ha
    rw [writesAt, tagOctets_eq hb hT]
    omega
  · obtain ⟨b, hb, T, hT, -, -, -, -, -, rfl, -⟩ := mgmOpenResult_eq_ok.mp h
    obtain ⟨rfl, rfl⟩ : o = _ ∧ v = _ := by simpa using hw
    rw [mgmCrypt_length, memRead_length] at ha
    rw [writesAt, tagOctets_eq hb hT]
    omega
  · obtain ⟨b, -, -, -, -, rfl, -⟩ := ctrAcpkmResult_eq_ok.mp h
    obtain ⟨rfl, rfl⟩ : o = _ ∧ v = _ := by simpa using hw
    rw [ctrAcpkm_length, memRead_length] at ha
    rw [writesAt]
    omega
  · obtain ⟨b, -, -, -, rfl, -⟩ := acpkmMasterResult_eq_ok.mp h
    obtain ⟨rfl, rfl⟩ : o = _ ∧ v = _ := by simpa using hw
    rw [acpkmMaster_length] at ha
    rw [writesAt]
    omega

/-- An octet of DBUF outside the write set of a command reads as before, whether the command succeeds or fails. -/
theorem octet_exec_of_not_writesAt {i : Instr} {s t : State} (ht : exec i s = .next t) {a : Nat}
    (ha : ¬ writesAt i s (0x1000 + a)) : t.octet Config.engine a = s.octet Config.engine a := by
  obtain rfl := (exec_eq_next_iff i s t).mp ht
  cases hr : commandResult Config.engine i s with
  | err c => rfl
  | ok ws ok =>
    refine applyWrites_octet_outside _ (fun o v hv => ?_) s
    by_contra inside
    exact ha (dbufWrite_within_writeSet hr hv (by omega) (by omega))

/-- Settles O52: the output region of each of the four commands is the DBUF part of its write set. -/
theorem commandsStoreOnlyInTheirOutputRegion : Obligations.CommandsStoreOnlyInTheirOutputRegion := by
  intro s t a
  refine ⟨fun b T hb hT ht ha => ?sealing, fun b T hb hT ht ha => ?opening, ?streams⟩
  case sealing =>
    refine octet_exec_of_not_writesAt ht ?_
    rw [writesAt, tagOctets_eq hb hT]
    omega
  case opening =>
    refine octet_exec_of_not_writesAt ht ?_
    rw [writesAt, tagOctets_eq hb hT]
    omega
  case streams =>
    simp only [List.forall_mem_cons, List.not_mem_nil, false_imp_iff, implies_true, and_true]
    refine ⟨fun ht ha => ?_, fun ht ha => ?_⟩
    · refine octet_exec_of_not_writesAt ht ?_
      rw [writesAt]
      omega
    · refine octet_exec_of_not_writesAt ht ?_
      rw [writesAt]
      omega

/-! ### The words of the window (R46, R258) -/

/-- A DBUF word none of whose octets is in the write set reads the same (R258). -/
theorem dbufWord_exec_of_not_wordWritten {i : Instr} {s t : State} (ht : exec i s = .next t) {a : Nat}
    (ha : ¬ wordWritten i s (0x1000 + a)) : dbufWord Config.engine t a = dbufWord Config.engine s a := by
  have octet : ∀ k < 4, t.octet Config.engine (a + k) = s.octet Config.engine (a + k) := fun k hk =>
    octet_exec_of_not_writesAt ht fun hw => ha ⟨0x1000 + (a + k), by omega, by omega, hw⟩
  rw [dbufWord_eq, dbufWord_eq, octet 1 (by decide), octet 2 (by decide), octet 3 (by decide)]
  rw [show t.octet Config.engine a = s.octet Config.engine a from octet 0 (by decide)]

/-- A register word outside the write set of a command, STATUS and IRQ_STATUS apart, reads the same. -/
theorem currentWord_exec_of_not_writeSet {i : Instr} {s t : State} (ht : exec i s = .next t) {loc : Loc}
    (hd : isDbufWord loc = false) (hst : loc ≠ .status) (hirq : loc ≠ .irqStatus) (hw : writeSet i s loc = false) :
    currentWord Config.engine t loc = currentWord Config.engine s loc := by
  obtain ⟨ctrl, irqEnable, args, tagin, gfa, gfb, -⟩ := commandsWriteOnlyTheirRegisters i s t ht
  cases loc with
  | dbuf a => cases hd
  | status => exact absurd rfl hst
  | irqStatus => exact absurd rfl hirq
  | ctrl => exact congrArg Ctrl.toWord ctrl
  | irqEnable => exact congrArg IrqEnable.toWord irqEnable
  | arg k => exact congrArg (Vector.get · k) args
  | tagin k => exact congrArg (wordOf · k) tagin
  | gfa k => exact congrArg (wordOf · k) gfa
  | gfb k => exact congrArg (wordOf · k) gfb
  | nonce k => exact congrArg (wordOf · k) (exec_keeps_nonce ht (by rintro rfl; cases hw))
  | tag k => exact congrArg (wordOf · k) (exec_keeps_tag ht (by rintro rfl; cases hw))
  | blk k => exact congrArg (wordOf · k) (exec_keeps_blk ht (by rintro rfl; cases hw))
  | gfz k =>
    refine congrArg (wordOf · k) (exec_keeps_gfz ht ?_)
    simp only [List.mem_cons, List.not_mem_nil, or_false]
    rintro (rfl | rfl | rfl | rfl) <;> cases hw
  | cnt k =>
    refine congrArg (wordOf · k) (exec_keeps_cnt ht ?_)
    simp only [List.mem_cons, List.not_mem_nil, or_false]
    rintro (rfl | rfl) <;> cases hw
  | kd k =>
    refine congrArg (wordOf · k) (exec_keeps_kd ht ?_)
    simp only [List.mem_cons, List.not_mem_nil, or_false]
    rintro (rfl | rfl) <;> cases hw
  | _ => rfl

theorem locate_status_irqStatus {offset : Nat} (hreg : offset < 0x1000) (h4 : offset % 4 = 0) :
    (locate offset = .status → offset = 0x00C) ∧ (locate offset = .irqStatus → offset = 0x010) := by
  by_cases h : offset < 0x100
  · exact forall_register_word
      (p := fun offset => (locate offset = .status → offset = 0x00C) ∧ (locate offset = .irqStatus → offset = 0x010))
      (by decide) h h4
  · rw [locate_reserved (by omega) hreg]
    exact ⟨nofun, nofun⟩

/-- Settles O53: a register word is covered by the frame of its register, a DBUF word by that of its octets. -/
theorem writeSetsAreComplete : Obligations.WriteSetsAreComplete := by
  intro i s t offset ht h4 _ hst hirq hw
  by_cases hreg : offset < 0x1000
  · have register : isDbufWord (locate offset) = false := by
      rw [locate_register hreg]
      exact isDbufWord_registerAt offset
    obtain ⟨status, irqStatus⟩ := locate_status_irqStatus hreg h4
    exact currentWord_exec_of_not_writeSet ht register (mt status hst) (mt irqStatus hirq)
      (Bool.eq_false_iff.mpr fun h => hw ((writeSet_iff i s h4).mp h))
  · obtain ⟨a, rfl⟩ : ∃ a, offset = 0x1000 + a := ⟨offset - 0x1000, by omega⟩
    rw [locate_dbuf]
    exact dbufWord_exec_of_not_wordWritten ht hw

/-! ### Who changes KEY (R31, R157) -/

theorem locate_eq_key {offset : Nat} (h4 : offset % 4 = 0) {k : Fin 8} (h : locate offset = .key k) :
    0x040 ≤ offset ∧ offset < 0x060 := by
  rcases (writeOnly_iff h4).mp (by rw [h]; rfl) with rfl | hkey
  · nomatch h
  · exact hkey

theorem storeWord_key_of_ne {loc : Loc} (h : ∀ k, loc ≠ .key k) (s : State) (w : Word) :
    (storeWord s loc w).key = s.key := by
  cases loc with
  | key k => exact absurd rfl (h k)
  | _ => rfl

/-- An access changes KEY only where it is a write to one of its words while no command runs. -/
theorem applyAccess_key_cases {P : Params} {s : State} {a : Access} (ha : accessLegal P a)
    (hk : (applyAccess P s a).key ≠ s.key) :
    s.status.busy = false ∧ ∃ offset w, a = .write 32 offset w ∧ 0x040 ≤ offset ∧ offset < 0x060 := by
  cases a with
  | read width offset =>
    obtain ⟨w, n, h⟩ := hostRead_eq P s (locate offset)
    rw [applyAccess, h] at hk
    exact absurd rfl hk
  | write width offset w =>
    obtain ⟨rfl, h4, -⟩ := ha
    by_cases hloc : ∃ k, locate offset = .key k
    · obtain ⟨k, hloc⟩ := hloc
      refine ⟨?_, offset, w, rfl, locate_eq_key h4 hloc⟩
      by_contra hb
      rw [applyAccess, hloc, hostWrite_locked (Bool.eq_true_of_not_eq_false hb) rfl] at hk
      exact hk rfl
    · rw [applyAccess, hostWrite] at hk
      split at hk
      · exact absurd rfl hk
      · exact absurd (storeWord_key_of_ne (fun k h => hloc ⟨k, h⟩) s w) hk

/-- A completion changes KEY only where it is that of ACPKM_DERIVE_LOAD. -/
theorem complete_key_cases {s t : State} (ht : complete s = .next t) (hk : t.key ≠ s.key) :
    s.status.busy = true ∧ decode s.pcmd = .ok .acpkmDeriveLoad := by
  cases hb : s.status.busy with
  | false =>
    rw [complete_idle hb] at ht
    cases ht
    exact absurd rfl hk
  | true =>
    refine ⟨rfl, ?_⟩
    cases hd : decode s.pcmd with
    | error e =>
      rw [complete_illegal hb hd] at ht
      cases ht
      exact absurd rfl hk
    | ok i =>
      rw [complete_legal hb hd] at ht
      by_contra hi
      exact hk (exec_keeps_key ht fun h => hi (by rw [h]))

/-- A joint step of a running command: the access is legal, and the completion follows it. -/
theorem handle_both_eq_next {s t : State} (hb : s.status.busy = true) {a : Access}
    (ht : handle s (.accessWithCompletion a) = .next t) :
    accessLegal Config.engine a ∧ complete (applyAccess Config.engine s a) = .next t := by
  simp only [handle, serveAndComplete, hb, if_true] at ht
  split at ht
  case h_1 u hu =>
    obtain ⟨ha, rfl⟩ := serve_eq_next hu
    exact ⟨ha, ht⟩
  case h_2 => cases ht
  case h_3 => cases ht

theorem handle_key_cases {s t : State} {e : Event} (ht : handle s e = .next t) (hk : t.key ≠ s.key) :
    (s.status.busy = false ∧ ∃ offset w, 0x040 ≤ offset ∧ offset < 0x060 ∧
      (e = .access (.write 32 offset w) ∨ e = .accessWithCompletion (.write 32 offset w))) ∨
    (s.status.busy = true ∧ decode s.pcmd = .ok .acpkmDeriveLoad) ∨ e = .reset := by
  cases e with
  | access a =>
    obtain ⟨ha, rfl⟩ := serve_eq_next ht
    obtain ⟨hb, offset, w, rfl, hlo, hhi⟩ := applyAccess_key_cases ha hk
    exact .inl ⟨hb, offset, w, hlo, hhi, .inl rfl⟩
  | completion => exact .inr (.inl (complete_key_cases ht hk))
  | reset => exact .inr (.inr rfl)
  | accessWithCompletion a =>
    cases hb : s.status.busy with
    | false =>
      rw [handle_both_idle hb] at ht
      obtain ⟨ha, rfl⟩ := serve_eq_next ht
      obtain ⟨-, offset, w, rfl, hlo, hhi⟩ := applyAccess_key_cases ha hk
      exact .inl ⟨rfl, offset, w, hlo, hhi, .inr rfl⟩
    | true =>
      obtain ⟨ha, ht⟩ := handle_both_eq_next hb ht
      have kept : (applyAccess Config.engine s a).key = s.key := by
        by_contra hkey
        exact absurd (hb.symm.trans (applyAccess_key_cases ha hkey).1) (by decide)
      obtain ⟨-, hd⟩ := complete_key_cases ht (by rwa [kept])
      rw [(applyAccess_keeps_command hb Config.engine a).2] at hd
      exact .inr (.inl ⟨rfl, hd⟩)

/-- Settles O54: each kind of event changes KEY in one way only; where an access and a completion share a step the
completing command is the one that was running. -/
theorem keyChangesOnlyByItsThreeWriters : Obligations.KeyChangesOnlyByItsThreeWriters := by
  intro s t ht hk
  cases he : s.events with
  | nil =>
    rw [step_nil he] at ht
    exact .inr (.inl (complete_key_cases (s := { s with reply := .none }) ht hk))
  | cons e rest =>
    rw [step_cons he] at ht
    rcases handle_key_cases (s := { s with events := rest, reply := .none }) ht hk with
      ⟨hb, offset, w, hlo, hhi, hev⟩ | running | rfl
    · refine .inl ⟨hb, offset, w, rest, hlo, hhi, hev.imp ?_ ?_⟩
      · rintro rfl; rfl
      · rintro rfl; rfl
    · exact .inr (.inl running)
    · exact .inr (.inr ⟨rest, rfl⟩)

end Sys2Proof.Machine
end
